-- ==== Sys2Proof/Word.lean ====
section
/-!
DEFINITION. The word types of the engine: a byte on the bus, a word of the command port, a register address and a
register value of the expander (spec/00_scope.md R12, spec/10_state.md R49, spec/30_encoding.md R80).
-/

namespace Sys2Proof

/-- A byte on the serial bus: 8 bits (R12). -/
abbrev Byte := BitVec 8

/-- A word of the command port: 32 bits (R80). -/
abbrev Word := BitVec 32

/-- An expander register address: 8 bits (R49). -/
abbrev RegAddr := BitVec 8

/-- An expander register value: 16 bits (R49). -/
abbrev RegValue := BitVec 16

end Sys2Proof
end

