-- ==== Sys2Proof/Syntax.lean ====
section
/-!
DEFINITION. The command set: one constructor of `Instr` for each row of spec/opcode_table.json (spec/30_encoding.md
R83), with its operands as R85 decodes them. Every operand has a type that holds exactly its legal values, so every
term of `Instr` is a well-formed command.
-/

namespace Sys2Proof

/-- The two target devices (R4, R82). `None`, the third value of `SELDEV`, is `Option.none`. -/
inductive Device where
  | flash
  | eeprom
  deriving DecidableEq, Repr

/-- The bit order of the raw byte commands (R37). -/
inductive BitOrder where
  | msbFirst
  | lsbFirst
  deriving DecidableEq, Repr

/-- The thirteen commands (R83). -/
inductive Instr where
  | init
  | validateConfig
  | release
  | writeByte (value : Byte)
  | readByte
  | expValidate
  | select (device : Device)
  | deselectAll
  | sessionOpen (device : Device)
  | sessionClose
  | read (device : Device) (startAddress : Word) (length : Word)
  | dump (device : Device) (startAddress : Word) (totalLength : Word)
  | setBitOrder (order : BitOrder)
  deriving DecidableEq, Repr

end Sys2Proof
end

