-- ==== Sys2Proof/Decode.lean ====
section
/-!
DEFINITION. The command encoding of spec/30_encoding.md: the fields of a header word (R81), the legality check (R86,
R87), the decoder over the words the host offers (R84, R85, R88), total and rejecting by name, and the encoder written
from the same tables.
-/

namespace Sys2Proof

/-! ### Fields of the header word (R81) -/

/-- `OP`, bits 31:28. -/
def opField (h : Word) : BitVec 4 := h.extractLsb' 28 4

/-- `DEV`, bits 27:26. -/
def devField (h : Word) : BitVec 2 := h.extractLsb' 26 2

/-- `RSV`, bits 25:9. -/
def rsvField (h : Word) : BitVec 17 := h.extractLsb' 9 17

/-- `M`, bit 8. -/
def mField (h : Word) : Bool := h.getLsbD 8

/-- `IMM8`, bits 7:0. -/
def imm8Field (h : Word) : Byte := h.extractLsb' 0 8

/-! ### Legality (R86, R87) -/

/-- Why a header is illegal; the constructors follow the five checks of R86 in order. -/
inductive IllegalReason where
  | reservedOpcode
  | reservedBits
  | strayBitOrder
  | strayByte
  | badDevice
  deriving DecidableEq, Repr

/-- R87: the reserved opcodes `0x0`, `0xE` and `0xF`. -/
def opReserved (op : BitVec 4) : Bool := op == 0x0#4 || op == 0xE#4 || op == 0xF#4

/-- R82: `SELECT`, `SESSION_OPEN`, `READ` and `DUMP` take a device. -/
def opTakesDevice (op : BitVec 4) : Bool := op == 0x7#4 || op == 0x9#4 || op == 0xB#4 || op == 0xC#4

/-- R84: `READ` and `DUMP` take three words, told from `H[31:28]` alone. -/
def headerIsLong (h : Word) : Bool := opField h == 0xB#4 || opField h == 0xC#4

/-- R84: the number of words of the command whose header this is, legal or not. -/
def headerWords (h : Word) : Nat := if headerIsLong h then 3 else 1

/-- R82: the device codes. `00` and `11` name no device. -/
def deviceOfCode (c : BitVec 2) : Option Device :=
  if c == 0b01#2 then some .flash else if c == 0b10#2 then some .eeprom else none

/-- R82: the code of a device. -/
def codeOfDevice : Device → BitVec 2
  | .flash => 0b01#2
  | .eeprom => 0b10#2

/-- R86 (5): the device code the opcode needs. -/
def devFieldFits (h : Word) : Bool :=
  if opTakesDevice (opField h) then (deviceOfCode (devField h)).isSome else devField h == 0b00#2

/-- R86: the first of the five checks that the header fails, or `none` when it is legal. -/
def headerFault (h : Word) : Option IllegalReason :=
  if opReserved (opField h) then some .reservedOpcode
  else if rsvField h != 0#17 then some .reservedBits
  else if mField h && opField h != 0xD#4 then some .strayBitOrder
  else if imm8Field h != 0x00#8 && opField h != 0x4#4 then some .strayByte
  else if !devFieldFits h then some .badDevice
  else none

/-! ### Operands and the opcode map (R83, R85) -/

/-- R85: the order operand of `SET_BIT_ORDER`. -/
def orderOfBit (m : Bool) : BitOrder := if m then .lsbFirst else .msbFirst

/-- R85: the operand bit of a bit order. -/
def bitOfOrder : BitOrder → Bool
  | .msbFirst => false
  | .lsbFirst => true

/-- R83 with the operands of R85: the command an opcode, a device and the extension words stand for. -/
def instrOfFields (h w1 w2 : Word) : Option Instr :=
  match (opField h).toNat with
  | 0x1 => some .init
  | 0x2 => some .validateConfig
  | 0x3 => some .release
  | 0x4 => some (.writeByte (imm8Field h))
  | 0x5 => some .readByte
  | 0x6 => some .expValidate
  | 0x7 => (deviceOfCode (devField h)).map .select
  | 0x8 => some .deselectAll
  | 0x9 => (deviceOfCode (devField h)).map .sessionOpen
  | 0xA => some .sessionClose
  | 0xB => (deviceOfCode (devField h)).map fun d => .read d w1 w2
  | 0xC => (deviceOfCode (devField h)).map fun d => .dump d w1 w2
  | 0xD => some (.setBitOrder (orderOfBit (mField h)))
  | _ => none

/-- R88: a header with its extension words is exactly one command or an illegal header. The last arm is never reached
(a header with no fault has a command), and rejects by name all the same. -/
def decodeHeader (h w1 w2 : Word) : Except IllegalReason Instr :=
  match headerFault h with
  | some why => .error why
  | none =>
    match instrOfFields h w1 w2 with
    | some i => .ok i
    | none => .error .reservedOpcode

/-! ### The words the host offers -/

/-- What the engine finds on its port: no whole command yet, an illegal header, or a command; with the words that
stay for later. -/
inductive PortRead where
  | waiting
  | illegal (why : IllegalReason) (rest : List Word)
  | command (i : Instr) (rest : List Word)
  deriving DecidableEq, Repr

/-- A header and its extension words, before the words that stay. -/
def decodeWith (h w1 w2 : Word) (rest : List Word) : PortRead :=
  match decodeHeader h w1 w2 with
  | .ok i => .command i rest
  | .error why => .illegal why rest

/-- The decoder. R84: a three-word command always takes both extension words, even when its header is illegal. -/
def decode : List Word → PortRead
  | [] => .waiting
  | h :: rest =>
    if headerIsLong h then
      match rest with
      | w1 :: w2 :: rest' => decodeWith h w1 w2 rest'
      | _ => .waiting
    else decodeWith h 0#32 0#32 rest

/-! ### The encoder (R81 to R85) -/

/-- R81: a header with `RSV = 0`. -/
def header (op : BitVec 4) (dev : BitVec 2) (m : Bool) (imm8 : Byte) : Word :=
  op ++ dev ++ 0#17 ++ BitVec.ofBool m ++ imm8

/-- The words of a command. -/
def encode : Instr → List Word
  | .init => [header 0x1#4 0b00#2 false 0x00#8]
  | .validateConfig => [header 0x2#4 0b00#2 false 0x00#8]
  | .release => [header 0x3#4 0b00#2 false 0x00#8]
  | .writeByte v => [header 0x4#4 0b00#2 false v]
  | .readByte => [header 0x5#4 0b00#2 false 0x00#8]
  | .expValidate => [header 0x6#4 0b00#2 false 0x00#8]
  | .select d => [header 0x7#4 (codeOfDevice d) false 0x00#8]
  | .deselectAll => [header 0x8#4 0b00#2 false 0x00#8]
  | .sessionOpen d => [header 0x9#4 (codeOfDevice d) false 0x00#8]
  | .sessionClose => [header 0xA#4 0b00#2 false 0x00#8]
  | .read d a n => [header 0xB#4 (codeOfDevice d) false 0x00#8, a, n]
  | .dump d a n => [header 0xC#4 (codeOfDevice d) false 0x00#8, a, n]
  | .setBitOrder o => [header 0xD#4 0b00#2 (bitOfOrder o) 0x00#8]

/-! ### Words as the opcode table numbers their bits -/

/-- The three words of an instruction whose bits are `w`: bit 0 is bit 0 of the first word, and the second word is
bits 63..32. Bits at and above `nbits` are 0. -/
def tableWords (nbits w : Nat) : List Word :=
  let v := w % 2 ^ nbits
  [BitVec.ofNat 32 v, BitVec.ofNat 32 (v / 2 ^ 32), BitVec.ofNat 32 (v / 2 ^ 64)]

/-- The words of that instruction, as many as its header takes (R84). -/
def tableCommand (nbits w : Nat) : List Word :=
  (tableWords nbits w).take (headerWords (BitVec.ofNat 32 (w % 2 ^ nbits)))

/-- The instruction the decoder reads from an instruction whose bits are `w`. -/
def decodeTableWord (nbits w : Nat) : Option Instr :=
  match decode (tableCommand nbits w) with
  | .command i _ => some i
  | _ => none

end Sys2Proof
end

