-- ==== Sys2Proof/Config.lean ====
section
/-!
DEFINITION. What an implementation fixes and what the outside world chooses: the configuration record of
spec/00_scope.md R9 as raw data, the events of R13, and the four oracles of R14 as free functions. The admission
check of the configuration is in WellFormed.lean.
-/

namespace Sys2Proof

/-- The device descriptor `cfg.DESC[d] = (SEL_LINE[d], ADDR_BYTES[d], READ_OPCODE[d])` (spec/10_state.md R47). -/
structure Descriptor where
  /-- `SEL_LINE[d]`: the expander output line of the device's select. -/
  selLine : Nat
  /-- `ADDR_BYTES[d]`: the number of address bytes of the read frame. -/
  addrBytes : Nat
  /-- `READ_OPCODE[d]`: the read opcode byte (R10). -/
  readOpcode : Byte
  deriving DecidableEq, Repr

/-- The whole configuration record `cfg` of R9, as raw data that may still fail the check of R11. -/
structure Config where
  /-- `CPOL`: the clock's idle level. The active level is its complement. -/
  cpol : Bool
  /-- `T_HALF`: the minimum hold time of a clock half-cycle. No rule of the step reads it (R111, R280). -/
  tHalf : Nat
  /-- `SEL_ACTIVE_LOW`: a select line is asserted by level 0 when true, by level 1 when false. -/
  selActiveLow : Bool
  flash : Descriptor
  eeprom : Descriptor
  /-- `OUT_BASE`: the levels of the output register's bits that are no select line. -/
  outBase : RegValue
  expOutReg : RegAddr
  expScratchReg : RegAddr
  expPattern : RegValue
  /-- `INIT_WRITES`: the set-up writes of `INIT`, in order. -/
  initWrites : List (RegAddr × RegValue)
  /-- `MAX_LEN`: the largest `length` of a `READ`. -/
  maxLen : Nat
  /-- `MAX_BURST`: the chunk size of a `DUMP`; 0 means no chunking. -/
  maxBurst : Nat
  deriving DecidableEq, Repr

/-- `cfg.DESC[d]` (R47). -/
def Config.desc (c : Config) : Device → Descriptor
  | .flash => c.flash
  | .eeprom => c.eeprom

/-- The status codes (spec/60_exceptions.md R240). Codes 8 to 15 are reserved and never produced. -/
inductive Code where
  | ok
  | expanderNotPresent
  | busConflict
  | selectFailure
  | transferAborted
  | usageError
  | illegalCommand
  | engineHalted
  deriving DecidableEq, Repr

/-- The two driven lines (spec/40_bit_engine.md R110). -/
inductive Line where
  | sck
  | dout
  deriving DecidableEq, Repr

/-- The events of the history (R13, R15). -/
inductive Event where
  | pin (line : Line) (level : Bool)
  | sample (level : Bool)
  | expW (reg : RegAddr) (value : RegValue) (ok : Bool)
  | expR (reg : RegAddr) (answer : Option RegValue)
  | pinCheck (fault : Bool)
  | present (bytes : List Byte)
  | resp (code : Code)
  deriving DecidableEq, Repr

/-- Oracle (a) of R14: the level a `sample()` reads after the given history. A free value, notes/assumptions/2.md. -/
opaque Config.targetOracle : List Event → Bool

/-- Oracle (b) of R14: whether an `ExpWrite` succeeds after the given history. A free value, notes/assumptions/2.md. -/
opaque Config.expWriteOracle : List Event → RegAddr → RegValue → Bool

/-- Oracle (c) of R14: what an `ExpRead` answers after the given history. A free value, notes/assumptions/2.md. -/
opaque Config.expReadOracle : List Event → RegAddr → Option RegValue

/-- Oracle (d) of R14: what `pin_fault()` answers after the given history. A free value, notes/assumptions/2.md. -/
opaque Config.pinOracle : List Event → Bool

end Sys2Proof
end

