-- ==== Sys2Proof/WellFormed.lean ====
section
/-!
DEFINITION. The admission check of a configuration (spec/00_scope.md R11) and the type of the admitted ones. A
configuration that fails the check is no `AdmittedConfig`, so the model gives it no meaning and no command runs under
it. Commands need no check of their own: the types of `Instr` hold the legal operands only. The legality of a command
header (spec/30_encoding.md R86) is part of decoding and stands in Decode.lean.
-/

namespace Sys2Proof

/-- R11: `SEL_LINE[Flash] != SEL_LINE[EEPROM]`. -/
def Config.linesDiffer (c : Config) : Bool := c.flash.selLine != c.eeprom.selLine

/-- R11: each `SEL_LINE[d]` is in 0..15. -/
def Config.linesInRange (c : Config) : Bool := decide (c.flash.selLine ≤ 15) && decide (c.eeprom.selLine ≤ 15)

/-- `ADDR_BYTES` of one device is in 1..4. -/
def Descriptor.widthInRange (d : Descriptor) : Bool := decide (1 ≤ d.addrBytes) && decide (d.addrBytes ≤ 4)

/-- R11: each `ADDR_BYTES[d]` is in 1..4. -/
def Config.widthsInRange (c : Config) : Bool := c.flash.widthInRange && c.eeprom.widthInRange

/-- R11: `EXP_SCRATCH_REG != EXP_OUT_REG`. -/
def Config.scratchApart (c : Config) : Bool := c.expScratchReg != c.expOutReg

/-- R11: no entry of `INIT_WRITES` addresses `EXP_OUT_REG`. -/
def Config.initWritesApart (c : Config) : Bool := c.initWrites.all fun w => w.1 != c.expOutReg

/-- R11: every field has the width of R9's table. `MAX_LEN` and `MAX_BURST` are the two whose Lean type does not
already say so. -/
def Config.lengthsInRange (c : Config) : Bool := decide (c.maxLen < 2 ^ 32) && decide (c.maxBurst < 2 ^ 32)

/-- The check of R11. -/
def Config.admitted (c : Config) : Bool :=
  c.linesDiffer && c.linesInRange && c.widthsInRange && c.scratchApart && c.initWritesApart && c.lengthsInRange

/-- A configuration with the proof that R11 admits it. -/
structure AdmittedConfig extends Config where
  admits : toConfig.admitted = true
  deriving DecidableEq, Repr

/-- R11 as a function: the admitted configuration, or nothing where the check refuses it. -/
def Config.toAdmitted (c : Config) : Option AdmittedConfig :=
  if h : c.admitted = true then some ⟨c, h⟩ else none

/-- The test configuration TC of spec/95_test_vectors.md section 1. -/
def Config.testConfig : Config where
  cpol := false
  tHalf := 1
  selActiveLow := true
  flash := { selLine := 0, addrBytes := 3, readOpcode := 0x03#8 }
  eeprom := { selLine := 1, addrBytes := 2, readOpcode := 0x03#8 }
  outBase := 0x0000#16
  expOutReg := 0x12#8
  expScratchReg := 0x14#8
  expPattern := 0xA55A#16
  initWrites := []
  maxLen := 256
  maxBurst := 0

/-- TC passes R11 (spec/95_test_vectors.md section 1). -/
def AdmittedConfig.test : AdmittedConfig := ⟨Config.testConfig, rfl⟩

/-- An admitted configuration of which nothing is known but that one exists (notes/assumptions/1.md). -/
opaque AdmittedConfig.someBoard [Inhabited AdmittedConfig] : AdmittedConfig

/-- The configuration of the board that the model runs on: any admitted one. Nothing in Lean can tell its values; the
argument only witnesses that admitted configurations exist. -/
def AdmittedConfig.board : AdmittedConfig := @AdmittedConfig.someBoard ⟨AdmittedConfig.test⟩

end Sys2Proof
end

