-- ==== Sys2Proof/Machine/State.lean ====
section
/-!
DEFINITION. The state record of spec/10_state.md (R32 to R45), the model's own fields beside it (the configuration, the
event history, the responses, the host's words and the answers of the oracles), the reasons a step can stop, and reset
(R52, R270).
-/

namespace Sys2Proof.Machine

/-- `BUS` (R38). -/
inductive BusState where
  | idle
  | selected
  | transferring
  deriving DecidableEq, Repr

/-- `HANDLE` (R41). -/
inductive Handle where
  | none
  | valid
  | notPresent
  | released
  deriving DecidableEq, Repr

/-- The frame phase of `READ` (R45): opcode, address byte `k` (the byte `a[8k+7:8k]`), data byte `i`. `idle` is the
value between frames. -/
inductive FramePhase where
  | idle
  | opcode
  | address (k : Nat)
  | data (i : Nat)
  deriving DecidableEq, Repr

/-- The dump position of `DUMP` (R45): the next chunk's address and the remaining count. -/
structure DumpPosition where
  pos : Nat
  rem : Nat
  deriving DecidableEq, Repr

/-- The payload of a response (R51). -/
inductive Payload where
  | byte (b : Byte)
  | valid (v : Bool)
  | bytes (bs : List Byte)
  deriving DecidableEq, Repr

/-- A response: the status word of R50 and the payload of R51. -/
structure Response where
  status : Word
  payload : Option Payload
  deriving DecidableEq, Repr

/-- A reset that arrives from outside (R270, R272): none, one between two commands, or one while the next command of
the port runs. An input of the model. -/
inductive ResetInput where
  | none
  | betweenCommands
  | midCommand
  deriving DecidableEq, Repr

/-- The engine's state. -/
structure State where
  /-- MODEL's own: the configuration (R9). No command changes it (notes/assumptions/1.md). -/
  cfg : AdmittedConfig
  /-- `SCK` (R32): the level driven on the clock line. -/
  sck : Bool
  /-- `DOUT` (R33): the level driven on the data line. -/
  dout : Bool
  /-- `SR` (R35): the byte shift register. -/
  sr : Byte
  /-- `BITCNT` (R36): bits of the current byte already moved, 0..8. -/
  bitcnt : Fin 9
  /-- `ORDER` (R37). -/
  order : BitOrder
  /-- `BUS` (R38). -/
  bus : BusState
  /-- `SELDEV` (R39). -/
  seldev : Option Device
  /-- `SESSION` (R40). -/
  session : Bool
  /-- `HANDLE` (R41). -/
  handle : Handle
  /-- `HALTED` (R42). -/
  halted : Bool
  /-- `OUT_SHADOW` (R43); `none` is `Unknown`. -/
  outShadow : Option RegValue
  /-- The frame phase of `READ` (R45); `idle` between commands (DESIGN CHOICE, notes/assumptions/7.md). -/
  phase : FramePhase
  /-- `RXBUF` (R45): the receive buffer of `READ`; empty between commands (DESIGN CHOICE, notes/assumptions/7.md). -/
  rxbuf : List Byte
  /-- The dump position of `DUMP` (R45); `none` when no dump runs (DESIGN CHOICE,
  notes/assumptions/7.md). -/
  dumpPos : Option DumpPosition
  /-- MODEL's own: the event history since reset, oldest first (R15, R270; notes/assumptions/9.md). -/
  history : List Event
  /-- MODEL's own: the responses since reset, oldest first (R80, R287; notes/assumptions/9.md). -/
  responses : List Response
  /-- MODEL's own: the command words the host sends, the next one first (R80; notes/assumptions/4.md). -/
  port : List Word
  /-- MODEL's own: a reset from outside (R270, R272; notes/assumptions/5.md). -/
  resetInput : ResetInput
  /-- MODEL's own: the target oracle's next answers, before its free ones (R14 (a);
  notes/assumptions/2.md). -/
  samples : List Bool
  /-- MODEL's own: the expander's next answers to writes, before its free ones (R14 (b)). -/
  expAcks : List Bool
  /-- MODEL's own: the expander's next answers to reads, before its free ones (R14 (c)). -/
  expReads : List (Option RegValue)
  /-- MODEL's own: the pin oracle's next answers, before its free ones (R14 (d)). -/
  pinFaults : List Bool
  deriving DecidableEq, Repr

/-- The reasons the machine can stop with a fault. There is none: every error of the engine is a response to the host
(spec/60_exceptions.md R241) and the engine goes on, and a configuration that R11 refuses is no `AdmittedConfig`
(notes/assumptions/15.md). -/
inductive Fault where
  deriving DecidableEq, Repr

/-- The reasons a command has no meaning in the model. -/
inductive Refusal where
  /-- Raised by an arm of `exec` for a command that has no meaning yet; no arm does. Safe: the model stops where the
  engine goes on. -/
  | notModelled (mnemonic : String)
  deriving DecidableEq, Repr

/-- `SR` after reset. The spec leaves it unspecified; the model names 0x00 (DESIGN CHOICE, notes/assumptions/3.md). -/
def srAtReset : Byte := 0x00#8

/-- The state right after reset under a configuration (R52, R270), with nothing sent by the host and no scripted
oracle answer. -/
def State.resetWith (cfg : AdmittedConfig) : State where
  cfg := cfg
  sck := cfg.cpol
  dout := false
  sr := srAtReset
  bitcnt := 0
  order := .msbFirst
  bus := .idle
  seldev := Option.none
  session := false
  handle := .none
  halted := false
  outShadow := Option.none
  phase := .idle
  rxbuf := []
  dumpPos := Option.none
  history := []
  responses := []
  port := []
  resetInput := .none
  samples := []
  expAcks := []
  expReads := []
  pinFaults := []

/-- The machine right after reset, on a board whose configuration is any admitted one. -/
def State.reset : State := State.resetWith AdmittedConfig.board

end Sys2Proof.Machine
end

