-- ==== Sys2Proof/Machine/Flags.lean ====
section
/-!
DEFINITION. The engine has no condition-code register (spec/10_state.md R46). Its only computed flags are the fields of
the status word of R50, with the code numbers of spec/60_exceptions.md R240.
-/

namespace Sys2Proof.Machine

/-- R240: the number of a status code. -/
def codeNumber : Code → BitVec 4
  | .ok => 0#4
  | .expanderNotPresent => 1#4
  | .busConflict => 2#4
  | .selectFailure => 3#4
  | .transferAborted => 4#4
  | .usageError => 5#4
  | .illegalCommand => 6#4
  | .engineHalted => 7#4

/-- R50: the `BUS` field. -/
def busNumber : BusState → BitVec 2
  | .idle => 0#2
  | .selected => 1#2
  | .transferring => 2#2

/-- R50: the `SELDEV` field. -/
def seldevNumber : Option Device → BitVec 2
  | none => 0#2
  | some .flash => 1#2
  | some .eeprom => 2#2

/-- R50: the `HANDLE` field. -/
def handleNumber : Handle → BitVec 2
  | .none => 0#2
  | .valid => 1#2
  | .notPresent => 2#2
  | .released => 3#2

/-- R50: the `ORDER` field. -/
def orderBit : BitOrder → Bool
  | .msbFirst => false
  | .lsbFirst => true

/-- R50: `STATUS = zext_32({HALTED, ORDER, SESSION, HANDLE, SELDEV, BUS, CODE})`. -/
def statusWord (code : Code) (s : State) : Word :=
  (BitVec.ofBool s.halted ++ BitVec.ofBool (orderBit s.order) ++ BitVec.ofBool s.session ++ handleNumber s.handle ++
    seldevNumber s.seldev ++ busNumber s.bus ++ codeNumber code).zeroExtend 32

end Sys2Proof.Machine
end

