-- ==== Sys2Proof/Machine/Operands.lean ====
section
/-!
DEFINITION. What the commands compute from their operands and the configuration: the argument checks of `READ` and
`DUMP` (spec/43_read_protocol.md R192, R200), the transfer frame (R191, spec/20_memory.md R61), the chunks of a dump
(R200, R201), and the value of the expander's output register (spec/41_expander_select.md R141). Addresses are
naturals here, as R12 asks.
-/

namespace Sys2Proof.Machine

/-! ### Addresses and frames -/

/-- The size of the address space of device `d`: `2^(8*ADDR_BYTES[d])` (R192). -/
def addrLimit (c : Config) (d : Device) : Nat := 2 ^ (8 * (c.desc d).addrBytes)

/-- R192: whether `READ d, a, n` is rejected. -/
def readArgsBad (c : Config) (d : Device) (a n : Nat) : Bool :=
  decide (addrLimit c d ≤ a) || decide (c.maxLen < n)

/-- R200: whether `DUMP d, a, L` is rejected. -/
def dumpArgsBad (c : Config) (d : Device) (a len : Nat) : Bool :=
  decide (addrLimit c d ≤ a) || decide (addrLimit c d < a + len)

/-- `a[8k+7:8k]` (R191). -/
def addrByte (a k : Nat) : Byte := BitVec.ofNat 8 (a / 2 ^ (8 * k))

/-- The address bytes `a[8k+7:8k]` for `k = A-1` down to 0: the most significant first (R61, R191). -/
def addrBytesOf (a : Nat) : Nat → List Byte
  | 0 => []
  | k + 1 => addrByte a k :: addrBytesOf a k

/-- `frame(d, a)`: the opcode, then the address bytes (R191). -/
def frame (c : Config) (d : Device) (a : Nat) : List Byte :=
  (c.desc d).readOpcode :: addrBytesOf a (c.desc d).addrBytes

/-- The phase of the frame byte that has `left` frame bytes after it, in a frame of `A` address bytes (R45): the opcode
has `A` after it, and `a[8k+7:8k]` has `k`. -/
def framePhaseOf (A left : Nat) : FramePhase := if left = A then .opcode else .address left

/-! ### Chunks of a dump -/

/-- One chunk of a dump: its address, its length, and the count that remained when it began. -/
structure Chunk where
  pos : Nat
  len : Nat
  rem : Nat
  deriving DecidableEq, Repr

/-- R200: the chunk size `C`. -/
def chunkSize (c : Config) (len : Nat) : Nat := if c.maxBurst = 0 then len else c.maxBurst

/-- R200's loop as the list of its passes. Each pass lowers `rem` by at least 1, so `fuel = rem` is enough. -/
def chunksFrom (size : Nat) : (fuel pos rem : Nat) → List Chunk
  | 0, _, _ => []
  | fuel + 1, pos, rem =>
    if rem = 0 then []
    else
      let k := min size rem
      { pos := pos, len := k, rem := rem } :: chunksFrom size fuel (pos + k) (rem - k)

/-- The chunks of `DUMP d, a, L` (R200, R201). -/
def dumpChunks (c : Config) (a len : Nat) : List Chunk := chunksFrom (chunkSize c len) len a len

/-! ### The output register -/

/-- `v[i] <- b` (R12). -/
def setBit (v : RegValue) (i : Nat) (b : Bool) : RegValue :=
  if b then v ||| (1#16 <<< i) else v &&& ~~~(1#16 <<< i)

/-- R141: the level of device `d`'s line in the value that selects `t`; the assert level is 0 for active-low lines. -/
def selLevel (c : Config) (t : Option Device) (d : Device) : Bool :=
  if t = some d then !c.selActiveLow else c.selActiveLow

/-- R141: `sel_value(t)`. -/
def selValue (c : Config) (t : Option Device) : RegValue :=
  setBit (setBit c.outBase c.flash.selLine (selLevel c t .flash)) c.eeprom.selLine (selLevel c t .eeprom)

end Sys2Proof.Machine
end

