-- ==== Sys2Proof/Machine/Ops.lean ====
section
/-!
DEFINITION. The shared operations: the primitives of spec/00_scope.md R13 with the oracle draws of R14, the response
that ends a command (R13, spec/10_state.md R50 and R51), the gate and the cleanup of spec/60_exceptions.md (R243,
R244), the byte transfers of spec/40_bit_engine.md (R112 to R114), the expander procedures of
spec/41_expander_select.md (R142, R143, R145), and reset from outside (spec/70_reset_and_hazards.md R270, R272).
-/

namespace Sys2Proof.Machine

/-! ### Events and oracle draws -/

/-- An event joins the history, and the scripted answer that it drew, if it drew one, is gone. -/
def State.note (s : State) (e : Event) : State :=
  { s with
    history := s.history ++ [e]
    samples := match e with
      | .sample _ => s.samples.tail
      | _ => s.samples
    expAcks := match e with
      | .expW _ _ _ => s.expAcks.tail
      | _ => s.expAcks
    expReads := match e with
      | .expR _ _ => s.expReads.tail
      | _ => s.expReads
    pinFaults := match e with
      | .pinCheck _ => s.pinFaults.tail
      | _ => s.pinFaults }

/-- A list of events, noted in order. -/
def State.noteAll (s : State) (es : List Event) : State := es.foldl State.note s

/-- The target oracle's next answer: the scripted one, or the free one of the history so far (R14 (a)). -/
def State.sampleAnswer (s : State) : Bool :=
  match s.samples with
  | b :: _ => b
  | [] => Config.targetOracle s.history

/-- The expander's next answer to a write (R14 (b)). -/
def State.expAckAnswer (s : State) (a : RegAddr) (v : RegValue) : Bool :=
  match s.expAcks with
  | b :: _ => b
  | [] => Config.expWriteOracle s.history a v

/-- The expander's next answer to a read (R14 (c)). -/
def State.expReadAnswer (s : State) (a : RegAddr) : Option RegValue :=
  match s.expReads with
  | r :: _ => r
  | [] => Config.expReadOracle s.history a

/-- The pin oracle's next answer (R14 (d)). -/
def State.pinFaultAnswer (s : State) : Bool :=
  match s.pinFaults with
  | f :: _ => f
  | [] => Config.pinOracle s.history

/-! ### The primitives of R13 -/

/-- `drive(SCK, b)`. -/
def State.driveSck (s : State) (b : Bool) : State := { s with sck := b }.note (.pin .sck b)

/-- `drive(DOUT, b)`. -/
def State.driveDout (s : State) (b : Bool) : State := { s with dout := b }.note (.pin .dout b)

/-- `sample()`. -/
def State.sample (s : State) : Bool × State :=
  let b := s.sampleAnswer
  (b, s.note (.sample b))

/-- `ExpWrite(a, v)`. -/
def State.expWrite (s : State) (a : RegAddr) (v : RegValue) : Bool × State :=
  let ok := s.expAckAnswer a v
  (ok, s.note (.expW a v ok))

/-- `ExpRead(a)`. -/
def State.expRead (s : State) (a : RegAddr) : Option RegValue × State :=
  let r := s.expReadAnswer a
  (r, s.note (.expR a r))

/-- `pin_fault()`. -/
def State.pinFault (s : State) : Bool × State :=
  let f := s.pinFaultAnswer
  (f, s.note (.pinCheck f))

/-- `present(bytes)` (spec/43_read_protocol.md R203). -/
def State.present (s : State) (bytes : List Byte) : State := s.note (.present bytes)

/-- `respond(code, payload)`: the end of every command, and the one way the engine reports an error (R13, R241). The
status word shows the state as the command leaves it. -/
def State.respond (s : State) (code : Code) (payload : Option Payload) : State :=
  let r : Response := { status := statusWord code s, payload := payload }
  { s with responses := s.responses ++ [r] }.note (.resp code)

/-- The response to an illegal header: `Resp(IllegalCommand)` and nothing else (spec/30_encoding.md R86). -/
def State.respondIllegal (s : State) : State := s.respond .illegalCommand none

/-! ### The gate and the conditions on session and bus -/

/-- The cases of `gate(cmd)`. -/
inductive GateCase where
  | setBitOrder
  | init
  | release
  | other
  deriving DecidableEq, Repr

/-- R243: `gate(cmd)`, with the code it rejects by, or `none` when the command passes. -/
def gate (g : GateCase) (s : State) : Option Code :=
  if s.halted then some .engineHalted
  else
    match g, s.handle with
    | .setBitOrder, _ => none
    | .init, .valid => some .usageError
    | .init, .notPresent => some .usageError
    | .init, .none => none
    | .init, .released => none
    | .release, .none => some .usageError
    | .release, .released => some .usageError
    | .release, .valid => none
    | .release, .notPresent => none
    | .other, .none => some .usageError
    | .other, .released => some .usageError
    | .other, .notPresent => some .expanderNotPresent
    | .other, .valid => none

/-- A command: the gate first (R242, R243), then its own body. -/
def gated (g : GateCase) (s : State) (body : State → State) : State :=
  match gate g s with
  | some code => s.respond code none
  | none => body s

/-- `SESSION or BUS != Idle` (R245). -/
def State.busClaimed (s : State) : Bool := s.session || decide (s.bus ≠ .idle)

/-! ### The shift register (R112, R113) -/

/-- The bit of `SR` that goes out next. -/
def outBit (ord : BitOrder) (sr : Byte) : Bool :=
  match ord with
  | .msbFirst => sr.getLsbD 7
  | .lsbFirst => sr.getLsbD 0

/-- `SR` after one bit went out. -/
def shiftedOut (ord : BitOrder) (sr : Byte) : Byte :=
  match ord with
  | .msbFirst => sr <<< 1
  | .lsbFirst => sr >>> 1

/-- `SR` after the bit `d` came in: `{SR[6:0], d}` or `{d, SR[7:1]}`. -/
def shiftedIn (ord : BitOrder) (sr : Byte) (d : Bool) : Byte :=
  match ord with
  | .msbFirst => sr.extractLsb' 0 7 ++ BitVec.ofBool d
  | .lsbFirst => BitVec.ofBool d ++ sr.extractLsb' 1 7

/-- `k in 0 .. 7`. -/
def bitSlots : List (Fin 8) := [0, 1, 2, 3, 4, 5, 6, 7]

/-- One clock pulse of `shift_out`: data while the clock is idle, then idle to active to idle (R111, R112). -/
def shiftOutBit (ord : BitOrder) (s : State) (k : Fin 8) : State :=
  let s' := ((s.driveDout (outBit ord s.sr)).driveSck (!s.cfg.cpol)).driveSck s.cfg.cpol
  { s' with sr := shiftedOut ord s.sr, bitcnt := k.succ }

/-- `shift_out(v, ord)` (R112). -/
def shiftOut (v : Byte) (ord : BitOrder) (s : State) : State :=
  { bitSlots.foldl (shiftOutBit ord) { s with sr := v } with bitcnt := 0 }

/-- One clock pulse of `shift_in`, with the sample point in its active phase (R113). -/
def shiftInBit (ord : BitOrder) (s : State) (k : Fin 8) : State :=
  let drawn := (s.driveSck (!s.cfg.cpol)).sample
  let s' := drawn.2.driveSck s.cfg.cpol
  { s' with sr := shiftedIn ord s.sr drawn.1, bitcnt := k.succ }

/-- `shift_in(ord)` (R113): the byte is `SR` of the state it leaves. -/
def shiftIn (ord : BitOrder) (s : State) : State :=
  { bitSlots.foldl (shiftInBit ord) s with bitcnt := 0 }

/-- `note_transfer()` (R114): the first bit transfer moves Selected to Transferring. -/
def noteTransfer (s : State) : State :=
  match s.bus with
  | .selected => { s with bus := .transferring }
  | .idle => s
  | .transferring => s

/-- `xfer_out(v, ord)` (R114): whether the byte went out without a pin fault, and the state after it. -/
def xferOut (v : Byte) (ord : BitOrder) (s : State) : Bool × State :=
  let checked := (shiftOut v ord (noteTransfer s)).pinFault
  (!checked.1, checked.2)

/-- `xfer_in(ord)` (R114). The byte is `SR` of the state it leaves. -/
def xferIn (ord : BitOrder) (s : State) : Bool × State :=
  let checked := (shiftIn ord (noteTransfer s)).pinFault
  (!checked.1, checked.2)

/-! ### The expander adapter (R142, R143, R145) -/

/-- `validate()` (R142): a failed write or a failed read is a failed check. -/
def validate (s : State) : Bool × State :=
  let written := s.expWrite s.cfg.expScratchReg s.cfg.expPattern
  if written.1 then
    let got := written.2.expRead s.cfg.expScratchReg
    (got.1 == some s.cfg.expPattern, got.2)
  else (false, written.2)

/-- `do_deselect()` (R145): the state machine goes back to Idle on every attempt, and a failed write halts. -/
def doDeselect (s : State) : Bool × State :=
  let v := selValue s.cfg.toConfig none
  let written := s.expWrite s.cfg.expOutReg v
  let s' := { written.2 with bus := .idle, seldev := none }
  if written.1 then (true, { s' with outShadow := some v })
  else (false, { s' with outShadow := none, halted := true })

/-- `do_select(d)` (R143): a failed write is followed by one fail-safe deselect. -/
def doSelect (d : Device) (s : State) : Bool × State :=
  let v := selValue s.cfg.toConfig (some d)
  let written := s.expWrite s.cfg.expOutReg v
  if written.1 then (true, { written.2 with outShadow := some v, seldev := some d, bus := .selected })
  else (false, (doDeselect { written.2 with outShadow := none }).2)

/-! ### Errors in a transfer (R244) -/

/-- `cleanup()`: one deselect attempt, which halts if it fails. -/
def cleanup (s : State) : State := (doDeselect { s with session := false }).2

/-- `abort_transfer()`. -/
def abortTransfer (s : State) : State :=
  (if s.session then cleanup s else s).respond .transferAborted none

/-! ### Pins of the lifecycle commands (R220, R225) -/

/-- `drive(SCK, cfg.CPOL); drive(DOUT, 0)`. -/
def idlePins (s : State) : State := (s.driveSck s.cfg.cpol).driveDout false

/-! ### The command port and reset from outside -/

/-- The state once the words before `rest` are taken from the port. -/
def State.withPort (s : State) (rest : List Word) : State := { s with port := rest }

/-- The words left when the next command is taken and abandoned (R272). Words of an incomplete command are lost. -/
def portAfterAbandoned (ws : List Word) : List Word :=
  match decode ws with
  | .waiting => []
  | .illegal _ rest => rest
  | .command _ rest => rest

/-- R270: every field of the record at its reset value and an empty history. The configuration, the words the host
still sends and the oracles' answers are not state (R53) and stay. -/
def State.resetRecord (s : State) : State :=
  { State.resetWith s.cfg with
    port := s.port
    samples := s.samples
    expAcks := s.expAcks
    expReads := s.expReads
    pinFaults := s.pinFaults }

/-- What a reset from outside does, if there is one: between two commands (R270), or in the middle of the next command,
which is then abandoned with no response (R272). -/
def State.takeReset (s : State) : Option State :=
  match s.resetInput with
  | .none => none
  | .betweenCommands => some s.resetRecord
  | .midCommand => some (s.resetRecord.withPort (portAfterAbandoned s.port))

/-- What the engine finds on its port. -/
def State.readPort (s : State) : PortRead := decode s.port

/-- The host sends these words next, and no reset comes before them. -/
def State.offer (s : State) (ws : List Word) : State := { s with port := ws ++ s.port, resetInput := .none }

end Sys2Proof.Machine
end

