-- ==== Sys2Proof/Machine/BitEngine.lean ====
section
/-!
DEFINITION. The commands of spec/40_bit_engine.md: `WRITE_BYTE` (R116), `READ_BYTE` (R117), `SET_BIT_ORDER` (R121).
-/

namespace Sys2Proof.Machine

/-- `WRITE_BYTE value` (R116). -/
def execWriteByte (value : Byte) (s : State) : Host.Outcome State Fault Refusal :=
  .next (gated .other s fun s =>
    let sent := xferOut value s.order s
    if sent.1 then sent.2.respond .ok none else abortTransfer sent.2)

/-- `READ_BYTE` (R117). -/
def execReadByte (s : State) : Host.Outcome State Fault Refusal :=
  .next (gated .other s fun s =>
    let got := xferIn s.order s
    if got.1 then got.2.respond .ok (some (.byte got.2.sr)) else abortTransfer got.2)

/-- `SET_BIT_ORDER order` (R121). -/
def execSetBitOrder (order : BitOrder) (s : State) : Host.Outcome State Fault Refusal :=
  .next (gated .setBitOrder s fun s => State.respond { s with order := order } .ok none)

end Sys2Proof.Machine
end

