-- ==== Sys2Proof/Machine/Expander.lean ====
section
/-!
DEFINITION. The commands of spec/41_expander_select.md: `EXP_VALIDATE` (R140), `SELECT` (R144), `DESELECT_ALL` (R147).
-/

namespace Sys2Proof.Machine

/-- `EXP_VALIDATE` (R140): a failed check is no error. -/
def execExpValidate (s : State) : Host.Outcome State Fault Refusal :=
  .next (gated .other s fun s =>
    let checked := validate s
    checked.2.respond .ok (some (.valid checked.1)))

/-- `SELECT device` (R144). -/
def execSelect (d : Device) (s : State) : Host.Outcome State Fault Refusal :=
  .next (gated .other s fun s =>
    if s.busClaimed then s.respond .busConflict none
    else
      let done := doSelect d s
      done.2.respond (if done.1 then .ok else .selectFailure) none)

/-- `DESELECT_ALL` (R147). -/
def execDeselectAll (s : State) : Host.Outcome State Fault Refusal :=
  .next (gated .other s fun s =>
    if s.session then s.respond .usageError none
    else
      let done := doDeselect s
      done.2.respond (if done.1 then .ok else .selectFailure) none)

end Sys2Proof.Machine
end

