-- ==== Sys2Proof/Machine/Lifecycle.lean ====
section
/-!
DEFINITION. The commands of spec/44_lifecycle.md: `INIT` (R220), `VALIDATE_CONFIG` (R223), `RELEASE` (R225).
-/

namespace Sys2Proof.Machine

/-- The set-up writes in list order, up to the first that fails (R221). -/
def setupWrites : List (RegAddr × RegValue) → State → Bool × State
  | [], s => (true, s)
  | w :: ws, s =>
    let written := s.expWrite w.1 w.2
    if written.1 then setupWrites ws written.2 else (false, written.2)

/-- An `INIT` or a check that failed: the handle is `NotPresent` (R220, R223). -/
def failHandle (code : Code) (s : State) : State := { s with handle := .notPresent }.respond code none

/-- `INIT` (R220). -/
def execInit (s : State) : Host.Outcome State Fault Refusal :=
  .next (gated .init s fun s =>
    let setUp := setupWrites s.cfg.initWrites (idlePins s)
    if !setUp.1 then failHandle .expanderNotPresent setUp.2
    else
      let off := doDeselect setUp.2
      if !off.1 then failHandle .selectFailure off.2
      else
        let checked := validate off.2
        if !checked.1 then failHandle .expanderNotPresent checked.2
        else { checked.2 with handle := .valid }.respond .ok none)

/-- `VALIDATE_CONFIG` (R223). -/
def execValidateConfig (s : State) : Host.Outcome State Fault Refusal :=
  .next (gated .other s fun s =>
    if s.busClaimed then s.respond .usageError none
    else
      let checked := validate s
      if checked.1 then checked.2.respond .ok none else failHandle .expanderNotPresent checked.2)

/-- `RELEASE` (R225): no expander write unless the handle is `Valid`. -/
def execRelease (s : State) : Host.Outcome State Fault Refusal :=
  .next (gated .release s fun s =>
    if s.session then s.respond .usageError none
    else
      let off := if s.handle = .valid then doDeselect s else (true, s)
      { idlePins off.2 with handle := .released }.respond (if off.1 then .ok else .selectFailure) none)

end Sys2Proof.Machine
end

