-- ==== Sys2Proof/Machine/ReadProtocol.lean ====
section
/-!
DEFINITION. The frame builder and the dump loop of spec/43_read_protocol.md: the shared read sequence (R193) with the
internal session of spec/42_session.md R175, `READ` (R190) and `DUMP` (R200).
-/

namespace Sys2Proof.Machine

/-- `open_session(d)` (R175). -/
def openSession (d : Device) (s : State) : Code × State :=
  let done := doSelect d s
  (if done.1 then .ok else .selectFailure, done.2)

/-- `close_session()` (R175). -/
def closeSession (s : State) : Code × State :=
  let done := doDeselect s
  (if done.1 then .ok else .selectFailure, done.2)

/-- The bytes of a frame of `A` address bytes, each sent MSB-first, up to the first pin fault (R193). -/
def sendFrame (A : Nat) : List Byte → State → Bool × State
  | [], s => (true, s)
  | b :: bs, s =>
    let sent := xferOut b .msbFirst { s with phase := framePhaseOf A bs.length }
    if sent.1 then sendFrame A bs sent.2 else (false, sent.2)

/-- `n` data bytes from index `i` on, each received MSB-first into `RXBUF`, up to the first pin fault (R193). -/
def receiveBytes : (n i : Nat) → State → Bool × State
  | 0, _, s => (true, s)
  | n + 1, i, s =>
    let got := xferIn .msbFirst { s with phase := .data i }
    if got.1 then receiveBytes n (i + 1) { got.2 with rxbuf := got.2.rxbuf ++ [got.2.sr] } else (false, got.2)

/-- What a read sequence gives: its code, its bytes, and the state after it. -/
structure FrameResult where
  code : Code
  rx : List Byte
  after : State

/-- The end of a read sequence: the frame phase and `RXBUF` exist only while it runs (R45). -/
def endFrame (code : Code) (rx : List Byte) (s : State) : FrameResult :=
  { code := code, rx := rx, after := { s with phase := .idle, rxbuf := [] } }

/-- `read_frame(d, a, n)` (R193). -/
def readFrame (d : Device) (a n : Nat) (s : State) : FrameResult :=
  let opened := openSession d s
  if opened.1 ≠ .ok then endFrame .selectFailure [] opened.2
  else
    let sent := sendFrame (s.cfg.desc d).addrBytes (frame s.cfg.toConfig d a) opened.2
    if !sent.1 then endFrame .transferAborted [] (cleanup sent.2)
    else
      let got := receiveBytes n 0 { sent.2 with rxbuf := [] }
      if !got.1 then endFrame .transferAborted [] (cleanup got.2)
      else
        let closed := closeSession got.2
        if closed.1 ≠ .ok then endFrame .selectFailure [] closed.2
        else endFrame .ok closed.2.rxbuf closed.2

/-- `READ device, start_address, length` (R190). -/
def execRead (d : Device) (a n : Word) (s : State) : Host.Outcome State Fault Refusal :=
  .next (gated .other s fun s =>
    if s.busClaimed then s.respond .busConflict none
    else if readArgsBad s.cfg.toConfig d a.toNat n.toNat then s.respond .usageError none
    else
      let r := readFrame d a.toNat n.toNat s
      r.after.respond r.code (if r.code = .ok then some (.bytes r.rx) else none))

/-- The passes of the dump loop, up to the first chunk that fails (R200, R202). -/
def dumpLoop (d : Device) : List Chunk → State → Code × State
  | [], s => (.ok, s)
  | c :: cs, s =>
    let r := readFrame d c.pos c.len { s with dumpPos := some { pos := c.pos, rem := c.rem } }
    if r.code ≠ .ok then (r.code, r.after) else dumpLoop d cs (r.after.present r.rx)

/-- `DUMP device, start_address, total_length` (R200). The dump position exists only while it runs (R45). -/
def execDump (d : Device) (a len : Word) (s : State) : Host.Outcome State Fault Refusal :=
  .next (gated .other s fun s =>
    if s.busClaimed then s.respond .busConflict none
    else if dumpArgsBad s.cfg.toConfig d a.toNat len.toNat then s.respond .usageError none
    else
      let done := dumpLoop d (dumpChunks s.cfg.toConfig a.toNat len.toNat) s
      { done.2 with dumpPos := none }.respond done.1 none)

end Sys2Proof.Machine
end

