-- ==== Sys2Proof/Machine/Session.lean ====
section
/-!
DEFINITION. The commands of spec/42_session.md: `SESSION_OPEN` (R170), `SESSION_CLOSE` (R173).
-/

namespace Sys2Proof.Machine

/-- `SESSION_OPEN device` (R170). -/
def execSessionOpen (d : Device) (s : State) : Host.Outcome State Fault Refusal :=
  .next (gated .other s fun s =>
    if s.busClaimed then s.respond .busConflict none
    else
      let done := doSelect d s
      if done.1 then { done.2 with session := true }.respond .ok none
      else done.2.respond .selectFailure none)

/-- `SESSION_CLOSE` (R173). -/
def execSessionClose (s : State) : Host.Outcome State Fault Refusal :=
  .next (gated .other s fun s =>
    if !s.session then s.respond .usageError none
    else
      let done := doDeselect { s with session := false }
      done.2.respond (if done.1 then .ok else .selectFailure) none)

end Sys2Proof.Machine
end

