-- ==== Sys2Proof/Machine/Dispatch.lean ====
section
/-!
DEFINITION. The dispatch: one arm per command of spec/opcode_table.json, each one call of its meaning.
-/

namespace Sys2Proof.Machine

def exec (i : Instr) (s : State) : Host.Outcome State Fault Refusal :=
  match i with
  | .init => Sys2Proof.Machine.execInit s
  | .validateConfig => Sys2Proof.Machine.execValidateConfig s
  | .release => Sys2Proof.Machine.execRelease s
  | .writeByte value => Sys2Proof.Machine.execWriteByte value s
  | .readByte => Sys2Proof.Machine.execReadByte s
  | .expValidate => Sys2Proof.Machine.execExpValidate s
  | .select d => Sys2Proof.Machine.execSelect d s
  | .deselectAll => Sys2Proof.Machine.execDeselectAll s
  | .sessionOpen d => Sys2Proof.Machine.execSessionOpen d s
  | .sessionClose => Sys2Proof.Machine.execSessionClose s
  | .read d a n => Sys2Proof.Machine.execRead d a n s
  | .dump d a len => Sys2Proof.Machine.execDump d a len s
  | .setBitOrder order => Sys2Proof.Machine.execSetBitOrder order s

end Sys2Proof.Machine
end

