-- ==== Sys2Proof/Machine/Step.lean ====
section
/-!
DEFINITION. One step of the machine: a reset from outside if there is one, else the next command of the port, run to
its response (spec/10_state.md R31, spec/30_encoding.md R80). With no whole command on the port the engine waits, and
nothing changes (spec/70_reset_and_hazards.md R271).
-/

namespace Sys2Proof.Machine

/-- The step. A waiting engine answers the same state (DESIGN CHOICE, notes/assumptions/6.md). -/
def step (s : State) : Host.Outcome State Fault Refusal :=
  match s.takeReset with
  | some s' => .next s'
  | none =>
    match s.readPort with
    | .waiting => .next s
    | .illegal _ rest => .next (s.withPort rest).respondIllegal
    | .command i rest => exec i (s.withPort rest)

/-- `s` with the command whose bits are `w` as the next one the host sends (notes/assumptions/4.md). -/
def State.withFetchWord (s : State) (nbits w : Nat) : State := s.offer (tableCommand nbits w)

end Sys2Proof.Machine
end

