-- ==== Sys2Proof/Machine/Pseudo.lean ====
section
/-!
DEFINITION. The pseudo-command `WITH_DEVICE <dev> { <body> }` of spec/30_encoding.md R90, as what the host sends and
where it stops sending, and the raw frame of R91 written with it.
-/

namespace Sys2Proof.Machine

/-- The code of the last response, as the history holds it. -/
def State.lastCode (s : State) : Option Code :=
  match s.history.getLast? with
  | some (.resp c) => some c
  | _ => none

/-- The host sends the commands in order and stops after the first response that `stop` tells it to stop at. -/
def sendUntil (stop : Option Code → Bool) : List Instr → State → Host.Outcome State Fault Refusal
  | [], s => .next s
  | i :: is, s =>
    match exec i s with
    | .next t => if stop t.lastCode then .next t else sendUntil stop is t
    | .fault r => .fault r
    | .refused r => .refused r

/-- R90: nothing more is sent after a `SESSION_OPEN` that is not `OK`, and nothing after a `TransferAborted` in the
body, since the engine has closed the session itself. -/
def withDevice (d : Device) (body : List Instr) (s : State) : Host.Outcome State Fault Refusal :=
  match exec (.sessionOpen d) s with
  | .next t =>
    if t.lastCode = some .ok then
      sendUntil (fun c => decide (c = some .transferAborted)) (body ++ [.sessionClose]) t
    else .next t
  | .fault r => .fault r
  | .refused r => .refused r

/-- R91: the body of the raw frame of `READ d, a, n`. -/
def rawFrameBody (c : Config) (d : Device) (a n : Nat) : List Instr :=
  (frame c d a).map .writeByte ++ List.replicate n .readByte

/-- R91: the raw frame of `READ d, a, n`. -/
def rawRead (d : Device) (a n : Nat) (s : State) : Host.Outcome State Fault Refusal :=
  withDevice d (rawFrameBody s.cfg.toConfig d a n) s

end Sys2Proof.Machine
end

