-- ==== Sys2Proof/Safety.lean ====
section
/-!
DEFINITION. What counts as a safe state and a safe run, in the terms the claims use: the traces that a byte, a frame
and a dump record (spec/40_bit_engine.md, spec/43_read_protocol.md), when the outside world answers as a trace says
(spec/00_scope.md R14, R15), the invariants of spec/10_state.md R44 and spec/60_exceptions.md R247, and the writes of
the expander's output register (spec/41_expander_select.md R146, spec/42_session.md R174).
-/

namespace Sys2Proof.Machine

/-! ### When the oracles answer as a trace says -/

/-- Whether the draw that an event records, if it records one, is what the oracle answers next. -/
def State.answersEvent (s : State) : Event → Bool
  | .pin _ _ => true
  | .sample b => b == s.sampleAnswer
  | .expW a v ok => ok == s.expAckAnswer a v
  | .expR a r => r == s.expReadAnswer a
  | .pinCheck f => f == s.pinFaultAnswer
  | .present _ => true
  | .resp _ => true

/-- Whether every draw that a trace records is what the oracle answers when the trace has come so far. -/
def State.answers (s : State) : List Event → Bool
  | [] => true
  | e :: es => s.answersEvent e && (s.note e).answers es

/-! ### Traces -/

/-- The `k`-th bit of a byte on the wire (R112): `v[7-k]` MSB-first, `v[k]` LSB-first. -/
def wireBit (ord : BitOrder) (v : Byte) (k : Fin 8) : Bool :=
  match ord with
  | .msbFirst => v.getLsbD (7 - k.val)
  | .lsbFirst => v.getLsbD k.val

/-- `rev8` (R119). -/
def rev8 (v : Byte) : Byte := v.reverse

/-- The 24 events of `shift_out(v, ord)` (R112). -/
def txEvents (cpol : Bool) (ord : BitOrder) (v : Byte) : List Event :=
  bitSlots.flatMap fun k => [.pin .dout (wireBit ord v k), .pin .sck (!cpol), .pin .sck cpol]

/-- The 24 events of a `shift_in(ord)` that receives `v` (R113). -/
def rxEvents (cpol : Bool) (ord : BitOrder) (v : Byte) : List Event :=
  bitSlots.flatMap fun k => [.pin .sck (!cpol), .sample (wireBit ord v k), .pin .sck cpol]

/-- A byte sent, with its pin check (R114). -/
def sentByte (cpol : Bool) (ord : BitOrder) (fault : Bool) (v : Byte) : List Event :=
  txEvents cpol ord v ++ [.pinCheck fault]

/-- A byte received, with its pin check (R114). -/
def receivedByte (cpol : Bool) (ord : BitOrder) (fault : Bool) (v : Byte) : List Event :=
  rxEvents cpol ord v ++ [.pinCheck fault]

/-- The write that selects `d` (R143), and what it was answered. -/
def selectWrite (c : Config) (d : Device) (ok : Bool) : Event := .expW c.expOutReg (selValue c (some d)) ok

/-- The write that deselects (R145), and what it was answered. -/
def deselectWrite (c : Config) (ok : Bool) : Event := .expW c.expOutReg (selValue c none) ok

/-- The validation write (R142), and what it was answered. -/
def scratchWrite (c : Config) (ok : Bool) : Event := .expW c.expScratchReg c.expPattern ok

/-- The bytes of a frame, all sent without a pin fault (R193). -/
def frameEvents (c : Config) (bytes : List Byte) : List Event := bytes.flatMap (sentByte c.cpol .msbFirst false)

/-- Data bytes, all received without a pin fault (R193). -/
def dataEvents (c : Config) (rx : List Byte) : List Event := rx.flatMap (receivedByte c.cpol .msbFirst false)

/-- A read sequence from device `d` at `a` that gives `rx` (R193). -/
def readEvents (c : Config) (d : Device) (a : Nat) (rx : List Byte) : List Event :=
  selectWrite c d true :: (frameEvents c (frame c d a) ++ dataEvents c rx ++ [deselectWrite c true])

/-- A dump whose chunks give the lists of `data` in turn (R200). -/
def dumpEvents (c : Config) (d : Device) (chunks : List Chunk) (data : List (List Byte)) : List Event :=
  (chunks.zip data).flatMap fun p => readEvents c d p.1.pos p.2 ++ [.present p.2]

/-- The traces of a read sequence of `n` bytes from device `d` at `a` that fails, each with the code it gives (R193,
R143, R244). Every one ends with its one deselect write. -/
inductive FailedRead (c : Config) (d : Device) (a n : Nat) : Code → List Event → Prop where
  /-- The select write failed; the fail-safe deselect follows (R143). -/
  | unselected (deselected : Bool) :
      FailedRead c d a n .selectFailure [selectWrite c d false, deselectWrite c deselected]
  /-- The frame byte after `pre` met a pin fault; the cleanup follows. -/
  | frameFault (pre : List Byte) (b : Byte) (post : List Byte) (deselected : Bool)
      (split : frame c d a = pre ++ b :: post) :
      FailedRead c d a n .transferAborted
        (selectWrite c d true :: (frameEvents c pre ++ sentByte c.cpol .msbFirst true b ++
          [deselectWrite c deselected]))
  /-- The data byte after `pre` met a pin fault; the cleanup follows. -/
  | dataFault (pre : List Byte) (b : Byte) (deselected : Bool) (short : pre.length < n) :
      FailedRead c d a n .transferAborted
        (selectWrite c d true :: (frameEvents c (frame c d a) ++
          (dataEvents c pre ++ receivedByte c.cpol .msbFirst true b) ++ [deselectWrite c deselected]))
  /-- All bytes came, and the closing deselect write failed. -/
  | unclosed (rx : List Byte) (full : rx.length = n) :
      FailedRead c d a n .selectFailure
        (selectWrite c d true :: (frameEvents c (frame c d a) ++ dataEvents c rx ++ [deselectWrite c false]))

/-- The trace of a dump that hands over the lists of `data` and answers `code`: all its chunks were read whole, or the
chunks before chunk `j` were and chunk `j`, the last to run, failed with `code` (R200, R202). -/
def DumpTrace (c : Config) (d : Device) (chunks : List Chunk) (data : List (List Byte)) (code : Code)
    (es : List Event) : Prop :=
  (code = .ok ∧ data.map List.length = chunks.map Chunk.len ∧ es = dumpEvents c d chunks data) ∨
    ∃ j k tail, chunks[j]? = some k ∧ data.map List.length = (chunks.take j).map Chunk.len ∧
      es = dumpEvents c d (chunks.take j) data ++ tail ∧ FailedRead c d k.pos k.len code tail

/-- `BUS` after a byte moved (R114). -/
def busAfterByte : BusState → BusState
  | .idle => .idle
  | .selected => .transferring
  | .transferring => .transferring

/-! ### When commands are admitted -/

/-- The engine is not halted and the handle is valid, so that the gate of R243 lets every command but `INIT` pass. -/
structure State.Ready (s : State) : Prop where
  running : s.halted = false
  valid : s.handle = .valid

/-- Ready, with no session open and no device selected (R245). -/
structure State.Free (s : State) : Prop extends State.Ready s where
  no_session : s.session = false
  bus_idle : s.bus = .idle

/-- The body commands of a session (R90, R172). -/
def isBodyCommand : Instr → Bool
  | .init => false
  | .validateConfig => false
  | .release => false
  | .writeByte _ => true
  | .readByte => true
  | .expValidate => true
  | .select _ => false
  | .deselectAll => false
  | .sessionOpen _ => false
  | .sessionClose => false
  | .read _ _ _ => false
  | .dump _ _ _ => false
  | .setBitOrder _ => true

/-- The bytes that the `Present` events of a trace hand over, in order (R203). -/
def presented (es : List Event) : List (List Byte) :=
  es.filterMap fun
    | .present bs => some bs
    | .pin _ _ => none
    | .sample _ => none
    | .expW _ _ _ => none
    | .expR _ _ => none
    | .pinCheck _ => none
    | .resp _ => none

/-- The bytes that single-byte responses return, in order (R51). -/
def returnedBytes (rs : List Response) : List Byte :=
  rs.filterMap fun r =>
    match r.payload with
    | some (.byte b) => some b
    | some (.valid _) => none
    | some (.bytes _) => none
    | none => none

/-- The payload a command may answer with, given its code (R51, R241): only `READ_BYTE`, `EXP_VALIDATE` and `READ`
return one, and only with `OK`; a `READ` returns exactly as many bytes as it was asked for. -/
def payloadFits (c : Code) (p : Option Payload) : Instr → Prop
  | .readByte => (c = .ok → ∃ b, p = some (.byte b)) ∧ (c ≠ .ok → p = none)
  | .expValidate => (c = .ok → ∃ v, p = some (.valid v)) ∧ (c ≠ .ok → p = none)
  | .read _ _ n => (c = .ok → ∃ bs, p = some (.bytes bs) ∧ bs.length = n.toNat) ∧ (c ≠ .ok → p = none)
  | .init => p = none
  | .validateConfig => p = none
  | .release => p = none
  | .writeByte _ => p = none
  | .select _ => p = none
  | .deselectAll => p = none
  | .sessionOpen _ => p = none
  | .sessionClose => p = none
  | .dump _ _ _ => p = none
  | .setBitOrder _ => p = none

/-! ### Counting events -/

/-- Whether an event is a drive of `SCK`. -/
def isSck : Event → Bool
  | .pin .sck _ => true
  | .pin .dout _ => false
  | .sample _ => false
  | .expW _ _ _ => false
  | .expR _ _ => false
  | .pinCheck _ => false
  | .present _ => false
  | .resp _ => false

/-- Whether an event is a drive of `DOUT`. -/
def isDout : Event → Bool
  | .pin .sck _ => false
  | .pin .dout _ => true
  | .sample _ => false
  | .expW _ _ _ => false
  | .expR _ _ => false
  | .pinCheck _ => false
  | .present _ => false
  | .resp _ => false

/-- Whether an event is a sample. -/
def isSample : Event → Bool
  | .pin _ _ => false
  | .sample _ => true
  | .expW _ _ _ => false
  | .expR _ _ => false
  | .pinCheck _ => false
  | .present _ => false
  | .resp _ => false

/-- Whether an event is a pin check. -/
def isPinCheck : Event → Bool
  | .pin _ _ => false
  | .sample _ => false
  | .expW _ _ _ => false
  | .expR _ _ => false
  | .pinCheck _ => true
  | .present _ => false
  | .resp _ => false

/-- Whether an event is a response. -/
def isResp : Event → Bool
  | .pin _ _ => false
  | .sample _ => false
  | .expW _ _ _ => false
  | .expR _ _ => false
  | .pinCheck _ => false
  | .present _ => false
  | .resp _ => true

/-- The events of a run other than its responses. -/
def withoutResponses (es : List Event) : List Event := es.filter fun e => !isResp e

/-- The least time a run of events takes, in the unit of `T_HALF`: each drive is held for `T_HALF` (R111, R286). -/
def leastTime (c : Config) (es : List Event) : Nat := c.tHalf * es.countP fun e => isSck e || isDout e

/-! ### The select lines -/

/-- Whether an output register value asserts device `d`'s line (R141). -/
def lineAsserted (c : Config) (v : RegValue) (d : Device) : Bool := v.getLsbD (c.desc d).selLine == !c.selActiveLow

/-- The values written to the output register along a history, in order, whatever they were answered. -/
def outWrites (c : Config) (h : List Event) : List RegValue :=
  h.filterMap fun
    | .expW a v _ => if a = c.expOutReg then some v else none
    | .pin _ _ => none
    | .sample _ => none
    | .expR _ _ => none
    | .pinCheck _ => none
    | .present _ => none
    | .resp _ => none

/-- R146: every value ever written to the output register is `sel_value(t)` for one `t`. -/
def State.OutWritesAreSelections (s : State) : Prop :=
  ∀ v ∈ outWrites s.cfg.toConfig s.history, ∃ t, v = selValue s.cfg.toConfig t

/-- R174: no selecting write follows another with no deselecting write between them; and with `BUS` Idle, the last
write, if there is one, deselects. -/
def State.SelectionsAreClosed (s : State) : Prop :=
  (outWrites s.cfg.toConfig s.history).IsChain
      (fun v w => v = selValue s.cfg.toConfig none ∨ w = selValue s.cfg.toConfig none) ∧
    (s.bus = .idle → ∀ v ∈ (outWrites s.cfg.toConfig s.history).getLast?, v = selValue s.cfg.toConfig none)

/-! ### The invariant between commands -/

/-- What holds between commands: R44 in a state that is not halted, what R247 says of a halted state, and that the
hidden state of R45 is idle. -/
structure State.Steady (s : State) : Prop where
  /-- R44 (3). -/
  bitcnt_zero : s.bitcnt = 0
  /-- R44 (3), R32. -/
  clock_idle : s.sck = s.cfg.cpol
  /-- R44 (1). -/
  idle_iff : s.bus = .idle ↔ s.seldev = none
  /-- R44 (2). -/
  session_selected : s.session = true → s.bus ≠ .idle
  /-- R44 (4). -/
  shadow_is_selection : ∀ v ∈ s.outShadow, v = selValue s.cfg.toConfig s.seldev
  /-- R44 (5), for a state that is not halted. -/
  selected_valid : s.bus ≠ .idle → s.handle = .valid
  /-- R247. -/
  halted_unknown : s.halted = true → s.bus = .idle ∧ s.session = false ∧ s.seldev = none ∧ s.outShadow = none
  /-- R45. -/
  no_frame : s.phase = .idle ∧ s.rxbuf = [] ∧ s.dumpPos = none

end Sys2Proof.Machine
end

