-- ==== Sys2Proof/Certificates/Slice0/Obligations.lean ====
section
/-!
DEFINITION. The statements for the provers, in the terms of Safety.lean. A trace in a premise (`s.answers es`) says what
the target, the expander and the pins answer; a conclusion `exec i s = .next t` with `t` written out says what the
command does and, since `t` is `s` with the fields that change, what it leaves as it was.
-/

open Sys2Proof Sys2Proof.Machine

/-! ### Encoding and the command port -/

/-- The decoder reads back every command from its encoding, whatever words follow (R81 to R85). -/
def Obligations.DecodeEncodeRoundTrip : Prop :=
  ∀ (i : Instr) (rest : List Word), decode (encode i ++ rest) = .command i rest

/-- R88, which the spec derives from R81 to R87: a header decodes to one command only, so the words that decode to a
command are that command's encoding. -/
def Obligations.DecodedWordsAreTheEncoding : Prop :=
  ∀ (ws : List Word) (i : Instr) (rest : List Word), decode ws = .command i rest → ws = encode i ++ rest

/-- R92, which the spec derives from R81 to R86: the worked encodings. -/
def Obligations.WorkedEncodings : Prop :=
  decode [0x10000000#32] = .command .init [] ∧
  decode [0x40000003#32] = .command (.writeByte 0x03#8) [] ∧
  decode [0x78000000#32] = .command (.select .eeprom) [] ∧
  decode [0x94000000#32] = .command (.sessionOpen .flash) [] ∧
  decode [0xD0000100#32] = .command (.setBitOrder .lsbFirst) [] ∧
  decode [0xB8000000#32, 0x00000000#32, 0x00000004#32] = .command (.read .eeprom 0#32 4#32) [] ∧
  decode [0xC4000000#32, 0x00000010#32, 0x00000005#32] = .command (.dump .flash 0x10#32 5#32) [] ∧
  decode [0x40000103#32] = .illegal .strayBitOrder [] ∧
  decode [0x7C000000#32] = .illegal .badDevice []

/-- R84: the number of words a command takes is told from `H[31:28]` alone, and the two extension words of a
three-word command are its address and its length; they are taken even when the header is illegal. (That a three-word
header with fewer than two words after it is read as waiting is the model's choice, notes/assumptions/6.md.) -/
def Obligations.CommandLengthFollowsOpcode : Prop :=
  ∀ (h : Word) (rest : List Word),
    ((h.toNat / 2 ^ 28 = 0xB ∨ h.toNat / 2 ^ 28 = 0xC) →
      (rest.length < 2 → decode (h :: rest) = .waiting) ∧
      ∀ w1 w2 rest', rest = w1 :: w2 :: rest' →
        (∃ why, decode (h :: rest) = .illegal why rest') ∨
        (∃ d, decode (h :: rest) = .command (.read d w1 w2) rest') ∨
        ∃ d, decode (h :: rest) = .command (.dump d w1 w2) rest') ∧
    (¬ (h.toNat / 2 ^ 28 = 0xB ∨ h.toNat / 2 ^ 28 = 0xC) →
      (∃ why, decode (h :: rest) = .illegal why rest) ∨ ∃ i, decode (h :: rest) = .command i rest)

/-- R86, R87: the five checks on the fields of a header say which headers are legal; an illegal one is answered
`IllegalCommand`, with no other event and no other change, in every state. -/
def Obligations.IllegalHeaderExactlyOnFieldChecks : Prop :=
  ∀ (s : State) (h : Word) (rest : List Word) (op dev rsv m imm extra : Nat),
    s.resetInput = .none → s.port = h :: rest →
    op = h.toNat / 2 ^ 28 → dev = h.toNat / 2 ^ 26 % 4 → rsv = h.toNat / 2 ^ 9 % 2 ^ 17 →
    m = h.toNat / 2 ^ 8 % 2 → imm = h.toNat % 2 ^ 8 →
    extra = (if op = 0xB ∨ op = 0xC then 2 else 0) → extra ≤ rest.length →
    if (op ≠ 0x0 ∧ op ≠ 0xE ∧ op ≠ 0xF) ∧ rsv = 0 ∧ (m = 0 ∨ op = 0xD) ∧ (imm = 0 ∨ op = 0x4) ∧
        (if op = 0x7 ∨ op = 0x9 ∨ op = 0xB ∨ op = 0xC then dev = 1 ∨ dev = 2 else dev = 0)
    then ∃ i, decode s.port = .command i (rest.drop extra) ∧ step s = exec i { s with port := rest.drop extra }
    else step s = .next (State.respond { s with port := rest.drop extra } .illegalCommand none)

/-- One step runs the command that the words at the head of the port decode to, with those words taken; with no whole
command there, the engine waits (that a waiting engine is a step to the same state is the model's choice,
notes/assumptions/6.md). -/
def Obligations.StepRunsTheDecodedCommand : Prop :=
  ∀ (s : State), s.resetInput = .none →
    (∀ i rest, decode s.port = .command i rest → step s = exec i { s with port := rest }) ∧
    (decode s.port = .waiting → step s = .next s)

/-- A command that the opcode table numbers `w` and that the decoder accepts is what the next step runs once the host
offers it, and it takes exactly its own words. (The offer of a command by `withFetchWord` is the model's choice,
notes/assumptions/4.md, and so is the numbering of the bits of a three-word command, notes/assumptions/12.md; R80, R83
and R84 say only which words a command has.) -/
def Obligations.OfferedCommandRunsNext : Prop :=
  ∀ (s : State) (nbits w : Nat) (i : Instr), decodeTableWord nbits w = some i →
    step (s.withFetchWord nbits w) = exec i { s with resetInput := .none }

/-! ### Reset -/

/-- R52, R270: the reset record, for every configuration. R52 leaves `SR` unspecified, and so does this statement.
After reset the engine waits for the first command. (That a waiting engine is a step to the same state is the model's
choice, notes/assumptions/6.md; that `State.reset` stands on some admitted configuration is too,
notes/assumptions/1.md.) -/
def Obligations.ResetRecord : Prop :=
  (∀ cfg : AdmittedConfig,
    (State.resetWith cfg).cfg = cfg ∧
    (State.resetWith cfg).sck = cfg.cpol ∧ (State.resetWith cfg).dout = false ∧
    (State.resetWith cfg).bitcnt = 0 ∧ (State.resetWith cfg).order = .msbFirst ∧
    (State.resetWith cfg).bus = .idle ∧ (State.resetWith cfg).seldev = none ∧
    (State.resetWith cfg).session = false ∧ (State.resetWith cfg).handle = .none ∧
    (State.resetWith cfg).halted = false ∧ (State.resetWith cfg).outShadow = none ∧
    (State.resetWith cfg).history = [] ∧
    step (State.resetWith cfg) = .next (State.resetWith cfg)) ∧
  ∃ cfg : AdmittedConfig, State.reset = State.resetWith cfg

/-- R270, R272: a reset from outside puts every field of the record to its reset value and empties the history, and a
command in whose middle it comes, legal, illegal or incomplete, is abandoned with no response. `SR`, which R52 leaves
unspecified, is left open. (Model's choices: the abandoned command's words are gone, the oracles' scripts stay and the
reset input is cleared, notes/assumptions/5.md; the values of the hidden frame state, notes/assumptions/7.md; the
record of responses starts empty, notes/assumptions/9.md.) -/
def Obligations.ResetFromOutside : Prop :=
  ∀ s : State,
    (s.resetInput = .betweenCommands → ∃ sr,
      step s = .next { State.resetWith s.cfg with
        sr := sr, port := s.port, samples := s.samples, expAcks := s.expAcks, expReads := s.expReads,
        pinFaults := s.pinFaults }) ∧
    (s.resetInput = .midCommand → ∀ rest,
      (∃ i, decode s.port = .command i rest) ∨ (∃ why, decode s.port = .illegal why rest) ∨
        (decode s.port = .waiting ∧ rest = []) →
      ∃ sr, step s = .next { State.resetWith s.cfg with
        sr := sr, port := rest, samples := s.samples, expAcks := s.expAcks, expReads := s.expReads,
        pinFaults := s.pinFaults })

/-! ### Responses and the status word -/

/-- R50: every field of the status word of a response, and its reserved bits. -/
def Obligations.StatusWordFields : Prop :=
  ∀ (s : State) (c : Code) (p : Option Payload), ∃ w : Word,
    (s.respond c p).responses = s.responses ++ [{ status := w, payload := p }] ∧
    w.toNat % 2 ^ 4 =
      (match c with
        | .ok => 0 | .expanderNotPresent => 1 | .busConflict => 2 | .selectFailure => 3
        | .transferAborted => 4 | .usageError => 5 | .illegalCommand => 6 | .engineHalted => 7) ∧
    w.toNat / 2 ^ 4 % 4 =
      (match (s.respond c p).bus with | .idle => 0 | .selected => 1 | .transferring => 2) ∧
    w.toNat / 2 ^ 6 % 4 =
      (match (s.respond c p).seldev with | none => 0 | some .flash => 1 | some .eeprom => 2) ∧
    w.toNat / 2 ^ 8 % 4 =
      (match (s.respond c p).handle with | .none => 0 | .valid => 1 | .notPresent => 2 | .released => 3) ∧
    w.toNat / 2 ^ 10 % 2 = (if (s.respond c p).session = true then 1 else 0) ∧
    w.toNat / 2 ^ 11 % 2 = (match (s.respond c p).order with | .msbFirst => 0 | .lsbFirst => 1) ∧
    w.toNat / 2 ^ 12 % 2 = (if (s.respond c p).halted = true then 1 else 0) ∧
    w.toNat / 2 ^ 13 = 0

/-- R80, R51, R241: every command answers with exactly one response, as its last event, whose status word shows the
state it leaves; only `READ_BYTE`, `EXP_VALIDATE` and `READ` return a payload, and only with `OK`. -/
def Obligations.OneResponsePerCommand : Prop :=
  ∀ (i : Instr) (s : State), ∃ t es c p, exec i s = .next t ∧
    t.history = s.history ++ es ++ [.resp c] ∧ (∀ e ∈ es, isResp e = false) ∧
    t.responses = s.responses ++ [{ status := statusWord c t, payload := p }] ∧ payloadFits c p i

/-- R14, R15: every draw that a command records is what its oracle answers at that point of the history, and the
history is never rewritten: a command only adds to it. -/
def Obligations.RecordedDrawsAreTheOraclesAnswers : Prop :=
  ∀ (i : Instr) (s : State), ∃ t es, exec i s = .next t ∧ s.answers es = true ∧
    t.history = s.history ++ es ∧ t.samples = (s.noteAll es).samples ∧ t.expAcks = (s.noteAll es).expAcks ∧
    t.expReads = (s.noteAll es).expReads ∧ t.pinFaults = (s.noteAll es).pinFaults

/-! ### The gate and the order of checks -/

/-- R243: the handle gate. Each rejection is a response and nothing else. -/
def Obligations.GateRejections : Prop :=
  ∀ s : State,
    (s.halted = true → ∀ i, exec i s = .next (s.respond .engineHalted none)) ∧
    (s.halted = false →
      (s.handle = .valid ∨ s.handle = .notPresent → exec .init s = .next (s.respond .usageError none)) ∧
      (s.handle = .none ∨ s.handle = .released → exec .release s = .next (s.respond .usageError none)) ∧
      ∀ i, i ≠ .init → i ≠ .release → (∀ o, i ≠ .setBitOrder o) →
        (s.handle = .none ∨ s.handle = .released → exec i s = .next (s.respond .usageError none)) ∧
        (s.handle = .notPresent → exec i s = .next (s.respond .expanderNotPresent none)))

/-- R245, the spec's summary of the command rules: the conditions on session and bus, each with its
response and no I/O. `INIT`, the table's other row, is rejected by the gate whenever a session could be open. -/
def Obligations.SessionAndBusRejections : Prop :=
  ∀ s : State, s.Ready →
    (s.session = true ∨ s.bus ≠ .idle →
      (∀ d, exec (.select d) s = .next (s.respond .busConflict none)) ∧
      (∀ d, exec (.sessionOpen d) s = .next (s.respond .busConflict none)) ∧
      (∀ d a n, exec (.read d a n) s = .next (s.respond .busConflict none)) ∧
      (∀ d a n, exec (.dump d a n) s = .next (s.respond .busConflict none)) ∧
      exec .validateConfig s = .next (s.respond .usageError none)) ∧
    (s.session = true →
      exec .deselectAll s = .next (s.respond .usageError none) ∧
      exec .release s = .next (s.respond .usageError none)) ∧
    (s.session = false → exec .sessionClose s = .next (s.respond .usageError none)) ∧
    exec .init s = .next (s.respond .usageError none)

/-- R192, and the range check of R200: an argument out of range is rejected before any I/O. -/
def Obligations.ArgumentRejections : Prop :=
  ∀ (s : State) (d : Device) (a n : Word), s.Free →
    (2 ^ (8 * (s.cfg.desc d).addrBytes) ≤ a.toNat ∨ s.cfg.maxLen < n.toNat →
      exec (.read d a n) s = .next (s.respond .usageError none)) ∧
    (2 ^ (8 * (s.cfg.desc d).addrBytes) ≤ a.toNat ∨ 2 ^ (8 * (s.cfg.desc d).addrBytes) < a.toNat + n.toNat →
      exec (.dump d a n) s = .next (s.respond .usageError none))

/-- R242: a command that is rejected by a check (`BusConflict`, `UsageError`, `EngineHalted`, or `ExpanderNotPresent`
by the gate) records its response and changes nothing else: no pin event, no sample, no expander access. -/
def Obligations.RejectedCommandsDoNothing : Prop :=
  ∀ (i : Instr) (s t : State) (c : Code), exec i s = .next t → t.lastCode = some c →
    (c = .busConflict ∨ c = .usageError ∨ c = .engineHalted ∨
      (c = .expanderNotPresent ∧ s.handle = .notPresent)) →
    t = s.respond c none

/-- R271, which the spec derives from R243: after reset, before `INIT`, every command except `INIT` and
`SET_BIT_ORDER` responds `UsageError` with no I/O. -/
def Obligations.BeforeInitOnlyInitAndBitOrder : Prop :=
  ∀ (cfg : AdmittedConfig) (i : Instr), i ≠ .init → (∀ o, i ≠ .setBitOrder o) →
    exec i (State.resetWith cfg) = .next ((State.resetWith cfg).respond .usageError none)

/-! ### The bit engine -/

/-- R116, R112: `WRITE_BYTE` sends its byte bit by bit in the current order, checks the pins once, and answers `OK`. -/
def Obligations.WriteByteCompletes : Prop :=
  ∀ (v : Byte) (s : State), s.Ready → s.answers (sentByte s.cfg.cpol s.order false v) = true →
    exec (.writeByte v) s = .next (State.respond
      { s.noteAll (sentByte s.cfg.cpol s.order false v) with
        sr := 0x00#8
        dout := if s.order = .msbFirst then v.getLsbD 0 else v.getLsbD 7
        sck := s.cfg.cpol, bitcnt := 0
        bus := if s.bus = .selected then .transferring else s.bus }
      .ok none)

/-- R117, R113: `READ_BYTE` receives a byte bit by bit in the current order, leaves `DOUT` alone, checks the pins once,
and answers `OK` with the byte, which `SR` holds. -/
def Obligations.ReadByteCompletes : Prop :=
  ∀ (v : Byte) (s : State), s.Ready → s.answers (receivedByte s.cfg.cpol s.order false v) = true →
    exec .readByte s = .next (State.respond
      { s.noteAll (receivedByte s.cfg.cpol s.order false v) with
        sr := v, sck := s.cfg.cpol, bitcnt := 0
        bus := if s.bus = .selected then .transferring else s.bus }
      .ok (some (.byte v)))

/-- R244: a raw byte that fails is answered `TransferAborted` after all its bits. In a session the engine deselects
once and closes the session, and halts if that write fails; outside one it leaves the selection as it is. -/
def Obligations.RawByteAborts : Prop :=
  ∀ (v : Byte) (s : State) (deselected : Bool), s.Ready →
    (s.session = true →
      (s.answers (sentByte s.cfg.cpol s.order true v ++ [deselectWrite s.cfg.toConfig deselected]) = true →
        exec (.writeByte v) s = .next (State.respond
          { s.noteAll (sentByte s.cfg.cpol s.order true v ++ [deselectWrite s.cfg.toConfig deselected]) with
            sr := 0x00#8, dout := wireBit s.order v 7, sck := s.cfg.cpol, bitcnt := 0
            session := false, bus := .idle, seldev := none, halted := !deselected
            outShadow := if deselected = true then some (selValue s.cfg.toConfig none) else none }
          .transferAborted none)) ∧
      (s.answers (receivedByte s.cfg.cpol s.order true v ++ [deselectWrite s.cfg.toConfig deselected]) = true →
        exec .readByte s = .next (State.respond
          { s.noteAll (receivedByte s.cfg.cpol s.order true v ++ [deselectWrite s.cfg.toConfig deselected]) with
            sr := v, sck := s.cfg.cpol, bitcnt := 0
            session := false, bus := .idle, seldev := none, halted := !deselected
            outShadow := if deselected = true then some (selValue s.cfg.toConfig none) else none }
          .transferAborted none))) ∧
    (s.session = false →
      (s.answers (sentByte s.cfg.cpol s.order true v) = true →
        exec (.writeByte v) s = .next (State.respond
          { s.noteAll (sentByte s.cfg.cpol s.order true v) with
            sr := 0x00#8, dout := wireBit s.order v 7, sck := s.cfg.cpol, bitcnt := 0, bus := busAfterByte s.bus }
          .transferAborted none)) ∧
      (s.answers (receivedByte s.cfg.cpol s.order true v) = true →
        exec .readByte s = .next (State.respond
          { s.noteAll (receivedByte s.cfg.cpol s.order true v) with
            sr := v, sck := s.cfg.cpol, bitcnt := 0, bus := busAfterByte s.bus }
          .transferAborted none)))

/-- R121: `SET_BIT_ORDER` in every state that is not halted, whatever the handle, the bus and the session. -/
def Obligations.SetBitOrderCompletes : Prop :=
  ∀ (o : BitOrder) (s : State),
    (s.halted = false → exec (.setBitOrder o) s = .next (State.respond { s with order := o } .ok none)) ∧
    (s.halted = true → exec (.setBitOrder o) s = .next (s.respond .engineHalted none))

/-- R119, which the spec derives from R112 and R113: what goes out in one order comes back in the same order; sending
LSB-first is sending the reversed byte MSB-first; a byte is eight bits. -/
def Obligations.ShiftRegisterLaws : Prop :=
  (∀ (ord : BitOrder) (v : Byte) (s : State) (later : List Bool),
    s.samples = bitSlots.map (wireBit ord v) ++ later → (shiftIn ord s).sr = v ∧ (shiftIn ord s).samples = later) ∧
  (∀ (ord : BitOrder) (v : Byte) (s : State), ∃ es, (shiftOut v ord s).history = s.history ++ es ∧
    (es.filterMap fun
      | .pin .dout b => some b
      | _ => none) = bitSlots.map (wireBit ord v)) ∧
  (∀ v : Byte, bitSlots.map (wireBit .lsbFirst v) = bitSlots.map (wireBit .msbFirst (rev8 v))) ∧
  ∀ (ord : BitOrder) (v : Byte), (bitSlots.map (wireBit ord v)).length = 8

/-- R115, whose last sentence the spec derives from R112 to R114: the events that a byte records depend on the byte or
the samples, on the order and on `CPOL`, not on the selection, the session or the handle, which the shift leaves as
they were. -/
def Obligations.BitEngineIgnoresSelection : Prop :=
  ∀ (ord : BitOrder) (v : Byte) (s t : State), s.cfg.cpol = t.cfg.cpol →
    (∃ es, (shiftOut v ord s).history = s.history ++ es ∧ (shiftOut v ord t).history = t.history ++ es) ∧
    (∀ k, k = bitSlots.map (wireBit ord v) → k <+: s.samples → k <+: t.samples →
      (shiftIn ord s).sr = (shiftIn ord t).sr ∧
      ∃ es, (shiftIn ord s).history = s.history ++ es ∧ (shiftIn ord t).history = t.history ++ es) ∧
    (shiftOut v ord s).bus = s.bus ∧ (shiftIn ord s).bus = s.bus ∧
    (shiftOut v ord s).seldev = s.seldev ∧ (shiftIn ord s).seldev = s.seldev ∧
    (shiftOut v ord s).session = s.session ∧ (shiftIn ord s).session = s.session ∧
    (shiftOut v ord s).handle = s.handle ∧ (shiftIn ord s).handle = s.handle

/-! ### The expander adapter -/

/-- R141: `sel_value(t)` puts each select line at the assert level exactly when its device is `t`, and every other bit
at its level in `OUT_BASE`. -/
def Obligations.SelValueAssertsExactlyTheSelected : Prop :=
  ∀ (c : AdmittedConfig) (t : Option Device),
    (∀ d, (selValue c.toConfig t).getLsbD (c.desc d).selLine =
      if t = some d then !c.selActiveLow else c.selActiveLow) ∧
    ∀ j, (∀ d, j ≠ (c.desc d).selLine) → (selValue c.toConfig t).getLsbD j = c.outBase.getLsbD j

/-- R140, R142: `EXP_VALIDATE` writes the pattern, reads it back if the write succeeds, and answers `OK` with the
result; the engine's own state does not change. -/
def Obligations.ExpValidateCompletes : Prop :=
  ∀ s : State, s.Ready →
    (s.answers [scratchWrite s.cfg.toConfig false] = true →
      exec .expValidate s = .next (State.respond (s.noteAll [scratchWrite s.cfg.toConfig false])
        .ok (some (.valid false)))) ∧
    ∀ r, s.answers [scratchWrite s.cfg.toConfig true, .expR s.cfg.expScratchReg r] = true →
      exec .expValidate s = .next (State.respond
        (s.noteAll [scratchWrite s.cfg.toConfig true, .expR s.cfg.expScratchReg r])
        .ok (some (.valid (decide (r = some s.cfg.expPattern)))))

/-- R144, R143: `SELECT` asserts one select line by one write of the output register. -/
def Obligations.SelectCompletes : Prop :=
  ∀ (d : Device) (s : State), s.Free → s.answers [selectWrite s.cfg.toConfig d true] = true →
    exec (.select d) s = .next (State.respond
      { s.noteAll [selectWrite s.cfg.toConfig d true] with
        outShadow := some (selValue s.cfg.toConfig (some d)), seldev := some d, bus := .selected }
      .ok none)

/-- R143: a failed select write is followed by one fail-safe deselect and answered `SelectFailure`; a session is not
opened, and the engine halts if the deselect fails too. -/
def Obligations.FailedSelectIsUndone : Prop :=
  ∀ (d : Device) (s : State) (deselected : Bool), s.Free →
    s.answers [selectWrite s.cfg.toConfig d false, deselectWrite s.cfg.toConfig deselected] = true →
    ∀ i, (i = .select d ∨ i = .sessionOpen d) →
      exec i s = .next (State.respond
        { s.noteAll [selectWrite s.cfg.toConfig d false, deselectWrite s.cfg.toConfig deselected] with
          outShadow := if deselected = true then some (selValue s.cfg.toConfig none) else none
          seldev := none, bus := .idle, halted := !deselected }
        .selectFailure none)

/-- R147, R145: `DESELECT_ALL` outside a session writes the deselect value and goes back to Idle, whatever the bus
state; a failed write is `SelectFailure` and halts. -/
def Obligations.DeselectAllCompletes : Prop :=
  ∀ (s : State) (deselected : Bool), s.Ready → s.session = false →
    s.answers [deselectWrite s.cfg.toConfig deselected] = true →
    exec .deselectAll s = .next (State.respond
      { s.noteAll [deselectWrite s.cfg.toConfig deselected] with
        outShadow := if deselected = true then some (selValue s.cfg.toConfig none) else none
        seldev := none, bus := .idle, halted := !deselected }
      (if deselected = true then .ok else .selectFailure) none)

/-! ### Sessions -/

/-- R170: `SESSION_OPEN` selects the device and opens the session. -/
def Obligations.SessionOpenCompletes : Prop :=
  ∀ (d : Device) (s : State), s.Free → s.answers [selectWrite s.cfg.toConfig d true] = true →
    exec (.sessionOpen d) s = .next (State.respond
      { s.noteAll [selectWrite s.cfg.toConfig d true] with
        outShadow := some (selValue s.cfg.toConfig (some d)), seldev := some d, bus := .selected, session := true }
      .ok none)

/-- R173: `SESSION_CLOSE` ends the session with one deselect write; a failed write is `SelectFailure` and halts. -/
def Obligations.SessionCloseCompletes : Prop :=
  ∀ (s : State) (deselected : Bool), s.Ready → s.session = true →
    s.answers [deselectWrite s.cfg.toConfig deselected] = true →
    exec .sessionClose s = .next (State.respond
      { s.noteAll [deselectWrite s.cfg.toConfig deselected] with
        session := false
        outShadow := if deselected = true then some (selValue s.cfg.toConfig none) else none
        seldev := none, bus := .idle, halted := !deselected }
      (if deselected = true then .ok else .selectFailure) none)

/-- R90, and R174, which the spec derives: a session that the host runs as `WITH_DEVICE`, with any body commands and
whatever the outside answers, makes one select write and one deselect write and no other write of the output register,
and leaves no session open and nothing selected. (`WITH_DEVICE` as a function over `exec` that reads the last code from
the history is the model's reading of R90, notes/assumptions/14.md.) -/
def Obligations.WithDeviceDeselectsExactlyOnce : Prop :=
  ∀ (d : Device) (body : List Instr) (s : State), s.Free → (∀ i ∈ body, isBodyCommand i = true) →
    ∃ t es, withDevice d body s = .next t ∧ t.history = s.history ++ es ∧
      outWrites s.cfg.toConfig es = [selValue s.cfg.toConfig (some d), selValue s.cfg.toConfig none] ∧
      t.session = false ∧ t.bus = .idle ∧ t.seldev = none

/-! ### Reads and dumps -/

/-- R191, R61: the frame is the opcode and then the address, most significant byte first. -/
def Obligations.FrameIsOpcodeThenBigEndianAddress : Prop :=
  ∀ (c : AdmittedConfig) (d : Device) (a : Nat), a < 2 ^ (8 * (c.desc d).addrBytes) →
    ∃ bytes, frame c.toConfig d a = (c.desc d).readOpcode :: bytes ∧ bytes.length = (c.desc d).addrBytes ∧
      bytes.foldl (fun acc b => acc * 256 + b.toNat) 0 = a ∧
      ∀ k, k < (c.desc d).addrBytes → bytes[(c.desc d).addrBytes - 1 - k]? = some (BitVec.ofNat 8 (a / 2 ^ (8 * k)))

/-- R190, R193, R194: a `READ` whose byte transfers and writes all succeed selects, sends the frame, receives exactly
`length` bytes MSB-first whatever `ORDER` is, deselects, and answers `OK` with the bytes in the order received. (The
values that the hidden state has between commands are the model's choice, notes/assumptions/7.md.) -/
def Obligations.ReadCompletes : Prop :=
  ∀ (d : Device) (a n : Word) (rx : List Byte) (s : State), s.Free →
    a.toNat < 2 ^ (8 * (s.cfg.desc d).addrBytes) → n.toNat ≤ s.cfg.maxLen → rx.length = n.toNat →
    s.answers (readEvents s.cfg.toConfig d a.toNat rx) = true →
    exec (.read d a n) s = .next (State.respond
      { s.noteAll (readEvents s.cfg.toConfig d a.toNat rx) with
        sr := rx.getLast?.getD 0x00#8, dout := a.getLsbD 0, sck := s.cfg.cpol, bitcnt := 0
        bus := .idle, seldev := none, outShadow := some (selValue s.cfg.toConfig none)
        phase := .idle, rxbuf := [] }
      .ok (some (.bytes rx)))

/-- R195, R246: a `READ` returns all its bytes or none: with any code but `OK` the response has no payload, and with
`OK` it has exactly `length` bytes. -/
def Obligations.ReadReturnsAllOrNothing : Prop :=
  ∀ (d : Device) (a n : Word) (s : State), ∃ t c r, exec (.read d a n) s = .next t ∧
    t.lastCode = some c ∧ t.responses = s.responses ++ [r] ∧
    (c ≠ .ok → r.payload = none) ∧
    (c = .ok → ∃ rx, r.payload = some (.bytes rx) ∧ rx.length = n.toNat)

/-- R193, R244: a pin fault in the frame or in the data ends the `READ` with one deselect and `TransferAborted`; bytes
already received are not returned. -/
def Obligations.FaultyReadCleansUp : Prop :=
  ∀ (d : Device) (a n : Word) (s : State) (deselected : Bool), s.Free →
    a.toNat < 2 ^ (8 * (s.cfg.desc d).addrBytes) → n.toNat ≤ s.cfg.maxLen →
    (∀ pre b post es, frame s.cfg.toConfig d a.toNat = pre ++ b :: post →
      es = selectWrite s.cfg.toConfig d true :: (frameEvents s.cfg.toConfig pre ++
        sentByte s.cfg.cpol .msbFirst true b ++ [deselectWrite s.cfg.toConfig deselected]) →
      s.answers es = true →
      ∃ t, exec (.read d a n) s = .next t ∧ t.history = s.history ++ es ++ [.resp .transferAborted] ∧
        t.responses = s.responses ++ [{ status := statusWord .transferAborted t, payload := none }] ∧
        t.bus = .idle ∧ t.seldev = none ∧ t.session = false ∧ t.halted = !deselected) ∧
    (∀ pre b es, pre.length < n.toNat →
      es = selectWrite s.cfg.toConfig d true :: (frameEvents s.cfg.toConfig (frame s.cfg.toConfig d a.toNat) ++
        dataEvents s.cfg.toConfig pre ++ receivedByte s.cfg.cpol .msbFirst true b ++
        [deselectWrite s.cfg.toConfig deselected]) →
      s.answers es = true →
      ∃ t, exec (.read d a n) s = .next t ∧ t.history = s.history ++ es ++ [.resp .transferAborted] ∧
        t.responses = s.responses ++ [{ status := statusWord .transferAborted t, payload := none }] ∧
        t.bus = .idle ∧ t.seldev = none ∧ t.session = false ∧ t.halted = !deselected)

/-- R193, R195, R149: every `READ` that passes its checks either receives all its bytes and answers `OK` with them, or
ends in one of the failures of `FailedRead` and answers that failure's code and no bytes. In each the bus is Idle and
nothing selected, and the engine halts exactly when the one deselect write failed. -/
def Obligations.ReadAnswersAsItsTraceSays : Prop :=
  ∀ (d : Device) (a n : Word) (s : State), s.Free →
    a.toNat < 2 ^ (8 * (s.cfg.desc d).addrBytes) → n.toNat ≤ s.cfg.maxLen →
    ∃ t es c p, exec (.read d a n) s = .next t ∧ t.history = s.history ++ es ++ [.resp c] ∧
      t.responses = s.responses ++ [{ status := statusWord c t, payload := p }] ∧
      ((c = .ok ∧ ∃ rx, rx.length = n.toNat ∧ es = readEvents s.cfg.toConfig d a.toNat rx ∧ p = some (.bytes rx)) ∨
        (FailedRead s.cfg.toConfig d a.toNat n.toNat c es ∧ p = none)) ∧
      t.bus = .idle ∧ t.seldev = none ∧ t.session = false ∧
      t.halted = decide (deselectWrite s.cfg.toConfig false ∈ es) ∧
      t.outShadow = if t.halted = true then none else some (selValue s.cfg.toConfig none)

/-- R196, which the spec derives from R191, R193 and R112: the events of a `READ` that responds `OK`, counted. -/
def Obligations.ReadEventCounts : Prop :=
  ∀ (d : Device) (a n : Word) (s t : State) (A : Nat), exec (.read d a n) s = .next t → t.lastCode = some .ok →
    A = (s.cfg.desc d).addrBytes →
    ∃ es, t.history = s.history ++ es ∧
      es.countP isSck = 16 * (1 + A + n.toNat) ∧ es.countP isDout = 8 * (1 + A) ∧
      es.countP isSample = 8 * n.toNat ∧ es.countP isPinCheck = 1 + A + n.toNat

/-- R91, which the spec derives from R190, R90, R116, R117, R170 and R173: given the same answers from outside, `READ`
records the same pin, sample, pin-check and expander events as the raw frame the host sends as a session, stops where
it stops, and leaves the same registers; where it responds `OK` its bytes are those that the raw frame returns one by
one, and the raw frame has `n + A + 3` responses. (The raw frame as a function over `exec` is the model's reading of
R90 and R91, notes/assumptions/14.md; that the same answers are scripts long enough for both is how the model says it,
notes/assumptions/2.md.) -/
def Obligations.ReadEqualsRawFrame : Prop :=
  ∀ (d : Device) (a n : Word) (s : State), s.Free → s.order = .msbFirst →
    a.toNat < 2 ^ (8 * (s.cfg.desc d).addrBytes) → n.toNat ≤ s.cfg.maxLen →
    8 * n.toNat ≤ s.samples.length → 2 ≤ s.expAcks.length →
    1 + (s.cfg.desc d).addrBytes + n.toNat ≤ s.pinFaults.length →
    ∃ t u es fs, exec (.read d a n) s = .next t ∧ rawRead d a.toNat n.toNat s = .next u ∧
      t.history = s.history ++ es ∧ u.history = s.history ++ fs ∧
      withoutResponses es = withoutResponses fs ∧
      t.sck = u.sck ∧ t.dout = u.dout ∧ t.sr = u.sr ∧ t.bitcnt = u.bitcnt ∧ t.order = u.order ∧
      t.bus = u.bus ∧ t.seldev = u.seldev ∧ t.session = u.session ∧ t.handle = u.handle ∧
      t.halted = u.halted ∧ t.outShadow = u.outShadow ∧ t.samples = u.samples ∧
      t.expAcks = u.expAcks ∧ t.pinFaults = u.pinFaults ∧ t.lastCode = u.lastCode ∧
      (t.lastCode = some .ok →
        es.countP isResp = 1 ∧ fs.countP isResp = n.toNat + (s.cfg.desc d).addrBytes + 3 ∧
        ∃ rx r, t.responses = s.responses ++ [r] ∧ r.payload = some (.bytes rx) ∧
          returnedBytes (u.responses.drop s.responses.length) = rx)

/-- R201, which the spec derives from R200: chunk `j` starts at `a + j*C` and has `min(C, L - j*C)` bytes; the chunks
cover `[a, a+L)` in ascending order with no gap and no overlap, and none is empty. -/
def Obligations.DumpChunksCoverTheRange : Prop :=
  ∀ (c : AdmittedConfig) (a len C : Nat), C = (if c.maxBurst = 0 then len else c.maxBurst) →
    (∀ j k, (dumpChunks c.toConfig a len)[j]? = some k →
      k.pos = a + j * C ∧ k.len = min C (len - j * C) ∧ 0 < k.len) ∧
    ((dumpChunks c.toConfig a len).flatMap fun k => List.range' k.pos k.len) = List.range' a len

/-- R200: a `DUMP` of at least one byte whose chunks all succeed makes one read sequence for each chunk, hands each
chunk's bytes over in turn, and answers `OK` without a payload. `MAX_LEN` does not apply. (The values that the
hidden state has between commands are the model's choice, notes/assumptions/7.md.) -/
def Obligations.DumpCompletes : Prop :=
  ∀ (d : Device) (a len : Word) (data : List (List Byte)) (s : State) (chunks : List Chunk) (last : Chunk),
    s.Free → 0 < len.toNat →
    a.toNat + len.toNat ≤ 2 ^ (8 * (s.cfg.desc d).addrBytes) →
    chunks = dumpChunks s.cfg.toConfig a.toNat len.toNat → chunks.getLast? = some last →
    data.map List.length = chunks.map Chunk.len →
    s.answers (dumpEvents s.cfg.toConfig d chunks data) = true →
    exec (.dump d a len) s = .next (State.respond
      { s.noteAll (dumpEvents s.cfg.toConfig d chunks data) with
        sr := data.flatten.getLast?.getD 0x00#8, dout := last.pos.testBit 0, sck := s.cfg.cpol, bitcnt := 0
        bus := .idle, seldev := none, outShadow := some (selValue s.cfg.toConfig none)
        phase := .idle, rxbuf := [], dumpPos := none }
      .ok none)

/-- R204: an empty dump answers `OK` and does nothing else. -/
def Obligations.EmptyDumpDoesNothing : Prop :=
  ∀ (d : Device) (a : Word) (s : State), s.Free → s.dumpPos = none →
    a.toNat < 2 ^ (8 * (s.cfg.desc d).addrBytes) →
    exec (.dump d a 0#32) s = .next (s.respond .ok none)

/-- R202, R203: a `DUMP` runs its chunks in order, each read whole and handed over, until all are done or one fails. It
presents the bytes received in the chunks before the failing one, nothing of that chunk and of no later one, and it
answers that chunk's code: `SelectFailure` for a failed select or closing write, `TransferAborted` for a pin fault
(`DumpTrace`, `FailedRead`). -/
def Obligations.DumpPresentsExactlyTheCompleteChunks : Prop :=
  ∀ (d : Device) (a len : Word) (s : State) (chunks : List Chunk), s.Free →
    a.toNat < 2 ^ (8 * (s.cfg.desc d).addrBytes) →
    a.toNat + len.toNat ≤ 2 ^ (8 * (s.cfg.desc d).addrBytes) →
    chunks = dumpChunks s.cfg.toConfig a.toNat len.toNat →
    ∃ t es c, exec (.dump d a len) s = .next t ∧ t.history = s.history ++ es ++ [.resp c] ∧
      DumpTrace s.cfg.toConfig d chunks (presented es) c es

/-- R174, which the spec derives from the rules of select, deselect and cleanup: a `READ` that passes its checks makes
exactly one select write and one deselect write, in that order, and a `DUMP` one such pair for each chunk it starts
(each chunk it presents, and the one that failed if one did), whatever the outside answers. -/
def Obligations.ReadsDeselectExactlyOnce : Prop :=
  ∀ (d : Device) (a n : Word) (s : State) (pair : List RegValue), s.Free →
    a.toNat < 2 ^ (8 * (s.cfg.desc d).addrBytes) →
    pair = [selValue s.cfg.toConfig (some d), selValue s.cfg.toConfig none] →
    (n.toNat ≤ s.cfg.maxLen →
      ∃ t es, exec (.read d a n) s = .next t ∧ t.history = s.history ++ es ∧ outWrites s.cfg.toConfig es = pair ∧
        t.bus = .idle ∧ t.seldev = none) ∧
    (a.toNat + n.toNat ≤ 2 ^ (8 * (s.cfg.desc d).addrBytes) →
      ∃ t es, exec (.dump d a n) s = .next t ∧ t.history = s.history ++ es ∧
        outWrites s.cfg.toConfig es =
          (List.replicate ((presented es).length + if t.lastCode = some .ok then 0 else 1) pair).flatten ∧
        t.bus = .idle ∧ (0 < n.toNat → t.seldev = none))

/-! ### The lifecycle -/

/-- R220: an `INIT` that succeeds drives the pins idle, makes the set-up writes in order, deselects, validates, and
makes the handle valid. -/
def Obligations.InitCompletes : Prop :=
  ∀ (s : State) (es : List Event), s.halted = false → (s.handle = .none ∨ s.handle = .released) →
    es = [.pin .sck s.cfg.cpol, .pin .dout false] ++ (s.cfg.initWrites.map fun w => .expW w.1 w.2 true) ++
      [deselectWrite s.cfg.toConfig true, scratchWrite s.cfg.toConfig true,
        .expR s.cfg.expScratchReg (some s.cfg.expPattern)] →
    s.answers es = true →
    exec .init s = .next (State.respond
      { s.noteAll es with
        sck := s.cfg.cpol, dout := false, bus := .idle, seldev := none
        outShadow := some (selValue s.cfg.toConfig none), handle := .valid }
      .ok none)

/-- R220, R221: the ways an `INIT` fails, each with the handle `NotPresent`: at a set-up write, at the deselect write
(which halts, with no validation), or at the validation, when the select lines are already deselected. -/
def Obligations.InitFailures : Prop :=
  ∀ (s : State) (pins : List Event), s.halted = false → (s.handle = .none ∨ s.handle = .released) →
    pins = [.pin .sck s.cfg.cpol, .pin .dout false] →
    (∀ pre w post es, s.cfg.initWrites = pre ++ w :: post →
      es = pins ++ (pre.map fun w => .expW w.1 w.2 true) ++ [.expW w.1 w.2 false] → s.answers es = true →
      exec .init s = .next (State.respond
        { s.noteAll es with sck := s.cfg.cpol, dout := false, handle := .notPresent } .expanderNotPresent none)) ∧
    (∀ es, es = pins ++ (s.cfg.initWrites.map fun w => .expW w.1 w.2 true) ++ [deselectWrite s.cfg.toConfig false] →
      s.answers es = true →
      exec .init s = .next (State.respond
        { s.noteAll es with
          sck := s.cfg.cpol, dout := false, bus := .idle, seldev := none, outShadow := none, halted := true
          handle := .notPresent }
        .selectFailure none)) ∧
    (∀ tail es, (tail = [scratchWrite s.cfg.toConfig false] ∨
        ∃ r, r ≠ some s.cfg.expPattern ∧
          tail = [scratchWrite s.cfg.toConfig true, .expR s.cfg.expScratchReg r]) →
      es = pins ++ (s.cfg.initWrites.map fun w => .expW w.1 w.2 true) ++
        (deselectWrite s.cfg.toConfig true :: tail) →
      s.answers es = true →
      exec .init s = .next (State.respond
        { s.noteAll es with
          sck := s.cfg.cpol, dout := false, bus := .idle, seldev := none
          outShadow := some (selValue s.cfg.toConfig none), handle := .notPresent }
        .expanderNotPresent none))

/-- R223: `VALIDATE_CONFIG` checks the expander; a failed check makes the handle `NotPresent` and leaves the select
lines alone. -/
def Obligations.ValidateConfigCompletes : Prop :=
  ∀ s : State, s.Free →
    (∀ es, es = [scratchWrite s.cfg.toConfig true, .expR s.cfg.expScratchReg (some s.cfg.expPattern)] →
      s.answers es = true → exec .validateConfig s = .next (State.respond (s.noteAll es) .ok none)) ∧
    (∀ es, (es = [scratchWrite s.cfg.toConfig false] ∨
        ∃ r, r ≠ some s.cfg.expPattern ∧
          es = [scratchWrite s.cfg.toConfig true, .expR s.cfg.expScratchReg r]) →
      s.answers es = true →
      exec .validateConfig s = .next (State.respond { s.noteAll es with handle := .notPresent }
        .expanderNotPresent none))

/-- R225: `RELEASE` outside a session: with a valid handle it deselects first, and a failed write halts and is
`SelectFailure`; with a handle that is `NotPresent` it makes no expander write; in every case the pins are idle and the
handle is released. -/
def Obligations.ReleaseCompletes : Prop :=
  ∀ (s : State) (pins : List Event), s.halted = false → s.session = false →
    pins = [.pin .sck s.cfg.cpol, .pin .dout false] →
    (s.handle = .valid → ∀ deselected es, es = deselectWrite s.cfg.toConfig deselected :: pins →
      s.answers es = true →
      exec .release s = .next (State.respond
        { s.noteAll es with
          sck := s.cfg.cpol, dout := false, bus := .idle, seldev := none, halted := !deselected
          outShadow := if deselected = true then some (selValue s.cfg.toConfig none) else none
          handle := .released }
        (if deselected = true then .ok else .selectFailure) none)) ∧
    (s.handle = .notPresent →
      exec .release s = .next (State.respond
        { s.noteAll pins with sck := s.cfg.cpol, dout := false, handle := .released } .ok none))

/-- R222, which the spec derives from R220, R223 and R225: the transitions of the handle, and that no other command
writes it. -/
def Obligations.HandleTransitions : Prop :=
  ∀ (i : Instr) (s : State), ∃ t c, exec i s = .next t ∧ t.lastCode = some c ∧
    (t.handle = s.handle ∨
      (i = .init ∧ (s.handle = .none ∨ s.handle = .released) ∧
        ((t.handle = .valid ∧ c = .ok) ∨ (t.handle = .notPresent ∧ c ≠ .ok))) ∨
      (i = .validateConfig ∧ s.handle = .valid ∧ t.handle = .notPresent ∧ c = .expanderNotPresent) ∨
      (i = .release ∧ (s.handle = .valid ∨ s.handle = .notPresent) ∧ t.handle = .released)) ∧
    (i = .init → c = .ok → t.handle = .valid) ∧
    (i = .release → s.halted = false → s.session = false → (s.handle = .valid ∨ s.handle = .notPresent) →
      t.handle = .released)

/-! ### Rules of the whole machine -/

/-- The frame of the command set: no command changes the configuration, the host's words or the reset input, and each
register is written only by the commands that the spec names (R32, R33, R37, R40, R42, R45, and the rule of each
command). In particular only `SESSION_OPEN`, `SESSION_CLOSE` and a raw byte that fails in a session write `SESSION`, so
`READ` and `DUMP` never do (R40), and no command clears `HALTED` (R42). -/
def Obligations.OnlyNamedCommandsWrite : Prop :=
  ∀ (i : Instr) (s t : State), exec i s = .next t →
    t.cfg = s.cfg ∧ t.port = s.port ∧ t.resetInput = s.resetInput ∧
    ((∀ o, i ≠ .setBitOrder o) → t.order = s.order) ∧
    (i = .readByte ∨ i = .expValidate ∨ i = .deselectAll ∨ i = .sessionClose ∨ i = .validateConfig ∨
        (∃ d, i = .select d) ∨ (∃ d, i = .sessionOpen d) ∨ (∃ o, i = .setBitOrder o) →
      t.dout = s.dout) ∧
    (i = .expValidate ∨ i = .deselectAll ∨ i = .sessionClose ∨ i = .validateConfig ∨
        (∃ d, i = .select d) ∨ (∃ d, i = .sessionOpen d) ∨ (∃ o, i = .setBitOrder o) →
      t.sck = s.sck) ∧
    ((∀ v, i ≠ .writeByte v) → i ≠ .readByte → (∀ d a n, i ≠ .read d a n) → (∀ d a n, i ≠ .dump d a n) →
      t.sr = s.sr ∧ t.bitcnt = s.bitcnt) ∧
    ((∀ d a n, i ≠ .read d a n) → (∀ d a n, i ≠ .dump d a n) →
      t.phase = s.phase ∧ t.rxbuf = s.rxbuf ∧ t.dumpPos = s.dumpPos) ∧
    ((∀ d, i ≠ .sessionOpen d) → i ≠ .sessionClose → (∀ v, i ≠ .writeByte v) → i ≠ .readByte →
      t.session = s.session) ∧
    ((∃ v, i = .writeByte v) ∨ i = .readByte → s.session = false →
      t.session = false ∧ t.seldev = s.seldev ∧ t.outShadow = s.outShadow ∧ t.halted = s.halted) ∧
    (s.halted = true → t.halted = true) ∧
    (i ≠ .init → i ≠ .validateConfig → i ≠ .release → t.handle = s.handle) ∧
    (i = .expValidate ∨ i = .validateConfig ∨ (∃ o, i = .setBitOrder o) →
      t.outShadow = s.outShadow ∧ t.bus = s.bus ∧ t.seldev = s.seldev ∧ t.session = s.session ∧
        t.halted = s.halted)

/-- R35, whose claim the spec derives from R52, R112 and R113: the value that `SR` holds between commands is never
observed: with another value there, every command records the same events, gives the same response, and leaves the
same state but for `SR` itself. -/
def Obligations.ShiftRegisterIsNeverObserved : Prop :=
  ∀ (i : Instr) (s : State) (v : Byte), ∃ t w, exec i s = .next t ∧ exec i { s with sr := v } = .next { t with sr := w }

/-- R44 and R247, which the spec derives from the command rules, and R45: what holds between commands is kept by every
step, resets and waits among them. (The values that the hidden state has between commands are the model's choice,
notes/assumptions/7.md, and so are the steps that wait, notes/assumptions/6.md.) -/
def Obligations.SteadyIsKept : Prop :=
  ∀ s t : State, s.Steady → step s = .next t → t.Steady

/-- The invariant holds right after reset, for every configuration. (That the hidden frame state is idle at reset is the
model's choice, notes/assumptions/7.md; R52 gives it no value.) -/
def Obligations.ResetIsSteady : Prop := ∀ cfg : AdmittedConfig, (State.resetWith cfg).Steady

/-- R146, which the spec derives from R141, R143, R145 and R11: no step writes anything to the output register but
`sel_value(t)` for one `t`; so no value written there asserts both lines. -/
def Obligations.OutputWritesAreSelections : Prop :=
  (∀ s t : State, s.OutWritesAreSelections → step s = .next t → t.OutWritesAreSelections) ∧
  ∀ s : State, s.OutWritesAreSelections → ∀ v ∈ outWrites s.cfg.toConfig s.history,
    ¬ (lineAsserted s.cfg.toConfig v .flash = true ∧ lineAsserted s.cfg.toConfig v .eeprom = true)

/-- R44 and R174, which the spec derives: along every run, two selecting writes always have a deselecting write
between them, and an Idle engine's last write deselects. -/
def Obligations.SelectionsAreAlwaysClosed : Prop :=
  ∀ s t : State, s.SelectionsAreClosed → step s = .next t → t.SelectionsAreClosed

/-- R247 (its clause on the halted state the spec derives from R145 and R244): `HALTED` becomes true exactly when a
deselect write fails; a halted engine answers `EngineHalted` and does nothing else; only a reset clears it; and while
halted the engine is Idle, with no session, no device and an unknown output register. -/
def Obligations.HaltedExactlyOnFailedDeselect : Prop :=
  (∀ (i : Instr) (s : State), s.halted = false → ∃ t es, exec i s = .next t ∧ t.history = s.history ++ es ∧
    (t.halted = true ↔ deselectWrite s.cfg.toConfig false ∈ es)) ∧
  (∀ (i : Instr) (s : State), s.halted = true → exec i s = .next (s.respond .engineHalted none)) ∧
  (∀ s t : State, s.halted = true → s.resetInput = .none → step s = .next t → t.halted = true) ∧
  (∀ s t : State, s.resetInput ≠ .none → step s = .next t → t.halted = false) ∧
  ∀ s t : State, s.Steady → step s = .next t → t.halted = true →
    t.bus = .idle ∧ t.session = false ∧ t.seldev = none ∧ t.outShadow = none

/-- R286, which the spec derives from R111 to R113: the least time of the commands that move bytes or drive pins, in
hold intervals. -/
def Obligations.LeastTimes : Prop :=
  ∀ (i : Instr) (s t : State), exec i s = .next t → ∃ es, t.history = s.history ++ es ∧
    (s.Ready → (∃ v, i = .writeByte v) → leastTime s.cfg.toConfig es = 24 * s.cfg.tHalf) ∧
    (s.Ready → i = .readByte → leastTime s.cfg.toConfig es = 16 * s.cfg.tHalf) ∧
    (∀ d a n, i = .read d a n → t.lastCode = some .ok →
      leastTime s.cfg.toConfig es = (24 * (1 + (s.cfg.desc d).addrBytes) + 16 * n.toNat) * s.cfg.tHalf) ∧
    ((i = .init ∨ i = .release) → t.lastCode = some .ok → leastTime s.cfg.toConfig es = 2 * s.cfg.tHalf)
end

