-- ==== Sys2Proof/Laws/State.lean ====
section
/-!
SUPPORT. One lemma per field per update of the state record, true by `rfl`: what noting an event, driving a line,
drawing an answer and responding leave as it was, and what they set. No later proof unfolds these operations to read a
field.
-/

namespace Sys2Proof.Machine

variable (s : State)


/-! ### Noting an event -/

@[simp] theorem note_cfg (e : Event) : (s.note e).cfg = s.cfg := rfl
@[simp] theorem note_sck (e : Event) : (s.note e).sck = s.sck := rfl
@[simp] theorem note_dout (e : Event) : (s.note e).dout = s.dout := rfl
@[simp] theorem note_sr (e : Event) : (s.note e).sr = s.sr := rfl
@[simp] theorem note_bitcnt (e : Event) : (s.note e).bitcnt = s.bitcnt := rfl
@[simp] theorem note_order (e : Event) : (s.note e).order = s.order := rfl
@[simp] theorem note_bus (e : Event) : (s.note e).bus = s.bus := rfl
@[simp] theorem note_seldev (e : Event) : (s.note e).seldev = s.seldev := rfl
@[simp] theorem note_session (e : Event) : (s.note e).session = s.session := rfl
@[simp] theorem note_handle (e : Event) : (s.note e).handle = s.handle := rfl
@[simp] theorem note_halted (e : Event) : (s.note e).halted = s.halted := rfl
@[simp] theorem note_outShadow (e : Event) : (s.note e).outShadow = s.outShadow := rfl
@[simp] theorem note_phase (e : Event) : (s.note e).phase = s.phase := rfl
@[simp] theorem note_rxbuf (e : Event) : (s.note e).rxbuf = s.rxbuf := rfl
@[simp] theorem note_dumpPos (e : Event) : (s.note e).dumpPos = s.dumpPos := rfl
@[simp] theorem note_history (e : Event) : (s.note e).history = s.history ++ [e] := rfl
@[simp] theorem note_responses (e : Event) : (s.note e).responses = s.responses := rfl
@[simp] theorem note_port (e : Event) : (s.note e).port = s.port := rfl
@[simp] theorem note_resetInput (e : Event) : (s.note e).resetInput = s.resetInput := rfl

/-! ### Driving the clock -/

@[simp] theorem driveSck_cfg (b : Bool) : (s.driveSck b).cfg = s.cfg := rfl
@[simp] theorem driveSck_sck (b : Bool) : (s.driveSck b).sck = b := rfl
@[simp] theorem driveSck_dout (b : Bool) : (s.driveSck b).dout = s.dout := rfl
@[simp] theorem driveSck_sr (b : Bool) : (s.driveSck b).sr = s.sr := rfl
@[simp] theorem driveSck_bitcnt (b : Bool) : (s.driveSck b).bitcnt = s.bitcnt := rfl
@[simp] theorem driveSck_order (b : Bool) : (s.driveSck b).order = s.order := rfl
@[simp] theorem driveSck_bus (b : Bool) : (s.driveSck b).bus = s.bus := rfl
@[simp] theorem driveSck_seldev (b : Bool) : (s.driveSck b).seldev = s.seldev := rfl
@[simp] theorem driveSck_session (b : Bool) : (s.driveSck b).session = s.session := rfl
@[simp] theorem driveSck_handle (b : Bool) : (s.driveSck b).handle = s.handle := rfl
@[simp] theorem driveSck_halted (b : Bool) : (s.driveSck b).halted = s.halted := rfl
@[simp] theorem driveSck_outShadow (b : Bool) : (s.driveSck b).outShadow = s.outShadow := rfl
@[simp] theorem driveSck_phase (b : Bool) : (s.driveSck b).phase = s.phase := rfl
@[simp] theorem driveSck_rxbuf (b : Bool) : (s.driveSck b).rxbuf = s.rxbuf := rfl
@[simp] theorem driveSck_dumpPos (b : Bool) : (s.driveSck b).dumpPos = s.dumpPos := rfl
@[simp] theorem driveSck_history (b : Bool) : (s.driveSck b).history = s.history ++ [.pin .sck b] := rfl
@[simp] theorem driveSck_responses (b : Bool) : (s.driveSck b).responses = s.responses := rfl
@[simp] theorem driveSck_port (b : Bool) : (s.driveSck b).port = s.port := rfl
@[simp] theorem driveSck_resetInput (b : Bool) : (s.driveSck b).resetInput = s.resetInput := rfl
@[simp] theorem driveSck_samples (b : Bool) : (s.driveSck b).samples = s.samples := rfl
@[simp] theorem driveSck_expAcks (b : Bool) : (s.driveSck b).expAcks = s.expAcks := rfl
@[simp] theorem driveSck_expReads (b : Bool) : (s.driveSck b).expReads = s.expReads := rfl
@[simp] theorem driveSck_pinFaults (b : Bool) : (s.driveSck b).pinFaults = s.pinFaults := rfl

/-! ### Driving the data line -/

@[simp] theorem driveDout_cfg (b : Bool) : (s.driveDout b).cfg = s.cfg := rfl
@[simp] theorem driveDout_sck (b : Bool) : (s.driveDout b).sck = s.sck := rfl
@[simp] theorem driveDout_dout (b : Bool) : (s.driveDout b).dout = b := rfl
@[simp] theorem driveDout_sr (b : Bool) : (s.driveDout b).sr = s.sr := rfl
@[simp] theorem driveDout_bitcnt (b : Bool) : (s.driveDout b).bitcnt = s.bitcnt := rfl
@[simp] theorem driveDout_order (b : Bool) : (s.driveDout b).order = s.order := rfl
@[simp] theorem driveDout_bus (b : Bool) : (s.driveDout b).bus = s.bus := rfl
@[simp] theorem driveDout_seldev (b : Bool) : (s.driveDout b).seldev = s.seldev := rfl
@[simp] theorem driveDout_session (b : Bool) : (s.driveDout b).session = s.session := rfl
@[simp] theorem driveDout_handle (b : Bool) : (s.driveDout b).handle = s.handle := rfl
@[simp] theorem driveDout_halted (b : Bool) : (s.driveDout b).halted = s.halted := rfl
@[simp] theorem driveDout_outShadow (b : Bool) : (s.driveDout b).outShadow = s.outShadow := rfl
@[simp] theorem driveDout_phase (b : Bool) : (s.driveDout b).phase = s.phase := rfl
@[simp] theorem driveDout_rxbuf (b : Bool) : (s.driveDout b).rxbuf = s.rxbuf := rfl
@[simp] theorem driveDout_dumpPos (b : Bool) : (s.driveDout b).dumpPos = s.dumpPos := rfl
@[simp] theorem driveDout_history (b : Bool) : (s.driveDout b).history = s.history ++ [.pin .dout b] := rfl
@[simp] theorem driveDout_responses (b : Bool) : (s.driveDout b).responses = s.responses := rfl
@[simp] theorem driveDout_port (b : Bool) : (s.driveDout b).port = s.port := rfl
@[simp] theorem driveDout_resetInput (b : Bool) : (s.driveDout b).resetInput = s.resetInput := rfl
@[simp] theorem driveDout_samples (b : Bool) : (s.driveDout b).samples = s.samples := rfl
@[simp] theorem driveDout_expAcks (b : Bool) : (s.driveDout b).expAcks = s.expAcks := rfl
@[simp] theorem driveDout_expReads (b : Bool) : (s.driveDout b).expReads = s.expReads := rfl
@[simp] theorem driveDout_pinFaults (b : Bool) : (s.driveDout b).pinFaults = s.pinFaults := rfl

/-! ### Sampling -/

@[simp] theorem sample_cfg : (s.sample.2).cfg = s.cfg := rfl
@[simp] theorem sample_sck : (s.sample.2).sck = s.sck := rfl
@[simp] theorem sample_dout : (s.sample.2).dout = s.dout := rfl
@[simp] theorem sample_sr : (s.sample.2).sr = s.sr := rfl
@[simp] theorem sample_bitcnt : (s.sample.2).bitcnt = s.bitcnt := rfl
@[simp] theorem sample_order : (s.sample.2).order = s.order := rfl
@[simp] theorem sample_bus : (s.sample.2).bus = s.bus := rfl
@[simp] theorem sample_seldev : (s.sample.2).seldev = s.seldev := rfl
@[simp] theorem sample_session : (s.sample.2).session = s.session := rfl
@[simp] theorem sample_handle : (s.sample.2).handle = s.handle := rfl
@[simp] theorem sample_halted : (s.sample.2).halted = s.halted := rfl
@[simp] theorem sample_outShadow : (s.sample.2).outShadow = s.outShadow := rfl
@[simp] theorem sample_phase : (s.sample.2).phase = s.phase := rfl
@[simp] theorem sample_rxbuf : (s.sample.2).rxbuf = s.rxbuf := rfl
@[simp] theorem sample_dumpPos : (s.sample.2).dumpPos = s.dumpPos := rfl
@[simp] theorem sample_history : (s.sample.2).history = s.history ++ [.sample s.sampleAnswer] := rfl
@[simp] theorem sample_responses : (s.sample.2).responses = s.responses := rfl
@[simp] theorem sample_port : (s.sample.2).port = s.port := rfl
@[simp] theorem sample_resetInput : (s.sample.2).resetInput = s.resetInput := rfl
@[simp] theorem sample_samples : (s.sample.2).samples = s.samples.tail := rfl
@[simp] theorem sample_expAcks : (s.sample.2).expAcks = s.expAcks := rfl
@[simp] theorem sample_expReads : (s.sample.2).expReads = s.expReads := rfl
@[simp] theorem sample_pinFaults : (s.sample.2).pinFaults = s.pinFaults := rfl

/-! ### Writing an expander register -/

@[simp] theorem expWrite_cfg (a : RegAddr) (v : RegValue) : ((s.expWrite a v).2).cfg = s.cfg := rfl
@[simp] theorem expWrite_sck (a : RegAddr) (v : RegValue) : ((s.expWrite a v).2).sck = s.sck := rfl
@[simp] theorem expWrite_dout (a : RegAddr) (v : RegValue) : ((s.expWrite a v).2).dout = s.dout := rfl
@[simp] theorem expWrite_sr (a : RegAddr) (v : RegValue) : ((s.expWrite a v).2).sr = s.sr := rfl
@[simp] theorem expWrite_bitcnt (a : RegAddr) (v : RegValue) : ((s.expWrite a v).2).bitcnt = s.bitcnt := rfl
@[simp] theorem expWrite_order (a : RegAddr) (v : RegValue) : ((s.expWrite a v).2).order = s.order := rfl
@[simp] theorem expWrite_bus (a : RegAddr) (v : RegValue) : ((s.expWrite a v).2).bus = s.bus := rfl
@[simp] theorem expWrite_seldev (a : RegAddr) (v : RegValue) : ((s.expWrite a v).2).seldev = s.seldev := rfl
@[simp] theorem expWrite_session (a : RegAddr) (v : RegValue) : ((s.expWrite a v).2).session = s.session := rfl
@[simp] theorem expWrite_handle (a : RegAddr) (v : RegValue) : ((s.expWrite a v).2).handle = s.handle := rfl
@[simp] theorem expWrite_halted (a : RegAddr) (v : RegValue) : ((s.expWrite a v).2).halted = s.halted := rfl
@[simp] theorem expWrite_outShadow (a : RegAddr) (v : RegValue) : ((s.expWrite a v).2).outShadow = s.outShadow := rfl
@[simp] theorem expWrite_phase (a : RegAddr) (v : RegValue) : ((s.expWrite a v).2).phase = s.phase := rfl
@[simp] theorem expWrite_rxbuf (a : RegAddr) (v : RegValue) : ((s.expWrite a v).2).rxbuf = s.rxbuf := rfl
@[simp] theorem expWrite_dumpPos (a : RegAddr) (v : RegValue) : ((s.expWrite a v).2).dumpPos = s.dumpPos := rfl
@[simp] theorem expWrite_history (a : RegAddr) (v : RegValue) : ((s.expWrite a v).2).history = s.history ++ [.expW a v (s.expAckAnswer a v)] := rfl
@[simp] theorem expWrite_responses (a : RegAddr) (v : RegValue) : ((s.expWrite a v).2).responses = s.responses := rfl
@[simp] theorem expWrite_port (a : RegAddr) (v : RegValue) : ((s.expWrite a v).2).port = s.port := rfl
@[simp] theorem expWrite_resetInput (a : RegAddr) (v : RegValue) : ((s.expWrite a v).2).resetInput = s.resetInput := rfl
@[simp] theorem expWrite_samples (a : RegAddr) (v : RegValue) : ((s.expWrite a v).2).samples = s.samples := rfl
@[simp] theorem expWrite_expAcks (a : RegAddr) (v : RegValue) : ((s.expWrite a v).2).expAcks = s.expAcks.tail := rfl
@[simp] theorem expWrite_expReads (a : RegAddr) (v : RegValue) : ((s.expWrite a v).2).expReads = s.expReads := rfl
@[simp] theorem expWrite_pinFaults (a : RegAddr) (v : RegValue) : ((s.expWrite a v).2).pinFaults = s.pinFaults := rfl

/-! ### Reading an expander register -/

@[simp] theorem expRead_cfg (a : RegAddr) : ((s.expRead a).2).cfg = s.cfg := rfl
@[simp] theorem expRead_sck (a : RegAddr) : ((s.expRead a).2).sck = s.sck := rfl
@[simp] theorem expRead_dout (a : RegAddr) : ((s.expRead a).2).dout = s.dout := rfl
@[simp] theorem expRead_sr (a : RegAddr) : ((s.expRead a).2).sr = s.sr := rfl
@[simp] theorem expRead_bitcnt (a : RegAddr) : ((s.expRead a).2).bitcnt = s.bitcnt := rfl
@[simp] theorem expRead_order (a : RegAddr) : ((s.expRead a).2).order = s.order := rfl
@[simp] theorem expRead_bus (a : RegAddr) : ((s.expRead a).2).bus = s.bus := rfl
@[simp] theorem expRead_seldev (a : RegAddr) : ((s.expRead a).2).seldev = s.seldev := rfl
@[simp] theorem expRead_session (a : RegAddr) : ((s.expRead a).2).session = s.session := rfl
@[simp] theorem expRead_handle (a : RegAddr) : ((s.expRead a).2).handle = s.handle := rfl
@[simp] theorem expRead_halted (a : RegAddr) : ((s.expRead a).2).halted = s.halted := rfl
@[simp] theorem expRead_outShadow (a : RegAddr) : ((s.expRead a).2).outShadow = s.outShadow := rfl
@[simp] theorem expRead_phase (a : RegAddr) : ((s.expRead a).2).phase = s.phase := rfl
@[simp] theorem expRead_rxbuf (a : RegAddr) : ((s.expRead a).2).rxbuf = s.rxbuf := rfl
@[simp] theorem expRead_dumpPos (a : RegAddr) : ((s.expRead a).2).dumpPos = s.dumpPos := rfl
@[simp] theorem expRead_history (a : RegAddr) : ((s.expRead a).2).history = s.history ++ [.expR a (s.expReadAnswer a)] := rfl
@[simp] theorem expRead_responses (a : RegAddr) : ((s.expRead a).2).responses = s.responses := rfl
@[simp] theorem expRead_port (a : RegAddr) : ((s.expRead a).2).port = s.port := rfl
@[simp] theorem expRead_resetInput (a : RegAddr) : ((s.expRead a).2).resetInput = s.resetInput := rfl
@[simp] theorem expRead_samples (a : RegAddr) : ((s.expRead a).2).samples = s.samples := rfl
@[simp] theorem expRead_expAcks (a : RegAddr) : ((s.expRead a).2).expAcks = s.expAcks := rfl
@[simp] theorem expRead_expReads (a : RegAddr) : ((s.expRead a).2).expReads = s.expReads.tail := rfl
@[simp] theorem expRead_pinFaults (a : RegAddr) : ((s.expRead a).2).pinFaults = s.pinFaults := rfl

/-! ### Checking the pins -/

@[simp] theorem pinFault_cfg : (s.pinFault.2).cfg = s.cfg := rfl
@[simp] theorem pinFault_sck : (s.pinFault.2).sck = s.sck := rfl
@[simp] theorem pinFault_dout : (s.pinFault.2).dout = s.dout := rfl
@[simp] theorem pinFault_sr : (s.pinFault.2).sr = s.sr := rfl
@[simp] theorem pinFault_bitcnt : (s.pinFault.2).bitcnt = s.bitcnt := rfl
@[simp] theorem pinFault_order : (s.pinFault.2).order = s.order := rfl
@[simp] theorem pinFault_bus : (s.pinFault.2).bus = s.bus := rfl
@[simp] theorem pinFault_seldev : (s.pinFault.2).seldev = s.seldev := rfl
@[simp] theorem pinFault_session : (s.pinFault.2).session = s.session := rfl
@[simp] theorem pinFault_handle : (s.pinFault.2).handle = s.handle := rfl
@[simp] theorem pinFault_halted : (s.pinFault.2).halted = s.halted := rfl
@[simp] theorem pinFault_outShadow : (s.pinFault.2).outShadow = s.outShadow := rfl
@[simp] theorem pinFault_phase : (s.pinFault.2).phase = s.phase := rfl
@[simp] theorem pinFault_rxbuf : (s.pinFault.2).rxbuf = s.rxbuf := rfl
@[simp] theorem pinFault_dumpPos : (s.pinFault.2).dumpPos = s.dumpPos := rfl
@[simp] theorem pinFault_history : (s.pinFault.2).history = s.history ++ [.pinCheck s.pinFaultAnswer] := rfl
@[simp] theorem pinFault_responses : (s.pinFault.2).responses = s.responses := rfl
@[simp] theorem pinFault_port : (s.pinFault.2).port = s.port := rfl
@[simp] theorem pinFault_resetInput : (s.pinFault.2).resetInput = s.resetInput := rfl
@[simp] theorem pinFault_samples : (s.pinFault.2).samples = s.samples := rfl
@[simp] theorem pinFault_expAcks : (s.pinFault.2).expAcks = s.expAcks := rfl
@[simp] theorem pinFault_expReads : (s.pinFault.2).expReads = s.expReads := rfl
@[simp] theorem pinFault_pinFaults : (s.pinFault.2).pinFaults = s.pinFaults.tail := rfl

/-! ### Responding -/

@[simp] theorem respond_cfg (c : Code) (p : Option Payload) : (s.respond c p).cfg = s.cfg := rfl
@[simp] theorem respond_sck (c : Code) (p : Option Payload) : (s.respond c p).sck = s.sck := rfl
@[simp] theorem respond_dout (c : Code) (p : Option Payload) : (s.respond c p).dout = s.dout := rfl
@[simp] theorem respond_sr (c : Code) (p : Option Payload) : (s.respond c p).sr = s.sr := rfl
@[simp] theorem respond_bitcnt (c : Code) (p : Option Payload) : (s.respond c p).bitcnt = s.bitcnt := rfl
@[simp] theorem respond_order (c : Code) (p : Option Payload) : (s.respond c p).order = s.order := rfl
@[simp] theorem respond_bus (c : Code) (p : Option Payload) : (s.respond c p).bus = s.bus := rfl
@[simp] theorem respond_seldev (c : Code) (p : Option Payload) : (s.respond c p).seldev = s.seldev := rfl
@[simp] theorem respond_session (c : Code) (p : Option Payload) : (s.respond c p).session = s.session := rfl
@[simp] theorem respond_handle (c : Code) (p : Option Payload) : (s.respond c p).handle = s.handle := rfl
@[simp] theorem respond_halted (c : Code) (p : Option Payload) : (s.respond c p).halted = s.halted := rfl
@[simp] theorem respond_outShadow (c : Code) (p : Option Payload) : (s.respond c p).outShadow = s.outShadow := rfl
@[simp] theorem respond_phase (c : Code) (p : Option Payload) : (s.respond c p).phase = s.phase := rfl
@[simp] theorem respond_rxbuf (c : Code) (p : Option Payload) : (s.respond c p).rxbuf = s.rxbuf := rfl
@[simp] theorem respond_dumpPos (c : Code) (p : Option Payload) : (s.respond c p).dumpPos = s.dumpPos := rfl
@[simp] theorem respond_history (c : Code) (p : Option Payload) : (s.respond c p).history = s.history ++ [.resp c] := rfl
@[simp] theorem respond_responses (c : Code) (p : Option Payload) : (s.respond c p).responses = s.responses ++ [{ status := statusWord c s, payload := p }] := rfl
@[simp] theorem respond_port (c : Code) (p : Option Payload) : (s.respond c p).port = s.port := rfl
@[simp] theorem respond_resetInput (c : Code) (p : Option Payload) : (s.respond c p).resetInput = s.resetInput := rfl
@[simp] theorem respond_samples (c : Code) (p : Option Payload) : (s.respond c p).samples = s.samples := rfl
@[simp] theorem respond_expAcks (c : Code) (p : Option Payload) : (s.respond c p).expAcks = s.expAcks := rfl
@[simp] theorem respond_expReads (c : Code) (p : Option Payload) : (s.respond c p).expReads = s.expReads := rfl
@[simp] theorem respond_pinFaults (c : Code) (p : Option Payload) : (s.respond c p).pinFaults = s.pinFaults := rfl

/-! ### Taking words from the port -/

@[simp] theorem withPort_cfg (ws : List Word) : (s.withPort ws).cfg = s.cfg := rfl
@[simp] theorem withPort_sck (ws : List Word) : (s.withPort ws).sck = s.sck := rfl
@[simp] theorem withPort_dout (ws : List Word) : (s.withPort ws).dout = s.dout := rfl
@[simp] theorem withPort_sr (ws : List Word) : (s.withPort ws).sr = s.sr := rfl
@[simp] theorem withPort_bitcnt (ws : List Word) : (s.withPort ws).bitcnt = s.bitcnt := rfl
@[simp] theorem withPort_order (ws : List Word) : (s.withPort ws).order = s.order := rfl
@[simp] theorem withPort_bus (ws : List Word) : (s.withPort ws).bus = s.bus := rfl
@[simp] theorem withPort_seldev (ws : List Word) : (s.withPort ws).seldev = s.seldev := rfl
@[simp] theorem withPort_session (ws : List Word) : (s.withPort ws).session = s.session := rfl
@[simp] theorem withPort_handle (ws : List Word) : (s.withPort ws).handle = s.handle := rfl
@[simp] theorem withPort_halted (ws : List Word) : (s.withPort ws).halted = s.halted := rfl
@[simp] theorem withPort_outShadow (ws : List Word) : (s.withPort ws).outShadow = s.outShadow := rfl
@[simp] theorem withPort_phase (ws : List Word) : (s.withPort ws).phase = s.phase := rfl
@[simp] theorem withPort_rxbuf (ws : List Word) : (s.withPort ws).rxbuf = s.rxbuf := rfl
@[simp] theorem withPort_dumpPos (ws : List Word) : (s.withPort ws).dumpPos = s.dumpPos := rfl
@[simp] theorem withPort_history (ws : List Word) : (s.withPort ws).history = s.history := rfl
@[simp] theorem withPort_responses (ws : List Word) : (s.withPort ws).responses = s.responses := rfl
@[simp] theorem withPort_port (ws : List Word) : (s.withPort ws).port = ws := rfl
@[simp] theorem withPort_resetInput (ws : List Word) : (s.withPort ws).resetInput = s.resetInput := rfl
@[simp] theorem withPort_samples (ws : List Word) : (s.withPort ws).samples = s.samples := rfl
@[simp] theorem withPort_expAcks (ws : List Word) : (s.withPort ws).expAcks = s.expAcks := rfl
@[simp] theorem withPort_expReads (ws : List Word) : (s.withPort ws).expReads = s.expReads := rfl
@[simp] theorem withPort_pinFaults (ws : List Word) : (s.withPort ws).pinFaults = s.pinFaults := rfl

end Sys2Proof.Machine
end

