-- ==== Sys2Proof/Laws/Trace.lean ====
section
/-!
SUPPORT. Runs of events: what noting a list of events changes, when the oracles answer as a trace says, and that both
depend on nothing but the history and the oracles' scripts.
-/

namespace Sys2Proof.Machine

/-! ### Noting a list of events -/

@[simp] theorem noteAll_nil (s : State) : s.noteAll [] = s := rfl

@[simp] theorem noteAll_cons (s : State) (e : Event) (es : List Event) :
    s.noteAll (e :: es) = (s.note e).noteAll es := rfl

theorem noteAll_append (s : State) (es fs : List Event) :
    s.noteAll (es ++ fs) = (s.noteAll es).noteAll fs := List.foldl_append

/-- Whether an event is a write of an expander register. -/
def isExpW : Event → Bool
  | .pin _ _ => false
  | .sample _ => false
  | .expW _ _ _ => true
  | .expR _ _ => false
  | .pinCheck _ => false
  | .present _ => false
  | .resp _ => false

/-- Whether an event is a read of an expander register. -/
def isExpR : Event → Bool
  | .pin _ _ => false
  | .sample _ => false
  | .expW _ _ _ => false
  | .expR _ _ => true
  | .pinCheck _ => false
  | .present _ => false
  | .resp _ => false

/-- Everything that noting events changes, at once. -/
theorem noteAll_eq (s : State) (es : List Event) :
    s.noteAll es =
      { s with
        history := s.history ++ es
        samples := s.samples.drop (es.countP isSample)
        expAcks := s.expAcks.drop (es.countP isExpW)
        expReads := s.expReads.drop (es.countP isExpR)
        pinFaults := s.pinFaults.drop (es.countP isPinCheck) } := by
  induction es generalizing s with
  | nil => simp
  | cons e es ih =>
    rw [noteAll_cons, ih]
    cases e <;> simp [State.note, List.countP_cons, isSample, isExpW, isExpR, isPinCheck, List.drop_tail]

@[simp] theorem noteAll_history (s : State) (es : List Event) : (s.noteAll es).history = s.history ++ es := by
  rw [noteAll_eq]

@[simp] theorem noteAll_cfg (s : State) (es : List Event) : (s.noteAll es).cfg = s.cfg := by rw [noteAll_eq]
@[simp] theorem noteAll_sck (s : State) (es : List Event) : (s.noteAll es).sck = s.sck := by rw [noteAll_eq]
@[simp] theorem noteAll_dout (s : State) (es : List Event) : (s.noteAll es).dout = s.dout := by rw [noteAll_eq]
@[simp] theorem noteAll_sr (s : State) (es : List Event) : (s.noteAll es).sr = s.sr := by rw [noteAll_eq]
@[simp] theorem noteAll_bitcnt (s : State) (es : List Event) : (s.noteAll es).bitcnt = s.bitcnt := by rw [noteAll_eq]
@[simp] theorem noteAll_order (s : State) (es : List Event) : (s.noteAll es).order = s.order := by rw [noteAll_eq]
@[simp] theorem noteAll_bus (s : State) (es : List Event) : (s.noteAll es).bus = s.bus := by rw [noteAll_eq]
@[simp] theorem noteAll_seldev (s : State) (es : List Event) : (s.noteAll es).seldev = s.seldev := by rw [noteAll_eq]
@[simp] theorem noteAll_session (s : State) (es : List Event) : (s.noteAll es).session = s.session := by rw [noteAll_eq]
@[simp] theorem noteAll_handle (s : State) (es : List Event) : (s.noteAll es).handle = s.handle := by rw [noteAll_eq]
@[simp] theorem noteAll_halted (s : State) (es : List Event) : (s.noteAll es).halted = s.halted := by rw [noteAll_eq]
@[simp] theorem noteAll_outShadow (s : State) (es : List Event) : (s.noteAll es).outShadow = s.outShadow := by rw [noteAll_eq]
@[simp] theorem noteAll_phase (s : State) (es : List Event) : (s.noteAll es).phase = s.phase := by rw [noteAll_eq]
@[simp] theorem noteAll_rxbuf (s : State) (es : List Event) : (s.noteAll es).rxbuf = s.rxbuf := by rw [noteAll_eq]
@[simp] theorem noteAll_dumpPos (s : State) (es : List Event) : (s.noteAll es).dumpPos = s.dumpPos := by rw [noteAll_eq]
@[simp] theorem noteAll_responses (s : State) (es : List Event) : (s.noteAll es).responses = s.responses := by rw [noteAll_eq]
@[simp] theorem noteAll_port (s : State) (es : List Event) : (s.noteAll es).port = s.port := by rw [noteAll_eq]
@[simp] theorem noteAll_resetInput (s : State) (es : List Event) : (s.noteAll es).resetInput = s.resetInput := by rw [noteAll_eq]

/-! ### Answers of the oracles -/

/-- What the oracles' answers depend on, and what noting an event changes. -/
def State.outside (s : State) : List Event × List Bool × List Bool × List (Option RegValue) × List Bool :=
  (s.history, s.samples, s.expAcks, s.expReads, s.pinFaults)

theorem outside_eq_iff {s t : State} :
    t.outside = s.outside ↔
      t.history = s.history ∧ t.samples = s.samples ∧ t.expAcks = s.expAcks ∧ t.expReads = s.expReads ∧
        t.pinFaults = s.pinFaults := by
  simp [State.outside]

theorem sampleAnswer_congr {s t : State} (h : t.outside = s.outside) : t.sampleAnswer = s.sampleAnswer := by
  obtain ⟨hh, hs, -⟩ := outside_eq_iff.1 h
  simp [State.sampleAnswer, hh, hs]

theorem expAckAnswer_congr {s t : State} (h : t.outside = s.outside) (a : RegAddr) (v : RegValue) :
    t.expAckAnswer a v = s.expAckAnswer a v := by
  obtain ⟨hh, -, hs, -⟩ := outside_eq_iff.1 h
  simp [State.expAckAnswer, hh, hs]

theorem expReadAnswer_congr {s t : State} (h : t.outside = s.outside) (a : RegAddr) :
    t.expReadAnswer a = s.expReadAnswer a := by
  obtain ⟨hh, -, -, hs, -⟩ := outside_eq_iff.1 h
  simp [State.expReadAnswer, hh, hs]

theorem pinFaultAnswer_congr {s t : State} (h : t.outside = s.outside) : t.pinFaultAnswer = s.pinFaultAnswer := by
  obtain ⟨hh, -, -, -, hs⟩ := outside_eq_iff.1 h
  simp [State.pinFaultAnswer, hh, hs]

theorem note_outside_congr {s t : State} (h : t.outside = s.outside) (e : Event) :
    (t.note e).outside = (s.note e).outside := by
  obtain ⟨hh, h1, h2, h3, h4⟩ := outside_eq_iff.1 h
  simp [State.outside, State.note, hh, h1, h2, h3, h4]

theorem noteAll_outside_congr {s t : State} (h : t.outside = s.outside) (es : List Event) :
    (t.noteAll es).outside = (s.noteAll es).outside := by
  induction es generalizing s t with
  | nil => exact h
  | cons e es ih => exact ih (note_outside_congr h e)

/-- Whether a trace is answered depends on the history and the scripts alone. -/
theorem answers_congr {s t : State} (h : t.outside = s.outside) (es : List Event) :
    t.answers es = s.answers es := by
  induction es generalizing s t with
  | nil => rfl
  | cons e es ih =>
    rw [State.answers, State.answers, ih (note_outside_congr h e)]
    cases e <;>
      simp [State.answersEvent, sampleAnswer_congr h, expAckAnswer_congr h, expReadAnswer_congr h,
        pinFaultAnswer_congr h]

theorem answers_of_outside {s t : State} {es : List Event} (h : s.answers es = true) (ho : t.outside = s.outside) :
    t.answers es = true := (answers_congr ho es).trans h

@[simp] theorem answers_nil (s : State) : s.answers [] = true := rfl

theorem answers_cons (s : State) (e : Event) (es : List Event) :
    s.answers (e :: es) = true ↔ s.answersEvent e = true ∧ (s.note e).answers es = true := by
  simp [State.answers]

theorem answers_append (s : State) (es fs : List Event) :
    s.answers (es ++ fs) = true ↔ s.answers es = true ∧ (s.noteAll es).answers fs = true := by
  induction es generalizing s with
  | nil => simp
  | cons e es ih => simp only [List.cons_append, answers_cons, ih, noteAll_cons, and_assoc]

@[simp] theorem answers_pin (s : State) (l : Line) (b : Bool) : s.answers [.pin l b] = true := rfl

@[simp] theorem answers_present (s : State) (bs : List Byte) : s.answers [.present bs] = true := rfl

@[simp] theorem answers_resp (s : State) (c : Code) : s.answers [.resp c] = true := rfl

theorem answers_sample (s : State) (b : Bool) : s.answers [.sample b] = true ↔ b = s.sampleAnswer := by
  simp [State.answers, State.answersEvent]

theorem answers_expW (s : State) (a : RegAddr) (v : RegValue) (ok : Bool) :
    s.answers [.expW a v ok] = true ↔ ok = s.expAckAnswer a v := by
  simp [State.answers, State.answersEvent]

theorem answers_expR (s : State) (a : RegAddr) (r : Option RegValue) :
    s.answers [.expR a r] = true ↔ r = s.expReadAnswer a := by
  simp [State.answers, State.answersEvent]

theorem answers_pinCheck (s : State) (f : Bool) : s.answers [.pinCheck f] = true ↔ f = s.pinFaultAnswer := by
  simp [State.answers, State.answersEvent]

/-! ### A state that ran a trace -/

/-- The state `t` has come from `s` by the events `es`: the oracles answered so, and the outside of `t` is that of `s`
after them. The configuration, the responses and the port are as they were. -/
structure Ran (s : State) (es : List Event) (t : State) : Prop where
  answered : s.answers es = true
  outside : t.outside = (s.noteAll es).outside
  cfg : t.cfg = s.cfg
  responses : t.responses = s.responses
  port : t.port = s.port
  resetInput : t.resetInput = s.resetInput
  order : t.order = s.order

theorem Ran.history {s t : State} {es : List Event} (h : Ran s es t) : t.history = s.history ++ es := by
  rw [(outside_eq_iff.1 h.outside).1, noteAll_history]

theorem Ran.refl (s : State) : Ran s [] s := ⟨rfl, rfl, rfl, rfl, rfl, rfl, rfl⟩

theorem Ran.trans {s t u : State} {es fs : List Event} (h : Ran s es t) (k : Ran t fs u) : Ran s (es ++ fs) u where
  answered := (answers_append _ _ _).2 ⟨h.answered, (answers_congr h.outside fs) ▸ k.answered⟩
  outside := by rw [k.outside, noteAll_outside_congr h.outside, noteAll_append]
  cfg := k.cfg.trans h.cfg
  responses := k.responses.trans h.responses
  port := k.port.trans h.port
  resetInput := k.resetInput.trans h.resetInput
  order := k.order.trans h.order

end Sys2Proof.Machine
end

