-- ==== Sys2Proof/Laws/BitEngine.lean ====
section
/-!
SUPPORT. The byte transfers, said once: what `shiftOut`, `shiftIn`, `xferOut` and `xferIn` do to a state
(spec/40_bit_engine.md R112 to R114).
-/

namespace Sys2Proof.Machine

/-! ### Sending -/

/-- `shift_out(v, ord)`: the 24 events of the byte, `SR` empty, `DOUT` at the last bit, the clock idle. -/
theorem shiftOut_eq (v : Byte) (ord : BitOrder) (s : State) :
    shiftOut v ord s =
      { s.noteAll (txEvents s.cfg.cpol ord v) with
        sr := 0#8, dout := wireBit ord v 7, sck := s.cfg.cpol, bitcnt := 0 } := by
  have left : ∀ v : Byte, v <<< 8 = 0#8 := by decide
  have right : ∀ v : Byte, v >>> 8 = 0#8 := by decide
  cases ord <;>
    simp [shiftOut, bitSlots, shiftOutBit, txEvents, State.driveSck, State.driveDout, State.note, outBit, shiftedOut,
      wireBit, left, right]

/-! ### Receiving -/

theorem getLsbD_shiftedIn_msb (sr : Byte) (d : Bool) (i : Nat) :
    (shiftedIn .msbFirst sr d).getLsbD i = if i = 0 then d else (decide (i < 8) && sr.getLsbD (i - 1)) := by
  simp only [shiftedIn, BitVec.getLsbD_append, BitVec.getLsbD_extractLsb', BitVec.getLsbD_ofBool]
  rcases i with _ | i
  · simp
  · simp [show i + 1 < 8 ↔ i < 7 by omega]

theorem getLsbD_shiftedIn_lsb (sr : Byte) (d : Bool) (i : Nat) :
    (shiftedIn .lsbFirst sr d).getLsbD i = if i = 7 then d else (decide (i < 7) && sr.getLsbD (i + 1)) := by
  simp only [shiftedIn, BitVec.getLsbD_append, BitVec.getLsbD_extractLsb', BitVec.getLsbD_ofBool]
  by_cases h : i < 7
  · have : i ≠ 7 := by omega
    simp [h, this, Nat.add_comm]
  · by_cases h' : i = 7
    · simp [h']
    · have : ¬ i - 7 = 0 := by omega
      simp [h, h', this]

/-- The events of a run of received bits. -/
def rxBits (cpol : Bool) (ds : List Bool) : List Event :=
  ds.flatMap fun d => [.pin .sck (!cpol), .sample d, .pin .sck cpol]

/-- One received bit. -/
theorem shiftInBit_eq (ord : BitOrder) (s : State) (k : Fin 8) :
    ∃ d, s.answers (rxBits s.cfg.cpol [d]) = true ∧
      shiftInBit ord s k =
        { s.noteAll (rxBits s.cfg.cpol [d]) with
          sr := shiftedIn ord s.sr d, sck := s.cfg.cpol, bitcnt := k.succ } := by
  refine ⟨(s.driveSck (!s.cfg.cpol)).sampleAnswer, ?_, ?_⟩
  · simp only [rxBits, List.flatMap_cons, List.flatMap_nil, List.append_nil, answers_cons, answers_nil]
    refine ⟨rfl, ?_, rfl, trivial⟩
    exact beq_iff_eq.2 (sampleAnswer_congr rfl)
  · rfl

/-- A run of received bits, one per slot. -/
theorem foldl_shiftInBit_eq (ord : BitOrder) (k : Fin 8) (ks : List (Fin 8)) (s : State) :
    ∃ ds : List Bool, ds.length = ks.length + 1 ∧ s.answers (rxBits s.cfg.cpol ds) = true ∧
      (k :: ks).foldl (shiftInBit ord) s =
        { s.noteAll (rxBits s.cfg.cpol ds) with
          sr := ds.foldl (shiftedIn ord) s.sr, sck := s.cfg.cpol, bitcnt := ((k :: ks).getLast (by simp)).succ } := by
  induction ks generalizing k s with
  | nil =>
    obtain ⟨d, ha, he⟩ := shiftInBit_eq ord s k
    exact ⟨[d], rfl, ha, by simpa using he⟩
  | cons k' ks ih =>
    obtain ⟨d, ha, he⟩ := shiftInBit_eq ord s k
    obtain ⟨ds, hl, hb, hf⟩ := ih k' (shiftInBit ord s k)
    have hcfg : (shiftInBit ord s k).cfg = s.cfg := by rw [he]; simp
    have hsplit : rxBits s.cfg.cpol (d :: ds) = rxBits s.cfg.cpol [d] ++ rxBits s.cfg.cpol ds := by simp [rxBits]
    have hout : (shiftInBit ord s k).outside = (s.noteAll (rxBits s.cfg.cpol [d])).outside := by simp only [he, State.outside]
    refine ⟨d :: ds, by simp [hl], ?_, ?_⟩
    · rw [hsplit, answers_append]
      exact ⟨ha, by rw [← answers_congr hout, ← hcfg]; exact hb⟩
    · rw [List.foldl_cons, hf, hcfg, hsplit]
      simp only [noteAll_append]
      rw [noteAll_eq, noteAll_eq (s.noteAll (rxBits s.cfg.cpol [d])), he]
      simp

theorem eight_bits (ds : List Bool) (h : ds.length = 8) :
    ∃ d0 d1 d2 d3 d4 d5 d6 d7, ds = [d0, d1, d2, d3, d4, d5, d6, d7] := by
  match ds, h with
  | [d0, d1, d2, d3, d4, d5, d6, d7], _ => exact ⟨d0, d1, d2, d3, d4, d5, d6, d7, rfl⟩

/-- `shift_in(ord)`: some byte comes in bit by bit as the oracle answers; `SR` holds it and the clock is idle. -/
theorem shiftIn_eq (ord : BitOrder) (s : State) :
    ∃ v, s.answers (rxEvents s.cfg.cpol ord v) = true ∧
      shiftIn ord s =
        { s.noteAll (rxEvents s.cfg.cpol ord v) with sr := v, sck := s.cfg.cpol, bitcnt := 0 } := by
  obtain ⟨ds, hl, ha, hf⟩ := foldl_shiftInBit_eq ord 0 [1, 2, 3, 4, 5, 6, 7] s
  obtain ⟨d0, d1, d2, d3, d4, d5, d6, d7, rfl⟩ := eight_bits ds hl
  have hbits : rxEvents s.cfg.cpol ord ([d0, d1, d2, d3, d4, d5, d6, d7].foldl (shiftedIn ord) s.sr) =
      rxBits s.cfg.cpol [d0, d1, d2, d3, d4, d5, d6, d7] := by
    cases ord <;>
      simp [rxEvents, rxBits, bitSlots, wireBit, getLsbD_shiftedIn_msb, getLsbD_shiftedIn_lsb,
        -BitVec.getLsbD_eq_getElem]
  refine ⟨_, by rw [hbits]; exact ha, ?_⟩
  rw [hbits, shiftIn, bitSlots, hf]

/-! ### Bytes with their pin check -/

theorem noteTransfer_eq (s : State) : noteTransfer s = { s with bus := busAfterByte s.bus } := by
  rcases s with ⟨cfg, sck, dout, sr, bitcnt, order, bus⟩
  cases bus <;> rfl

/-- Sending draws nothing. -/
theorem answers_txEvents (s : State) (cpol : Bool) (ord : BitOrder) (v : Byte) :
    s.answers (txEvents cpol ord v) = true := by
  simp [txEvents, bitSlots, answers_cons, State.answersEvent]

/-- `pin_fault()`. -/
theorem pinFault_eq (s : State) : s.pinFault = (s.pinFaultAnswer, s.note (.pinCheck s.pinFaultAnswer)) := rfl

theorem sending_eq (v : Byte) (ord : BitOrder) (s : State) :
    shiftOut v ord (noteTransfer s) =
      { s.noteAll (txEvents s.cfg.cpol ord v) with
        sr := 0#8, dout := wireBit ord v 7, sck := s.cfg.cpol, bitcnt := 0, bus := busAfterByte s.bus } := by
  rw [shiftOut_eq, noteTransfer_eq, noteAll_eq, noteAll_eq]

/-- `xfer_out(v, ord)`: a byte out and one pin check. -/
theorem xferOut_eq (v : Byte) (ord : BitOrder) (s : State) :
    ∃ fault, s.answers (sentByte s.cfg.cpol ord fault v) = true ∧
      xferOut v ord s =
        (!fault,
          { s.noteAll (sentByte s.cfg.cpol ord fault v) with
            sr := 0#8, dout := wireBit ord v 7, sck := s.cfg.cpol, bitcnt := 0, bus := busAfterByte s.bus }) := by
  have he := sending_eq v ord s
  rw [xferOut]
  revert he
  generalize shiftOut v ord (noteTransfer s) = w
  intro he
  have hout : w.outside = (s.noteAll (txEvents s.cfg.cpol ord v)).outside := by simp only [he, State.outside]
  refine ⟨w.pinFaultAnswer, ?_, ?_⟩
  · rw [sentByte, answers_append]
    exact ⟨answers_txEvents _ _ _ _, (answers_pinCheck _ _).2 (pinFaultAnswer_congr hout)⟩
  · rw [pinFault_eq, sentByte, noteAll_append]
    generalize w.pinFaultAnswer = f
    subst he
    generalize s.noteAll (txEvents s.cfg.cpol ord v) = u
    rfl

theorem receiving_eq (ord : BitOrder) (s : State) :
    ∃ v, s.answers (rxEvents s.cfg.cpol ord v) = true ∧
      shiftIn ord (noteTransfer s) =
        { s.noteAll (rxEvents s.cfg.cpol ord v) with
          sr := v, sck := s.cfg.cpol, bitcnt := 0, bus := busAfterByte s.bus } := by
  obtain ⟨v, ha, he⟩ := shiftIn_eq ord (noteTransfer s)
  rw [noteTransfer_eq] at ha
  refine ⟨v, (answers_congr (s := s) rfl _).symm.trans ha, ?_⟩
  rw [he, noteTransfer_eq, noteAll_eq, noteAll_eq]

/-- `xfer_in(ord)`: a byte in and one pin check. -/
theorem xferIn_eq (ord : BitOrder) (s : State) :
    ∃ fault v, s.answers (receivedByte s.cfg.cpol ord fault v) = true ∧
      xferIn ord s =
        (!fault,
          { s.noteAll (receivedByte s.cfg.cpol ord fault v) with
            sr := v, sck := s.cfg.cpol, bitcnt := 0, bus := busAfterByte s.bus }) := by
  obtain ⟨v, ha, he⟩ := receiving_eq ord s
  rw [xferIn]
  revert he
  generalize shiftIn ord (noteTransfer s) = w
  intro he
  have hout : w.outside = (s.noteAll (rxEvents s.cfg.cpol ord v)).outside := by simp only [he, State.outside]
  refine ⟨w.pinFaultAnswer, v, ?_, ?_⟩
  · rw [receivedByte, answers_append]
    exact ⟨ha, (answers_pinCheck _ _).2 (pinFaultAnswer_congr hout)⟩
  · rw [pinFault_eq, receivedByte, noteAll_append]
    generalize w.pinFaultAnswer = f
    subst he
    generalize s.noteAll (rxEvents s.cfg.cpol ord v) = u
    rfl

/-! ### The answers determine the byte -/

/-- The oracles answer a draw in one way only. -/
theorem answers_pinCheck_unique {s : State} {es : List Event} {f g : Bool}
    (hf : s.answers (es ++ [.pinCheck f]) = true) (hg : s.answers (es ++ [.pinCheck g]) = true) : f = g := by
  rw [answers_append] at hf hg
  exact ((answers_pinCheck _ _).1 hf.2).trans ((answers_pinCheck _ _).1 hg.2).symm

theorem answers_rxBits_unique {s : State} {cpol : Bool} {ds es : List Bool} (hl : ds.length = es.length)
    (hd : s.answers (rxBits cpol ds) = true) (he : s.answers (rxBits cpol es) = true) : ds = es := by
  induction ds generalizing s es with
  | nil => exact (List.length_eq_zero_iff.1 hl.symm).symm
  | cons d ds ih =>
    match es, hl with
    | e :: es, hl =>
      simp only [rxBits, List.flatMap_cons, List.cons_append, List.nil_append, answers_cons] at hd he
      have hde : d = e := (beq_iff_eq.1 hd.2.1).trans (beq_iff_eq.1 he.2.1).symm
      subst hde
      exact congrArg _ (ih (Nat.succ.inj hl) hd.2.2.2 he.2.2.2)

/-- A byte is its bits on the wire. -/
theorem wireBit_injective {ord : BitOrder} {v w : Byte}
    (h : bitSlots.map (wireBit ord v) = bitSlots.map (wireBit ord w)) : v = w := by
  simp only [bitSlots, List.map_cons, List.map_nil, List.cons.injEq, and_true] at h
  apply BitVec.eq_of_getLsbD_eq
  intro i hi
  cases ord <;> simp only [wireBit] at h <;> interval_cases i <;> simp_all

theorem rxEvents_eq_rxBits (cpol : Bool) (ord : BitOrder) (v : Byte) :
    rxEvents cpol ord v = rxBits cpol (bitSlots.map (wireBit ord v)) := by
  rw [rxEvents, rxBits, List.flatMap_map]

theorem answers_rxEvents_unique {s : State} {cpol : Bool} {ord : BitOrder} {v w : Byte}
    (hv : s.answers (rxEvents cpol ord v) = true) (hw : s.answers (rxEvents cpol ord w) = true) : v = w := by
  rw [rxEvents_eq_rxBits] at hv hw
  exact wireBit_injective (answers_rxBits_unique (by simp) hv hw)

/-- `xfer_out` when the pin check is answered `fault`. -/
theorem xferOut_of_answers {v : Byte} {ord : BitOrder} {s : State} {fault : Bool}
    (h : s.answers (sentByte s.cfg.cpol ord fault v) = true) :
    xferOut v ord s =
      (!fault,
        { s.noteAll (sentByte s.cfg.cpol ord fault v) with
          sr := 0#8, dout := wireBit ord v 7, sck := s.cfg.cpol, bitcnt := 0, bus := busAfterByte s.bus }) := by
  obtain ⟨f, hf, he⟩ := xferOut_eq v ord s
  rwa [answers_pinCheck_unique hf h] at he

/-- `xfer_in` when the samples give `v` and the pin check is answered `fault`. -/
theorem xferIn_of_answers {v : Byte} {ord : BitOrder} {s : State} {fault : Bool}
    (h : s.answers (receivedByte s.cfg.cpol ord fault v) = true) :
    xferIn ord s =
      (!fault,
        { s.noteAll (receivedByte s.cfg.cpol ord fault v) with
          sr := v, sck := s.cfg.cpol, bitcnt := 0, bus := busAfterByte s.bus }) := by
  obtain ⟨f, w, hf, he⟩ := xferIn_eq ord s
  have hw : w = v := answers_rxEvents_unique ((answers_append _ _ _).1 hf).1 ((answers_append _ _ _).1 h).1
  subst hw
  rwa [answers_pinCheck_unique hf h] at he

end Sys2Proof.Machine
end

