-- ==== Sys2Proof/Laws/Expander.lean ====
section
/-!
SUPPORT. The expander procedures, said once: what `validate`, `doDeselect` and `doSelect` do to a state
(spec/41_expander_select.md R142, R143, R145), and the value of the output register bit by bit (R141).
-/

namespace Sys2Proof.Machine

/-! ### Register accesses -/

theorem expWrite_eq (s : State) (a : RegAddr) (v : RegValue) :
    ∃ ok, s.answers [.expW a v ok] = true ∧ s.expWrite a v = (ok, s.note (.expW a v ok)) :=
  ⟨s.expAckAnswer a v, (answers_expW _ _ _ _).2 rfl, rfl⟩

theorem expRead_eq (s : State) (a : RegAddr) :
    ∃ r, s.answers [.expR a r] = true ∧ s.expRead a = (r, s.note (.expR a r)) :=
  ⟨s.expReadAnswer a, (answers_expR _ _ _).2 rfl, rfl⟩

theorem expWrite_of_answers {s : State} {a : RegAddr} {v : RegValue} {ok : Bool}
    (h : s.answers [.expW a v ok] = true) : s.expWrite a v = (ok, s.note (.expW a v ok)) := by
  have : ok = s.expAckAnswer a v := (answers_expW _ _ _ _).1 h
  subst this; rfl

theorem expRead_of_answers {s : State} {a : RegAddr} {r : Option RegValue}
    (h : s.answers [.expR a r] = true) : s.expRead a = (r, s.note (.expR a r)) := by
  have : r = s.expReadAnswer a := (answers_expR _ _ _).1 h
  subst this; rfl

/-! ### The three procedures, for the answers they get -/

/-- `do_deselect()` when its write is answered `ok`. -/
theorem doDeselect_of_answers {s : State} {ok : Bool}
    (h : s.answers [deselectWrite s.cfg.toConfig ok] = true) :
    doDeselect s =
      (ok,
        { s.noteAll [deselectWrite s.cfg.toConfig ok] with
          bus := .idle, seldev := none, halted := s.halted || !ok,
          outShadow := if ok = true then some (selValue s.cfg.toConfig none) else none }) := by
  rw [doDeselect, expWrite_of_answers (by exact h)]
  cases ok <;> simp [deselectWrite, State.note]

/-- `do_select(d)` when its write succeeds. -/
theorem doSelect_of_ok {s : State} {d : Device} (h : s.answers [selectWrite s.cfg.toConfig d true] = true) :
    doSelect d s =
      (true,
        { s.noteAll [selectWrite s.cfg.toConfig d true] with
          bus := .selected, seldev := some d, outShadow := some (selValue s.cfg.toConfig (some d)) }) := by
  rw [doSelect, expWrite_of_answers (by exact h)]
  simp [selectWrite, State.note]

/-- `do_select(d)` when its write fails: one fail-safe deselect, answered `ok`. -/
theorem doSelect_of_failed {s : State} {d : Device} {ok : Bool}
    (h : s.answers [selectWrite s.cfg.toConfig d false, deselectWrite s.cfg.toConfig ok] = true) :
    doSelect d s =
      (false,
        { s.noteAll [selectWrite s.cfg.toConfig d false, deselectWrite s.cfg.toConfig ok] with
          bus := .idle, seldev := none, halted := s.halted || !ok,
          outShadow := if ok = true then some (selValue s.cfg.toConfig none) else none }) := by
  have h' := (answers_append s [selectWrite s.cfg.toConfig d false] [deselectWrite s.cfg.toConfig ok]).1 h
  rw [doSelect, expWrite_of_answers (by exact h'.1)]
  simp only [Bool.false_eq_true, if_false]
  have hd := doDeselect_of_answers (ok := ok)
    (s := { s.note (selectWrite s.cfg.toConfig d false) with outShadow := none })
    ((answers_congr (by simp only [State.outside, noteAll_cons, noteAll_nil]) _).trans h'.2)
  exact congrArg (fun p => (false, p.2)) hd

/-- `validate()` when the scratch write fails. -/
theorem validate_of_failed {s : State} (h : s.answers [scratchWrite s.cfg.toConfig false] = true) :
    validate s = (false, s.noteAll [scratchWrite s.cfg.toConfig false]) := by
  rw [validate, expWrite_of_answers (by exact h)]
  rfl

/-- `validate()` when the scratch write succeeds and the read answers `r`. -/
theorem validate_of_read {s : State} {r : Option RegValue}
    (h : s.answers [scratchWrite s.cfg.toConfig true, .expR s.cfg.expScratchReg r] = true) :
    validate s =
      (r == some s.cfg.expPattern,
        s.noteAll [scratchWrite s.cfg.toConfig true, .expR s.cfg.expScratchReg r]) := by
  have h' := (answers_append s [scratchWrite s.cfg.toConfig true] [.expR s.cfg.expScratchReg r]).1 h
  rw [validate, expWrite_of_answers (by exact h'.1)]
  simp only [if_true]
  rw [expRead_of_answers (by exact h'.2)]
  rfl

/-! ### Every answer they can get -/

theorem deselectWrite_answered (s : State) : ∃ ok, s.answers [deselectWrite s.cfg.toConfig ok] = true := by
  obtain ⟨ok, h, -⟩ := expWrite_eq s s.cfg.expOutReg (selValue s.cfg.toConfig none)
  exact ⟨ok, h⟩

theorem selectWrite_answered (s : State) (d : Device) :
    s.answers [selectWrite s.cfg.toConfig d true] = true ∨
      ∃ ok, s.answers [selectWrite s.cfg.toConfig d false, deselectWrite s.cfg.toConfig ok] = true := by
  obtain ⟨ok, h, -⟩ := expWrite_eq s s.cfg.expOutReg (selValue s.cfg.toConfig (some d))
  cases ok with
  | true => exact .inl h
  | false =>
    obtain ⟨ok, h2⟩ := deselectWrite_answered (s.noteAll [selectWrite s.cfg.toConfig d false])
    exact .inr ⟨ok, (answers_append s [_] [_]).2 ⟨h, by simpa using h2⟩⟩

theorem scratchWrite_answered (s : State) :
    s.answers [scratchWrite s.cfg.toConfig false] = true ∨
      ∃ r, s.answers [scratchWrite s.cfg.toConfig true, .expR s.cfg.expScratchReg r] = true := by
  obtain ⟨ok, h, -⟩ := expWrite_eq s s.cfg.expScratchReg s.cfg.expPattern
  cases ok with
  | false => exact .inl h
  | true =>
    obtain ⟨r, h2, -⟩ := expRead_eq (s.noteAll [scratchWrite s.cfg.toConfig true]) s.cfg.expScratchReg
    exact .inr ⟨r, (answers_append s [_] [_]).2 ⟨h, h2⟩⟩

/-! ### The output register -/

theorem getLsbD_setBit (v : RegValue) (i : Nat) (b : Bool) (j : Nat) (hi : i < 16) :
    (setBit v i b).getLsbD j = if j = i then b else v.getLsbD j := by
  have one : (1#16).getLsbD (j - i) = decide (j - i = 0) := by
    rw [BitVec.getLsbD_one]; simp
  unfold setBit
  by_cases hj : j = i
  · subst hj
    cases b <;> simp [hi]
  · cases b
    · by_cases hlt : j < i
      · by_cases h16 : j < 16
        · simp [hj, hlt, h16]
        · simp [hj, BitVec.getLsbD_of_ge _ j (by omega : 16 ≤ j)]
      · have hne : j - i ≠ 0 := by omega
        by_cases h16 : j < 16
        · simp [hj, hlt, h16, hne]
        · simp [hj, BitVec.getLsbD_of_ge _ j (by omega : 16 ≤ j)]
    · by_cases hlt : j < i
      · simp [hj, hlt]
      · have hne : j - i ≠ 0 := by omega
        simp [hj, hlt, one, hne]

theorem AdmittedConfig_facts (c : AdmittedConfig) :
    c.flash.selLine ≠ c.eeprom.selLine ∧ c.flash.selLine < 16 ∧ c.eeprom.selLine < 16 ∧
      (1 ≤ c.flash.addrBytes ∧ c.flash.addrBytes ≤ 4) ∧ (1 ≤ c.eeprom.addrBytes ∧ c.eeprom.addrBytes ≤ 4) ∧
      c.expScratchReg ≠ c.expOutReg ∧ (∀ w ∈ c.initWrites, w.1 ≠ c.expOutReg) ∧
      c.maxLen < 2 ^ 32 ∧ c.maxBurst < 2 ^ 32 := by
  have h := c.admits
  simp only [Config.admitted, Config.linesDiffer, Config.linesInRange, Config.widthsInRange, Descriptor.widthInRange,
    Config.scratchApart, Config.initWritesApart, Config.lengthsInRange, Bool.and_eq_true, decide_eq_true_eq,
    List.all_eq_true, bne_iff_ne] at h
  obtain ⟨⟨⟨⟨⟨h1, h2, h3⟩, h4, h5⟩, h6⟩, h7⟩, h8, h9⟩ := h
  exact ⟨h1, by omega, by omega, h4, h5, h6, h7, h8, h9⟩

/-- R141 bit by bit. -/
theorem getLsbD_selValue (c : AdmittedConfig) (t : Option Device) (j : Nat) :
    (selValue c.toConfig t).getLsbD j =
      if j = c.eeprom.selLine then selLevel c.toConfig t .eeprom
      else if j = c.flash.selLine then selLevel c.toConfig t .flash
      else c.outBase.getLsbD j := by
  obtain ⟨-, h1, h2, -⟩ := AdmittedConfig_facts c
  rw [selValue, getLsbD_setBit _ _ _ _ h2, getLsbD_setBit _ _ _ _ h1]

end Sys2Proof.Machine
end

