-- ==== Sys2Proof/Laws/Lifecycle.lean ====
section
/-!
SUPPORT. The gate (spec/60_exceptions.md R243), the argument checks of `READ` and `DUMP` (spec/43_read_protocol.md R192,
R200) and the set-up writes of `INIT` (spec/44_lifecycle.md R220), said once.
-/

namespace Sys2Proof.Machine

/-! ### The gate -/

theorem gated_of_pass {g : GateCase} {s : State} {body : State → State} (h : gate g s = none) :
    gated g s body = body s := by rw [gated, h]

theorem gated_of_reject {g : GateCase} {s : State} {body : State → State} {code : Code} (h : gate g s = some code) :
    gated g s body = s.respond code none := by rw [gated, h]

/-- A ready engine lets every command pass but `INIT`. -/
theorem gate_of_ready {s : State} (h : s.Ready) {g : GateCase} (hg : g ≠ .init) : gate g s = none := by
  unfold gate
  rw [h.running, h.valid]
  cases g <;> simp_all

/-- A command either passes the gate, when the engine is not halted, or is rejected by it, with one of three codes. -/
theorem gate_cases (g : GateCase) (s : State) :
    (gate g s = none ∧ s.halted = false) ∨
      gate g s = some .engineHalted ∧ s.halted = true ∨
      gate g s = some .usageError ∨
      gate g s = some .expanderNotPresent ∧ s.handle = .notPresent ∧ g = .other := by
  unfold gate
  cases s.halted
  · cases g <;> cases s.handle <;> simp
  · simp

theorem gate_other_valid {s : State} (h : gate .other s = none) : s.Ready := by
  have h' : (s.halted, s.handle) = (false, .valid) := by
    unfold gate at h
    revert h
    cases s.halted <;> cases s.handle <;> simp
  exact ⟨congrArg Prod.fst h', congrArg Prod.snd h'⟩

theorem gate_init_pass {s : State} (h : gate .init s = none) : s.handle = .none ∨ s.handle = .released := by
  unfold gate at h
  revert h
  cases s.halted <;> cases s.handle <;> simp

theorem gate_release_pass {s : State} (h : gate .release s = none) : s.handle = .valid ∨ s.handle = .notPresent := by
  unfold gate at h
  revert h
  cases s.halted <;> cases s.handle <;> simp

theorem busClaimed_of_free {s : State} (h : s.Free) : s.busClaimed = false := by
  simp [State.busClaimed, h.no_session, h.bus_idle]

theorem not_busClaimed {s : State} (h : s.busClaimed = false) : s.session = false ∧ s.bus = .idle := by
  simpa [State.busClaimed] using h

/-- The gate and the conditions on session and bus together. -/
theorem free_of_pass {s : State} (hg : gate .other s = none) (hb : s.busClaimed = false) : s.Free :=
  { gate_other_valid hg with no_session := (not_busClaimed hb).1, bus_idle := (not_busClaimed hb).2 }

/-! ### The argument checks -/

theorem readArgsBad_iff {c : Config} {d : Device} {a n : Nat} :
    readArgsBad c d a n = true ↔ 2 ^ (8 * (c.desc d).addrBytes) ≤ a ∨ c.maxLen < n := by
  unfold readArgsBad addrLimit
  generalize 2 ^ (8 * (c.desc d).addrBytes) = m
  simp

theorem dumpArgsBad_iff {c : Config} {d : Device} {a n : Nat} :
    dumpArgsBad c d a n = true ↔
      2 ^ (8 * (c.desc d).addrBytes) ≤ a ∨ 2 ^ (8 * (c.desc d).addrBytes) < a + n := by
  unfold dumpArgsBad addrLimit
  generalize 2 ^ (8 * (c.desc d).addrBytes) = m
  simp

theorem readArgs_good {c : Config} {d : Device} {a n : Nat} (ha : a < 2 ^ (8 * (c.desc d).addrBytes))
    (hn : n ≤ c.maxLen) : readArgsBad c d a n = false := by
  rw [Bool.eq_false_iff, ne_eq, readArgsBad_iff]
  generalize 2 ^ (8 * (c.desc d).addrBytes) = m at *
  omega

theorem dumpArgs_good {c : Config} {d : Device} {a n : Nat} (ha : a < 2 ^ (8 * (c.desc d).addrBytes))
    (hn : a + n ≤ 2 ^ (8 * (c.desc d).addrBytes)) : dumpArgsBad c d a n = false := by
  rw [Bool.eq_false_iff, ne_eq, dumpArgsBad_iff]
  generalize 2 ^ (8 * (c.desc d).addrBytes) = m at *
  omega

/-! ### The set-up writes -/

/-- The events of set-up writes that all succeed. -/
def setupEvents (ws : List (RegAddr × RegValue)) : List Event := ws.map fun w => .expW w.1 w.2 true

theorem setupWrites_of_answers {ws : List (RegAddr × RegValue)} {s : State}
    (h : s.answers (setupEvents ws) = true) : setupWrites ws s = (true, s.noteAll (setupEvents ws)) := by
  induction ws generalizing s with
  | nil => rfl
  | cons w ws ih =>
    obtain ⟨h1, h2⟩ := (answers_append s [.expW w.1 w.2 true] (setupEvents ws)).1 h
    rw [setupWrites, expWrite_of_answers h1]
    exact ih h2

theorem setupWrites_of_fault {pre post : List (RegAddr × RegValue)} {w : RegAddr × RegValue} {s : State}
    (h : s.answers (setupEvents pre ++ [.expW w.1 w.2 false]) = true) :
    setupWrites (pre ++ w :: post) s = (false, s.noteAll (setupEvents pre ++ [.expW w.1 w.2 false])) := by
  induction pre generalizing s with
  | nil => rw [List.nil_append, setupWrites, expWrite_of_answers h]; rfl
  | cons p pre ih =>
    obtain ⟨h1, h2⟩ := (answers_append s [.expW p.1 p.2 true] (setupEvents pre ++ [.expW w.1 w.2 false])).1 h
    rw [List.cons_append, setupWrites, expWrite_of_answers h1]
    exact ih h2

/-- Every way the set-up writes can be answered. -/
theorem setup_answered (ws : List (RegAddr × RegValue)) (s : State) :
    s.answers (setupEvents ws) = true ∨
      ∃ pre w post, ws = pre ++ w :: post ∧ s.answers (setupEvents pre ++ [.expW w.1 w.2 false]) = true := by
  induction ws generalizing s with
  | nil => exact .inl rfl
  | cons w ws ih =>
    obtain ⟨ok, h, -⟩ := expWrite_eq s w.1 w.2
    cases ok with
    | false => exact .inr ⟨[], w, ws, rfl, h⟩
    | true =>
      rcases ih (s.noteAll [.expW w.1 w.2 true]) with h2 | ⟨pre, w', post, rfl, h2⟩
      · exact .inl ((answers_append s [_] (setupEvents ws)).2 ⟨h, h2⟩)
      · exact .inr ⟨w :: pre, w', post, rfl, (answers_append s [_] (setupEvents pre ++ [_])).2 ⟨h, h2⟩⟩

/-- `drive(SCK, CPOL); drive(DOUT, 0)`. -/
theorem idlePins_eq (s : State) :
    idlePins s =
      { s.noteAll [.pin .sck s.cfg.cpol, .pin .dout false] with sck := s.cfg.cpol, dout := false } := rfl

end Sys2Proof.Machine
end

