-- ==== Sys2Proof/Laws/PerInstr.lean ====
section
/-!
SUPPORT. A family of lemmas, one per command: the words that encode it start with a legal header (spec/30_encoding.md
R86) and are as many as that header announces (R84).
-/

namespace Sys2Proof.Laws.LegalHeader

/-- The encoding of a command has a legal header and the number of words that the header announces. -/
def Statement (i : Instr) : Prop :=
  ∃ h rest, encode i = h :: rest ∧ headerFault h = none ∧ headerWords h = rest.length + 1

theorem init : Statement .init := ⟨_, _, rfl, by decide, by decide⟩

theorem validateConfig : Statement .validateConfig := ⟨_, _, rfl, by decide, by decide⟩

theorem release : Statement .release := ⟨_, _, rfl, by decide, by decide⟩

theorem writeByte (value : Byte) : Statement (.writeByte value) :=
  ⟨_, _, rfl, by revert value; decide, by revert value; decide⟩

theorem readByte : Statement .readByte := ⟨_, _, rfl, by decide, by decide⟩

theorem expValidate : Statement .expValidate := ⟨_, _, rfl, by decide, by decide⟩

theorem select (device : Device) : Statement (.select device) :=
  ⟨_, _, rfl, by cases device <;> rfl, by cases device <;> rfl⟩

theorem deselectAll : Statement .deselectAll := ⟨_, _, rfl, by decide, by decide⟩

theorem sessionOpen (device : Device) : Statement (.sessionOpen device) :=
  ⟨_, _, rfl, by cases device <;> rfl, by cases device <;> rfl⟩

theorem sessionClose : Statement .sessionClose := ⟨_, _, rfl, by decide, by decide⟩

theorem read (device : Device) (startAddress length : Word) : Statement (.read device startAddress length) :=
  ⟨_, _, rfl, by cases device <;> rfl, by cases device <;> rfl⟩

theorem dump (device : Device) (startAddress totalLength : Word) : Statement (.dump device startAddress totalLength) :=
  ⟨_, _, rfl, by cases device <;> rfl, by cases device <;> rfl⟩

theorem setBitOrder (order : BitOrder) : Statement (.setBitOrder order) :=
  ⟨_, _, rfl, by cases order <;> decide, by cases order <;> decide⟩

end Sys2Proof.Laws.LegalHeader
end

