-- ==== Sys2Proof/Laws/ReadProtocol.lean ====
section
/-!
SUPPORT. The frame builder, said once: what `sendFrame`, `receiveBytes` and `readFrame` do to a state for the answers
they get, and that every answer is one of these (spec/43_read_protocol.md R193).
-/

namespace Sys2Proof.Machine

/-! ### Traces of frames -/

@[simp] theorem frameEvents_cons (c : Config) (b : Byte) (bs : List Byte) :
    frameEvents c (b :: bs) = sentByte c.cpol .msbFirst false b ++ frameEvents c bs := rfl

@[simp] theorem frameEvents_nil (c : Config) : frameEvents c [] = [] := rfl

@[simp] theorem dataEvents_cons (c : Config) (b : Byte) (bs : List Byte) :
    dataEvents c (b :: bs) = receivedByte c.cpol .msbFirst false b ++ dataEvents c bs := rfl

@[simp] theorem dataEvents_nil (c : Config) : dataEvents c [] = [] := rfl

/-- The bit that is last on the wire MSB-first. -/
theorem wireBit_msb_last (v : Byte) : wireBit .msbFirst v 7 = v.getLsbD 0 := rfl

/-! ### Sending the frame -/

/-- `sendFrame` when every byte goes out without a pin fault. -/
theorem sendFrame_of_answers {A : Nat} {b : Byte} {bs : List Byte} {s : State}
    (h : s.answers (frameEvents s.cfg.toConfig (b :: bs)) = true) :
    sendFrame A (b :: bs) s =
      (true,
        { s.noteAll (frameEvents s.cfg.toConfig (b :: bs)) with
          sr := 0#8, dout := ((b :: bs).getLast (by simp)).getLsbD 0, sck := s.cfg.cpol, bitcnt := 0,
          bus := busAfterByte s.bus, phase := framePhaseOf A 0 }) := by
  induction bs generalizing b s with
  | nil =>
    have hx := xferOut_of_answers (v := b) (ord := .msbFirst) (fault := false)
      (s := { s with phase := framePhaseOf A 0 }) (answers_of_outside (s := s) (by simpa using h) rfl)
    simp only [sendFrame, List.length_nil, hx]
    simp only [frameEvents_cons, frameEvents_nil, List.append_nil]
    rw [noteAll_eq, noteAll_eq]
    simp [wireBit_msb_last]
  | cons b' bs ih =>
    rw [frameEvents_cons, answers_append] at h
    have hx := xferOut_of_answers (v := b) (ord := .msbFirst) (fault := false)
      (s := { s with phase := framePhaseOf A (b' :: bs).length }) (answers_of_outside h.1 rfl)
    rw [sendFrame, hx]
    simp only [Bool.not_false, if_true]
    rw [ih (by
      refine answers_of_outside (by simpa using h.2) ?_
      simp only [State.outside, noteAll_eq])]
    rw [frameEvents_cons s.cfg.toConfig b, noteAll_append]
    rw [noteAll_eq, noteAll_eq, noteAll_eq (s := s.noteAll _), noteAll_eq s]
    rcases hb : s.bus <;> simp [busAfterByte]

/-- `sendFrame` when the byte after `pre` meets a pin fault. -/
theorem sendFrame_of_fault {A : Nat} {pre : List Byte} {b : Byte} {post : List Byte} {s : State}
    (h : s.answers (frameEvents s.cfg.toConfig pre ++ sentByte s.cfg.cpol .msbFirst true b) = true) :
    sendFrame A (pre ++ b :: post) s =
      (false,
        { s.noteAll (frameEvents s.cfg.toConfig pre ++ sentByte s.cfg.cpol .msbFirst true b) with
          sr := 0#8, dout := b.getLsbD 0, sck := s.cfg.cpol, bitcnt := 0, bus := busAfterByte s.bus,
          phase := framePhaseOf A post.length }) := by
  induction pre generalizing s with
  | nil =>
    have hx := xferOut_of_answers (v := b) (ord := .msbFirst) (fault := true)
      (s := { s with phase := framePhaseOf A post.length }) (answers_of_outside (s := s) (by simpa using h) rfl)
    rw [List.nil_append, sendFrame, hx]
    simp only [frameEvents_nil, List.nil_append, Bool.not_true, Bool.false_eq_true, if_false]
    rw [noteAll_eq, noteAll_eq]
    simp [wireBit_msb_last]
  | cons p pre ih =>
    rw [frameEvents_cons, List.append_assoc, answers_append] at h
    have hx := xferOut_of_answers (v := p) (ord := .msbFirst) (fault := false)
      (s := { s with phase := framePhaseOf A (pre ++ b :: post).length }) (answers_of_outside h.1 rfl)
    rw [List.cons_append, sendFrame]
    simp only [hx]
    simp only [Bool.not_false, if_true]
    rw [ih (by
      refine answers_of_outside (by simpa using h.2) ?_
      simp only [State.outside, noteAll_eq])]
    rw [frameEvents_cons, List.append_assoc, noteAll_append s]
    rw [noteAll_eq, noteAll_eq, noteAll_eq (s := s.noteAll _), noteAll_eq s]
    rcases hb : s.bus <;> simp [busAfterByte]

theorem sentByte_answered (s : State) (cpol : Bool) (ord : BitOrder) (b : Byte) :
    ∃ fault, s.answers (sentByte cpol ord fault b) = true :=
  ⟨_, (answers_append _ _ _).2 ⟨answers_txEvents s cpol ord b, (answers_pinCheck _ _).2 rfl⟩⟩

/-- Every way a frame can be answered. -/
theorem frame_answered (s : State) (bytes : List Byte) :
    s.answers (frameEvents s.cfg.toConfig bytes) = true ∨
      ∃ pre b post, bytes = pre ++ b :: post ∧
        s.answers (frameEvents s.cfg.toConfig pre ++ sentByte s.cfg.cpol .msbFirst true b) = true := by
  induction bytes generalizing s with
  | nil => exact .inl rfl
  | cons b bs ih =>
    obtain ⟨fault, hf⟩ := sentByte_answered s s.cfg.cpol .msbFirst b
    cases fault with
    | true => exact .inr ⟨[], b, bs, rfl, by simpa using hf⟩
    | false =>
      rcases ih (s.noteAll (sentByte s.cfg.cpol .msbFirst false b)) with h | ⟨pre, b', post, rfl, h⟩
      · exact .inl (by rw [frameEvents_cons, answers_append]; exact ⟨hf, by simpa using h⟩)
      · refine .inr ⟨b :: pre, b', post, rfl, ?_⟩
        rw [frameEvents_cons, List.append_assoc, answers_append]
        exact ⟨hf, by simpa using h⟩

/-! ### Receiving the data -/

/-- The frame phase after `n` data bytes from index `i` on. -/
def phaseAfterData (ph : FramePhase) (i : Nat) : Nat → FramePhase
  | 0 => ph
  | n + 1 => .data (i + n)

theorem busAfterByte_idem (b : BusState) : busAfterByte (busAfterByte b) = busAfterByte b := by
  cases b <;> rfl

/-- `receiveBytes` when every byte comes in without a pin fault, on an idle clock, after the frame. -/
theorem receiveBytes_of_answers {n i : Nat} {rx : List Byte} {s : State} (hn : rx.length = n)
    (hsck : s.sck = s.cfg.cpol) (hbit : s.bitcnt = 0) (hbus : busAfterByte s.bus = s.bus)
    (h : s.answers (dataEvents s.cfg.toConfig rx) = true) :
    receiveBytes n i s =
      (true,
        { s.noteAll (dataEvents s.cfg.toConfig rx) with
          sr := rx.getLast?.getD s.sr, phase := phaseAfterData s.phase i n, rxbuf := s.rxbuf ++ rx }) := by
  induction rx generalizing n i s with
  | nil => subst hn; simp [receiveBytes, phaseAfterData]
  | cons b rx ih =>
    subst hn
    rw [dataEvents_cons, answers_append] at h
    have hx := xferIn_of_answers (v := b) (ord := .msbFirst) (fault := false) (s := { s with phase := .data i }) (answers_of_outside h.1 rfl)
    rw [List.length_cons, receiveBytes, hx]
    simp only [Bool.not_false, if_true]
    rw [ih rfl (by simp) rfl (by simp only [busAfterByte_idem]) (by
      refine answers_of_outside (by simpa using h.2) ?_
      simp only [State.outside, noteAll_eq])]
    rw [dataEvents_cons s.cfg.toConfig b, noteAll_append]
    rw [noteAll_eq, noteAll_eq, noteAll_eq (s := s.noteAll _), noteAll_eq s]
    cases rx <;> simp [phaseAfterData, hbus, hsck, hbit, List.getLast?_cons, Nat.add_assoc, Nat.add_comm 1]

/-- `receiveBytes` when the byte after `pre` meets a pin fault. -/
theorem receiveBytes_of_fault {n i : Nat} {pre : List Byte} {b : Byte} {s : State} (hn : pre.length < n)
    (h : s.answers (dataEvents s.cfg.toConfig pre ++ receivedByte s.cfg.cpol .msbFirst true b) = true) :
    receiveBytes n i s =
      (false,
        { s.noteAll (dataEvents s.cfg.toConfig pre ++ receivedByte s.cfg.cpol .msbFirst true b) with
          sr := b, sck := s.cfg.cpol, bitcnt := 0, bus := busAfterByte s.bus, phase := .data (i + pre.length),
          rxbuf := s.rxbuf ++ pre }) := by
  induction pre generalizing n i s with
  | nil =>
    match n, hn with
    | n + 1, _ =>
      have hx := xferIn_of_answers (v := b) (ord := .msbFirst) (fault := true) (s := { s with phase := .data i }) (answers_of_outside (s := s) (by simpa using h) rfl)
      rw [receiveBytes, hx]
      simp only [dataEvents_nil, List.nil_append, Bool.not_true, Bool.false_eq_true, if_false]
      rw [noteAll_eq, noteAll_eq]
      simp
  | cons p pre ih =>
    match n, hn with
    | n + 1, hn =>
      rw [dataEvents_cons, List.append_assoc, answers_append] at h
      have hx := xferIn_of_answers (v := p) (ord := .msbFirst) (fault := false) (s := { s with phase := .data i }) (answers_of_outside h.1 rfl)
      rw [receiveBytes, hx]
      simp only [Bool.not_false, if_true]
      rw [ih (by simpa using hn) (by
        refine answers_of_outside (by simpa using h.2) ?_
        simp only [State.outside, noteAll_eq])]
      rw [dataEvents_cons, List.append_assoc, noteAll_append s]
      rw [noteAll_eq, noteAll_eq, noteAll_eq (s := s.noteAll _), noteAll_eq s]
      simp [busAfterByte_idem, Nat.add_assoc, Nat.add_comm 1]

theorem receivedByte_answered (s : State) (ord : BitOrder) :
    ∃ fault v, s.answers (receivedByte s.cfg.cpol ord fault v) = true := by
  obtain ⟨f, v, h, -⟩ := xferIn_eq ord s
  exact ⟨f, v, h⟩

/-- Every way `n` data bytes can be answered. -/
theorem data_answered (s : State) (n : Nat) :
    (∃ rx : List Byte, rx.length = n ∧ s.answers (dataEvents s.cfg.toConfig rx) = true) ∨
      ∃ (pre : List Byte) (b : Byte), pre.length < n ∧
        s.answers (dataEvents s.cfg.toConfig pre ++ receivedByte s.cfg.cpol .msbFirst true b) = true := by
  induction n generalizing s with
  | zero => exact .inl ⟨[], rfl, rfl⟩
  | succ n ih =>
    obtain ⟨fault, v, hf⟩ := receivedByte_answered s .msbFirst
    cases fault with
    | true => exact .inr ⟨[], v, by simp, by simpa using hf⟩
    | false =>
      rcases ih (s.noteAll (receivedByte s.cfg.cpol .msbFirst false v)) with ⟨rx, hl, h⟩ | ⟨pre, b, hl, h⟩
      · exact .inl ⟨v :: rx, by simp [hl], by rw [dataEvents_cons, answers_append]; exact ⟨hf, by simpa using h⟩⟩
      · refine .inr ⟨v :: pre, b, by simpa using hl, ?_⟩
        rw [dataEvents_cons, List.append_assoc, answers_append]
        exact ⟨hf, by simpa using h⟩

/-! ### The read sequence -/

theorem frame_ne_nil (c : Config) (d : Device) (a : Nat) : frame c d a ≠ [] := by simp [frame]

theorem addrBytesOf_getLast (a : Nat) (A : Nat) : (addrBytesOf a (A + 1)).getLast (by simp [addrBytesOf]) = addrByte a 0 := by
  induction A with
  | zero => rfl
  | succ A ih => rw [← ih]; exact List.getLast_cons _

/-- The last byte of a frame is `a[7:0]`. -/
theorem frame_getLast (c : AdmittedConfig) (d : Device) (a : Nat) :
    (frame c.toConfig d a).getLast (frame_ne_nil _ _ _) = addrByte a 0 := by
  obtain ⟨-, -, -, ⟨hf, -⟩, ⟨he, -⟩, -⟩ := AdmittedConfig_facts c
  have : 1 ≤ (c.desc d).addrBytes := by cases d <;> assumption
  obtain ⟨A, hA⟩ := Nat.exists_eq_add_of_le' this
  simp only [frame, hA]
  rw [List.getLast_cons (by simp [addrBytesOf]), addrBytesOf_getLast]

theorem addrByte_zero_bit (a : Nat) : (addrByte a 0).getLsbD 0 = a.testBit 0 := by
  rw [addrByte, BitVec.getLsbD_ofNat]
  simp

/-- `cleanup()` when its write is answered `ok`. -/
theorem cleanup_of_answers {s : State} {ok : Bool} (h : s.answers [deselectWrite s.cfg.toConfig ok] = true) :
    cleanup s =
      { s.noteAll [deselectWrite s.cfg.toConfig ok] with
        session := false, bus := .idle, seldev := none, halted := s.halted || !ok,
        outShadow := if ok = true then some (selValue s.cfg.toConfig none) else none } := by
  have hd := doDeselect_of_answers (ok := ok) (s := { s with session := false }) (answers_of_outside h rfl)
  rw [cleanup, hd]
  simp only [noteAll_eq]

/-- The state after a device is selected: what the answers that follow are drawn from. -/
theorem answers_after {s t : State} {es fs : List Event} (h : s.answers (es ++ fs) = true)
    (ht : t.outside = (s.noteAll es).outside) : t.answers fs = true :=
  answers_of_outside ((answers_append _ _ _).1 h).2 ht

/-- A selection, a run of events and a deselection, in three pieces. -/
theorem noteAll_frame (s : State) (e f : Event) (es : List Event) :
    s.noteAll (e :: (es ++ [f])) = ((s.noteAll [e]).noteAll es).noteAll [f] := by
  rw [noteAll_cons, noteAll_append]; rfl

theorem answers_before {s : State} {es fs : List Event} (h : s.answers (es ++ fs) = true) : s.answers es = true :=
  ((answers_append _ _ _).1 h).1

/-- `read_frame` when the select write fails. -/
theorem readFrame_of_unselected {s : State} {d : Device} {a n : Nat} {ok : Bool}
    (h : s.answers [selectWrite s.cfg.toConfig d false, deselectWrite s.cfg.toConfig ok] = true) :
    readFrame d a n s =
      { code := .selectFailure, rx := []
        after :=
          { s.noteAll [selectWrite s.cfg.toConfig d false, deselectWrite s.cfg.toConfig ok] with
            bus := .idle, seldev := none, halted := s.halted || !ok,
            outShadow := if ok = true then some (selValue s.cfg.toConfig none) else none,
            phase := .idle, rxbuf := [] } } := by
  rw [readFrame, openSession, doSelect_of_failed h]
  rfl

/-- `read_frame` when the frame byte after `pre` meets a pin fault. -/
theorem readFrame_of_frame_fault {s : State} {d : Device} {a n : Nat} {pre : List Byte} {b : Byte} {post : List Byte}
    {ok : Bool} (hf : frame s.cfg.toConfig d a = pre ++ b :: post)
    (h : s.answers (selectWrite s.cfg.toConfig d true :: (frameEvents s.cfg.toConfig pre ++
      sentByte s.cfg.cpol .msbFirst true b ++ [deselectWrite s.cfg.toConfig ok])) = true) :
    readFrame d a n s =
      { code := .transferAborted, rx := []
        after :=
          { s.noteAll (selectWrite s.cfg.toConfig d true :: (frameEvents s.cfg.toConfig pre ++
              sentByte s.cfg.cpol .msbFirst true b ++ [deselectWrite s.cfg.toConfig ok])) with
            sr := 0#8, dout := b.getLsbD 0, sck := s.cfg.cpol, bitcnt := 0, session := false
            bus := .idle, seldev := none, halted := s.halted || !ok,
            outShadow := if ok = true then some (selValue s.cfg.toConfig none) else none,
            phase := .idle, rxbuf := [] } } := by
  rw [← List.singleton_append, ← List.append_assoc] at h
  have h1 := answers_before (answers_before h)
  rw [readFrame, openSession, doSelect_of_ok h1]
  simp only [if_true, noteAll_cfg, hf]
  rw [sendFrame_of_fault (by
    refine answers_after (answers_before h) ?_
    simp only [State.outside, noteAll_eq])]
  simp only [noteAll_cfg, ne_eq, not_true, if_false, Bool.not_false, if_true, endFrame]
  rw [cleanup_of_answers (ok := ok) (by
    refine answers_after h ?_
    simp only [noteAll_append]
    simp only [State.outside, noteAll_eq])]
  rw [noteAll_frame]
  simp only [noteAll_eq]

/-- `read_frame` when the data byte after `pre` meets a pin fault. -/
theorem readFrame_of_data_fault {s : State} {d : Device} {a n : Nat} {pre : List Byte} {b : Byte} {ok : Bool}
    (hn : pre.length < n)
    (h : s.answers (selectWrite s.cfg.toConfig d true :: (frameEvents s.cfg.toConfig (frame s.cfg.toConfig d a) ++
      (dataEvents s.cfg.toConfig pre ++ receivedByte s.cfg.cpol .msbFirst true b) ++
      [deselectWrite s.cfg.toConfig ok])) = true) :
    readFrame d a n s =
      { code := .transferAborted, rx := []
        after :=
          { s.noteAll (selectWrite s.cfg.toConfig d true :: (frameEvents s.cfg.toConfig (frame s.cfg.toConfig d a) ++
              (dataEvents s.cfg.toConfig pre ++ receivedByte s.cfg.cpol .msbFirst true b) ++
              [deselectWrite s.cfg.toConfig ok])) with
            sr := b, dout := a.testBit 0, sck := s.cfg.cpol, bitcnt := 0, session := false
            bus := .idle, seldev := none, halted := s.halted || !ok,
            outShadow := if ok = true then some (selValue s.cfg.toConfig none) else none,
            phase := .idle, rxbuf := [] } } := by
  rw [← List.singleton_append, ← List.append_assoc, ← List.append_assoc] at h
  have h1 := answers_before (answers_before (answers_before h))
  have h2 := answers_before (answers_before h)
  have h3 := answers_before h
  obtain ⟨o, os, hframe⟩ := List.exists_cons_of_ne_nil (frame_ne_nil s.cfg.toConfig d a)
  have hlast := frame_getLast s.cfg d a
  rw [readFrame, openSession, doSelect_of_ok h1]
  simp only [if_true, noteAll_cfg]
  simp only [hframe] at h h2 h3 hlast ⊢
  rw [sendFrame_of_answers (by
    refine answers_after h2 ?_
    simp only [State.outside, noteAll_eq])]
  simp only [noteAll_cfg, ne_eq, not_true, if_false, Bool.not_true, endFrame, Bool.false_eq_true]
  rw [receiveBytes_of_fault hn (by
    refine answers_after h3 ?_
    simp only [noteAll_append]
    simp only [State.outside, noteAll_eq])]
  simp only [noteAll_cfg, Bool.not_false, if_true]
  rw [cleanup_of_answers (ok := ok) (by
    refine answers_after h ?_
    simp only [noteAll_append s]
    simp only [State.outside, noteAll_eq])]
  simp only [noteAll_frame, noteAll_append]
  simp only [noteAll_eq, hlast, addrByte_zero_bit]

/-- `read_frame` when every byte goes through. -/
theorem readFrame_of_answers {s : State} {d : Device} {a n : Nat} {rx : List Byte} {ok : Bool}
    (hn : rx.length = n)
    (h : s.answers (selectWrite s.cfg.toConfig d true :: (frameEvents s.cfg.toConfig (frame s.cfg.toConfig d a) ++
      dataEvents s.cfg.toConfig rx ++ [deselectWrite s.cfg.toConfig ok])) = true) :
    readFrame d a n s =
      { code := if ok = true then .ok else .selectFailure, rx := if ok = true then rx else []
        after :=
          { s.noteAll (selectWrite s.cfg.toConfig d true :: (frameEvents s.cfg.toConfig (frame s.cfg.toConfig d a) ++
              dataEvents s.cfg.toConfig rx ++ [deselectWrite s.cfg.toConfig ok])) with
            sr := rx.getLast?.getD 0#8, dout := a.testBit 0, sck := s.cfg.cpol, bitcnt := 0
            bus := .idle, seldev := none, halted := s.halted || !ok,
            outShadow := if ok = true then some (selValue s.cfg.toConfig none) else none,
            phase := .idle, rxbuf := [] } } := by
  rw [← List.singleton_append, ← List.append_assoc, ← List.append_assoc] at h
  have h1 := answers_before (answers_before (answers_before h))
  have h2 := answers_before (answers_before h)
  have h3 := answers_before h
  obtain ⟨o, os, hframe⟩ := List.exists_cons_of_ne_nil (frame_ne_nil s.cfg.toConfig d a)
  have hlast := frame_getLast s.cfg d a
  rw [readFrame, openSession, doSelect_of_ok h1]
  simp only [if_true, noteAll_cfg]
  simp only [hframe] at h h2 h3 hlast ⊢
  rw [sendFrame_of_answers (by
    refine answers_after h2 ?_
    simp only [State.outside, noteAll_eq])]
  simp only [noteAll_cfg, ne_eq, not_true, if_false, Bool.not_true, endFrame, Bool.false_eq_true]
  rw [receiveBytes_of_answers (i := 0) hn (by simp) rfl (by simp only [busAfterByte]) (by
    refine answers_after h3 ?_
    simp only [noteAll_append]
    simp only [State.outside, noteAll_eq])]
  simp only [noteAll_cfg, Bool.not_true, Bool.false_eq_true, if_false, closeSession]
  rw [doDeselect_of_answers (ok := ok) (by
    refine answers_after h ?_
    simp only [noteAll_append s]
    simp only [State.outside, noteAll_eq])]
  simp only [noteAll_frame, noteAll_append]
  simp only [hlast, addrByte_zero_bit]
  cases ok <;> simp [noteAll_eq]

/-- Every way a read sequence can be answered. -/
theorem read_answered (s : State) (d : Device) (a n : Nat) : ∃ ok,
    s.answers [selectWrite s.cfg.toConfig d false, deselectWrite s.cfg.toConfig ok] = true ∨
    (∃ pre b post, frame s.cfg.toConfig d a = pre ++ b :: post ∧
      s.answers (selectWrite s.cfg.toConfig d true :: (frameEvents s.cfg.toConfig pre ++
        sentByte s.cfg.cpol .msbFirst true b ++ [deselectWrite s.cfg.toConfig ok])) = true) ∨
    (∃ (pre : List Byte) (b : Byte), pre.length < n ∧
      s.answers (selectWrite s.cfg.toConfig d true :: (frameEvents s.cfg.toConfig (frame s.cfg.toConfig d a) ++
        (dataEvents s.cfg.toConfig pre ++ receivedByte s.cfg.cpol .msbFirst true b) ++
        [deselectWrite s.cfg.toConfig ok])) = true) ∨
    ∃ rx : List Byte, rx.length = n ∧
      s.answers (selectWrite s.cfg.toConfig d true :: (frameEvents s.cfg.toConfig (frame s.cfg.toConfig d a) ++
        dataEvents s.cfg.toConfig rx ++ [deselectWrite s.cfg.toConfig ok])) = true := by
  rcases selectWrite_answered s d with h1 | ⟨ok, h⟩
  · have close : ∀ es, s.answers (selectWrite s.cfg.toConfig d true :: es) = true →
        ∃ ok, s.answers (selectWrite s.cfg.toConfig d true :: (es ++ [deselectWrite s.cfg.toConfig ok])) = true := by
      intro es h
      obtain ⟨ok, hok⟩ := deselectWrite_answered (s.noteAll (selectWrite s.cfg.toConfig d true :: es))
      exact ⟨ok, (answers_append s (_ :: es) [_]).2 ⟨h, by simpa only [noteAll_cfg] using hok⟩⟩
    have after : ∀ es, (s.noteAll [selectWrite s.cfg.toConfig d true]).answers es = true →
        s.answers (selectWrite s.cfg.toConfig d true :: es) = true :=
      fun es h => (answers_append s [_] es).2 ⟨h1, h⟩
    rcases frame_answered (s.noteAll [selectWrite s.cfg.toConfig d true]) (frame s.cfg.toConfig d a) with
      h2 | ⟨pre, b, post, hf, h2⟩
    · rw [noteAll_cfg] at h2
      rcases data_answered ((s.noteAll [selectWrite s.cfg.toConfig d true]).noteAll
        (frameEvents s.cfg.toConfig (frame s.cfg.toConfig d a))) n with ⟨rx, hl, h3⟩ | ⟨pre, b, hl, h3⟩
      · obtain ⟨ok, h⟩ := close _ (after _ ((answers_append _ _ _).2 ⟨h2, by simpa only [noteAll_cfg] using h3⟩))
        exact ⟨ok, .inr (.inr (.inr ⟨rx, hl, h⟩))⟩
      · obtain ⟨ok, h⟩ := close _ (after _ ((answers_append _ _ _).2 ⟨h2, by simpa only [noteAll_cfg] using h3⟩))
        exact ⟨ok, .inr (.inr (.inl ⟨pre, b, hl, h⟩))⟩
    · rw [noteAll_cfg] at h2
      obtain ⟨ok, h⟩ := close _ (after _ h2)
      exact ⟨ok, .inr (.inl ⟨pre, b, post, hf, h⟩)⟩
  · exact ⟨ok, .inl h⟩

end Sys2Proof.Machine
end

