-- ==== Sys2Proof/Laws/Runs.lean ====
section
/-!
SUPPORT. What every read sequence, every dump loop, every byte and every expander procedure has in common, whatever the
outside answers: the events it records, the writes of the output register among them, and the fields it can change.
-/

namespace Sys2Proof.Machine

/-! ### Events on the lines -/

/-- Whether an event is one of the two lines', the samples' or the pin checks'. -/
def isLineEvent : Event → Bool
  | .pin _ _ => true
  | .sample _ => true
  | .expW _ _ _ => false
  | .expR _ _ => false
  | .pinCheck _ => true
  | .present _ => false
  | .resp _ => false

/-- A run of events on the lines alone. -/
def OnLines (es : List Event) : Prop := ∀ e ∈ es, isLineEvent e = true

theorem OnLines.append {es fs : List Event} (h : OnLines es) (k : OnLines fs) : OnLines (es ++ fs) := by
  intro e he
  rcases List.mem_append.1 he with he | he
  · exact h e he
  · exact k e he

theorem onLines_sentByte (cpol : Bool) (ord : BitOrder) (fault : Bool) (v : Byte) : OnLines (sentByte cpol ord fault v) := by
  simp [OnLines, sentByte, txEvents, bitSlots, isLineEvent]

theorem onLines_receivedByte (cpol : Bool) (ord : BitOrder) (fault : Bool) (v : Byte) :
    OnLines (receivedByte cpol ord fault v) := by
  simp [OnLines, receivedByte, rxEvents, bitSlots, isLineEvent]

theorem onLines_frameEvents (c : Config) (bytes : List Byte) : OnLines (frameEvents c bytes) := by
  intro e he
  obtain ⟨b, -, hb⟩ := List.mem_flatMap.1 he
  exact onLines_sentByte _ _ _ _ e hb

theorem onLines_dataEvents (c : Config) (rx : List Byte) : OnLines (dataEvents c rx) := by
  intro e he
  obtain ⟨b, -, hb⟩ := List.mem_flatMap.1 he
  exact onLines_receivedByte _ _ _ _ e hb

/-! ### The writes of the output register along a run -/

@[simp] theorem outWrites_nil (c : Config) : outWrites c [] = [] := rfl

theorem outWrites_append (c : Config) (es fs : List Event) : outWrites c (es ++ fs) = outWrites c es ++ outWrites c fs :=
  List.filterMap_append

theorem outWrites_onLines (c : Config) {es : List Event} (h : OnLines es) : outWrites c es = [] := by
  rw [outWrites, List.filterMap_eq_nil_iff]
  intro e he
  have := h e he
  cases e <;> simp_all [isLineEvent]

@[simp] theorem outWrites_selectWrite (c : Config) (d : Device) (ok : Bool) :
    outWrites c [selectWrite c d ok] = [selValue c (some d)] := by simp [outWrites, selectWrite]

@[simp] theorem outWrites_deselectWrite (c : Config) (ok : Bool) :
    outWrites c [deselectWrite c ok] = [selValue c none] := by simp [outWrites, deselectWrite]

theorem presented_append (es fs : List Event) : presented (es ++ fs) = presented es ++ presented fs :=
  List.filterMap_append

theorem presented_onLines {es : List Event} (h : OnLines es) : presented es = [] := by
  rw [presented, List.filterMap_eq_nil_iff]
  intro e he
  have := h e he
  cases e <;> simp_all [isLineEvent]

/-- No value that selects a device deselects. -/
theorem selValue_some_ne_none (c : AdmittedConfig) (d : Device) :
    selValue c.toConfig (some d) ≠ selValue c.toConfig none := by
  intro h
  obtain ⟨hne, -⟩ := AdmittedConfig_facts c
  have hb := fun j => (getLsbD_selValue c (some d) j).symm.trans ((congrArg (·.getLsbD j) h).trans (getLsbD_selValue c none j))
  cases d with
  | flash =>
    have := hb c.flash.selLine
    simp only [hne, if_false, if_true, selLevel] at this
    cases hl : c.selActiveLow <;> simp [hl] at this
  | eeprom =>
    have := hb c.eeprom.selLine
    simp only [if_true, selLevel] at this
    cases hl : c.selActiveLow <;> simp [hl] at this

theorem selectWrite_ne_deselectWrite (c : AdmittedConfig) (d : Device) (ok ok' : Bool) :
    selectWrite c.toConfig d ok ≠ deselectWrite c.toConfig ok' := by
  intro h
  injection h with _ h _
  exact selValue_some_ne_none c d h

theorem deselectWrite_not_onLines {c : Config} {ok : Bool} {es : List Event} (h : OnLines es) :
    deselectWrite c ok ∉ es := fun hm => by simpa [isLineEvent, deselectWrite] using h _ hm

/-! ### A read sequence -/

/-- What every read sequence of device `d` leaves: exactly one select write and one deselect write, an Idle bus, and a
halt exactly when the deselect write fails; and the trace that its code stands for. -/
structure ReadRun (s : State) (d : Device) (a n : Nat) (es : List Event) (r : FrameResult) : Prop where
  ran : Ran s es r.after
  writes : outWrites s.cfg.toConfig es = [selValue s.cfg.toConfig (some d), selValue s.cfg.toConfig none]
  quiet : ∀ e ∈ es, isResp e = false
  presents : presented es = []
  bus : r.after.bus = .idle
  seldev : r.after.seldev = none
  handle : r.after.handle = s.handle
  session : s.session = false → r.after.session = false
  frame : r.after.phase = .idle ∧ r.after.rxbuf = [] ∧ r.after.dumpPos = s.dumpPos
  clock : r.after.sck = s.cfg.cpol ∨ r.after.sck = s.sck
  bitcnt : r.after.bitcnt = 0 ∨ r.after.bitcnt = s.bitcnt
  halts : r.after.halted = true ↔ s.halted = true ∨ deselectWrite s.cfg.toConfig false ∈ es
  shadow : r.after.outShadow = none ∨ r.after.outShadow = some (selValue s.cfg.toConfig none)
  shadow_unknown : s.halted = false → r.after.halted = true → r.after.outShadow = none
  shadow_known : r.after.halted = false → r.after.outShadow = some (selValue s.cfg.toConfig none)
  code : r.code = .ok ∨ r.code = .selectFailure ∨ r.code = .transferAborted
  trace : r.code = .ok ∧ r.rx.length = n ∧ es = readEvents s.cfg.toConfig d a r.rx ∨
    FailedRead s.cfg.toConfig d a n r.code es

theorem FailedRead.code_ne_ok {c : Config} {d : Device} {a n : Nat} {code : Code} {es : List Event}
    (h : FailedRead c d a n code es) : code ≠ .ok := by cases h <;> simp

/-- What a read sequence that answers `OK` has recorded. -/
theorem ReadRun.all {s : State} {d : Device} {a n : Nat} {es : List Event} {r : FrameResult}
    (h : ReadRun s d a n es r) (hok : r.code = .ok) :
    r.rx.length = n ∧ es = readEvents s.cfg.toConfig d a r.rx :=
  h.trace.elim (·.2) fun f => absurd hok f.code_ne_ok

/-- The common part of the runs that selected: line events between the two writes. -/
theorem run_facts (c : AdmittedConfig) (d : Device) {mid : List Event} (ok : Bool) (h : OnLines mid) :
    outWrites c.toConfig (selectWrite c.toConfig d true :: (mid ++ [deselectWrite c.toConfig ok])) =
        [selValue c.toConfig (some d), selValue c.toConfig none] ∧
      (∀ e ∈ selectWrite c.toConfig d true :: (mid ++ [deselectWrite c.toConfig ok]), isResp e = false) ∧
      presented (selectWrite c.toConfig d true :: (mid ++ [deselectWrite c.toConfig ok])) = [] ∧
      (deselectWrite c.toConfig false ∈ selectWrite c.toConfig d true :: (mid ++ [deselectWrite c.toConfig ok]) ↔
        ok = false) := by
  refine ⟨?_, ?_, ?_, ?_⟩
  · rw [← List.singleton_append, outWrites_append, outWrites_append, outWrites_onLines _ h]
    simp
  · intro e he
    simp only [List.mem_cons, List.mem_append, List.not_mem_nil, or_false] at he
    rcases he with rfl | he | rfl
    · rfl
    · have := h e he
      cases e <;> simp_all [isLineEvent, isResp]
    · rfl
  · rw [← List.singleton_append, presented_append, presented_append, presented_onLines h]
    rfl
  · simp only [List.mem_cons, List.mem_append, List.not_mem_nil, or_false, deselectWrite_not_onLines h, false_or,
      (selectWrite_ne_deselectWrite c d true false).symm]
    cases ok <;> simp [deselectWrite]

/-- A state that has run a trace has run it too with other values of the engine's own fields. -/
theorem ran_with {s : State} {es : List Event} (h : s.answers es = true) (sck dout : Bool) (sr : Byte) (bitcnt : Fin 9)
    (bus : BusState) (seldev : Option Device) (session : Bool) (handle : Handle) (halted : Bool)
    (outShadow : Option RegValue) (phase : FramePhase) (rxbuf : List Byte) (dumpPos : Option DumpPosition) :
    Ran s es
      { s.noteAll es with
        sck := sck, dout := dout, sr := sr, bitcnt := bitcnt, bus := bus, seldev := seldev, session := session
        handle := handle, halted := halted, outShadow := outShadow, phase := phase, rxbuf := rxbuf
        dumpPos := dumpPos } :=
  ⟨h, rfl, noteAll_cfg _ _, noteAll_responses _ _, noteAll_port _ _, noteAll_resetInput _ _, noteAll_order _ _⟩

/-- Everything `read_frame` can do. -/
theorem readFrame_run (s : State) (d : Device) (a n : Nat) : ∃ es, ReadRun s d a n es (readFrame d a n s) := by
  obtain ⟨ok, h | ⟨pre, b, post, hf, h⟩ | ⟨pre, b, hl, h⟩ | ⟨rx, hl, h⟩⟩ := read_answered s d a n
  · rw [readFrame_of_unselected h]
    have hne := (selectWrite_ne_deselectWrite s.cfg d false false).symm
    refine ⟨_, ran_with h .., ?_, ?_, rfl, rfl, rfl, rfl, fun h => h, ⟨rfl, rfl, rfl⟩, .inr rfl,
      .inr rfl, ?_, ?_, ?_, ?_, .inr (.inl rfl), .inr (.unselected _)⟩
    · rw [← List.singleton_append, outWrites_append]; simp
    · simp [isResp, selectWrite, deselectWrite]
    · cases ok <;> simp [hne]
      simp [deselectWrite]
    · cases ok <;> simp
    · cases ok <;> simp_all
    · cases ok <;> simp
  · rw [readFrame_of_frame_fault hf h]
    obtain ⟨hw, hq, hp, hd⟩ := run_facts s.cfg d ok
      ((onLines_frameEvents s.cfg.toConfig pre).append (onLines_sentByte s.cfg.cpol .msbFirst true b))
    refine ⟨_, ran_with h .., hw, hq, hp, rfl, rfl, ?_, fun _ => rfl, ⟨rfl, rfl, ?_⟩, .inl rfl,
      .inl rfl, ?_, ?_, ?_, ?_, .inr (.inr rfl), .inr (.frameFault _ _ _ _ hf)⟩
    · simp only [noteAll_handle]
    · simp only [noteAll_dumpPos]
    · rw [hd]; cases ok <;> simp
    · cases ok <;> simp
    · cases ok <;> simp_all
    · cases ok <;> simp
  · rw [readFrame_of_data_fault hl h]
    obtain ⟨hw, hq, hp, hd⟩ := run_facts s.cfg d ok
      ((onLines_frameEvents s.cfg.toConfig (frame s.cfg.toConfig d a)).append
        ((onLines_dataEvents s.cfg.toConfig pre).append (onLines_receivedByte s.cfg.cpol .msbFirst true b)))
    refine ⟨_, ran_with h .., hw, hq, hp, rfl, rfl, ?_, fun _ => rfl, ⟨rfl, rfl, ?_⟩, .inl rfl,
      .inl rfl, ?_, ?_, ?_, ?_, .inr (.inr rfl), .inr (.dataFault _ _ _ hl)⟩
    · simp only [noteAll_handle]
    · simp only [noteAll_dumpPos]
    · rw [hd]; cases ok <;> simp
    · cases ok <;> simp
    · cases ok <;> simp_all
    · cases ok <;> simp
  · rw [readFrame_of_answers hl h]
    obtain ⟨hw, hq, hp, hd⟩ := run_facts s.cfg d ok
      ((onLines_frameEvents s.cfg.toConfig (frame s.cfg.toConfig d a)).append
        (onLines_dataEvents s.cfg.toConfig rx))
    refine ⟨_, ran_with h .., hw, hq, hp, rfl, rfl, ?_, ?_, ⟨rfl, rfl, ?_⟩, .inl rfl,
      .inl rfl, ?_, ?_, ?_, ?_, ?_, ?_⟩
    · simp only [noteAll_handle]
    · simp only [noteAll_session]; exact fun h => h
    · simp only [noteAll_dumpPos]
    · rw [hd]; cases ok <;> simp
    · cases ok <;> simp
    · cases ok <;> simp_all
    · cases ok <;> simp
    · cases ok <;> simp
    · cases ok
      · exact .inr (.unclosed _ hl)
      · exact .inl ⟨rfl, hl, rfl⟩

/-! ### A dump -/

/-- A run is a run from any state with the same outside, configuration, responses, port, reset input and order. -/
theorem Ran.of_congr {s s' t : State} {es : List Event} (h : Ran s' es t) (ho : s'.outside = s.outside)
    (hc : s'.cfg = s.cfg) (hr : s'.responses = s.responses) (hp : s'.port = s.port)
    (hi : s'.resetInput = s.resetInput) (hd : s'.order = s.order) : Ran s es t :=
  ⟨answers_of_outside h.answered ho.symm, h.outside.trans (noteAll_outside_congr ho es), h.cfg.trans hc,
    h.responses.trans hr, h.port.trans hp, h.resetInput.trans hi, h.order.trans hd⟩

/-- A complete read sequence holds no failed deselect write. -/
theorem deselectWrite_not_readEvents (c : AdmittedConfig) (d : Device) (a : Nat) (rx : List Byte) :
    deselectWrite c.toConfig false ∉ readEvents c.toConfig d a rx := by
  intro h
  have := (run_facts c d true ((onLines_frameEvents c.toConfig (Sys2Proof.Machine.frame c.toConfig d a)).append
    (onLines_dataEvents c.toConfig rx))).2.2.2
  simp only [readEvents] at h
  exact absurd (this.1 h) (by simp)

theorem presented_failedRead {c : AdmittedConfig} {d : Device} {a n : Nat} {code : Code} {es : List Event}
    (h : FailedRead c.toConfig d a n code es) : presented es = [] := by
  cases h with
  | unselected ok => rfl
  | frameFault pre b post ok =>
    exact (run_facts c d ok ((onLines_frameEvents _ _).append (onLines_sentByte _ _ _ _))).2.2.1
  | dataFault pre b ok =>
    exact (run_facts c d ok ((onLines_frameEvents _ _).append
      ((onLines_dataEvents _ _).append (onLines_receivedByte _ _ _ _)))).2.2.1
  | unclosed rx =>
    exact (run_facts c d false ((onLines_frameEvents _ _).append (onLines_dataEvents _ _))).2.2.1

/-- A chunk read whole and handed over comes before the rest of a dump. -/
theorem DumpTrace.cons {c : Config} {d : Device} {k : Chunk} {ks : List Chunk} {rx : List Byte}
    {data : List (List Byte)} {code : Code} {es : List Event} (hl : rx.length = k.len)
    (h : DumpTrace c d ks data code es) :
    DumpTrace c d (k :: ks) (rx :: data) code (readEvents c d k.pos rx ++ [.present rx] ++ es) := by
  rcases h with ⟨ho, hd, rfl⟩ | ⟨j, k', tail, hk, hd, rfl, hf⟩
  · exact .inl ⟨ho, by simp [hl, hd], by simp [dumpEvents]⟩
  · exact .inr ⟨j + 1, k', tail, by simpa using hk, by simp [hl, hd], by simp [dumpEvents], hf⟩

/-- A dump whose first chunk fails. -/
theorem DumpTrace.failed {c : Config} {d : Device} {k : Chunk} {ks : List Chunk} {code : Code} {es : List Event}
    (h : FailedRead c d k.pos k.len code es) : DumpTrace c d (k :: ks) [] code es :=
  .inr ⟨0, k, es, by simp, by simp, by simp [dumpEvents], h⟩

/-- What every dump loop leaves. -/
structure DumpRun (s : State) (d : Device) (chunks : List Chunk) (es : List Event) (code : Code) (t : State) :
    Prop where
  ran : Ran s es t
  writes : outWrites s.cfg.toConfig es =
    (List.replicate ((presented es).length + if code = .ok then 0 else 1)
      [selValue s.cfg.toConfig (some d), selValue s.cfg.toConfig none]).flatten
  quiet : ∀ e ∈ es, isResp e = false
  presents : (presented es).map List.length <+: chunks.map Chunk.len
  complete : code = .ok ↔ (presented es).length = chunks.length
  trace : DumpTrace s.cfg.toConfig d chunks (presented es) code es
  code : code = .ok ∨ code = .selectFailure ∨ code = .transferAborted
  bus : s.bus = .idle ∨ chunks ≠ [] → t.bus = .idle
  seldev : s.seldev = none ∨ chunks ≠ [] → t.seldev = none
  handle : t.handle = s.handle
  session : s.session = false → t.session = false
  frame : s.phase = .idle ∧ s.rxbuf = [] ∨ chunks ≠ [] → t.phase = .idle ∧ t.rxbuf = []
  clock : t.sck = s.cfg.cpol ∨ t.sck = s.sck
  bitcnt : t.bitcnt = 0 ∨ t.bitcnt = s.bitcnt
  halts : t.halted = true ↔ s.halted = true ∨ deselectWrite s.cfg.toConfig false ∈ es
  shadow : t.outShadow = none ∨ t.outShadow = some (selValue s.cfg.toConfig none) ∨
    chunks = [] ∧ t.outShadow = s.outShadow
  shadow_unknown : s.halted = false → t.halted = true → t.outShadow = none

/-- Everything the dump loop can do. -/
theorem dumpLoop_run (d : Device) (chunks : List Chunk) (s : State) :
    ∃ es, DumpRun s d chunks es (dumpLoop d chunks s).1 (dumpLoop d chunks s).2 := by
  induction chunks generalizing s with
  | nil =>
    refine ⟨[], Ran.refl s, rfl, by simp, by simp [presented], by simp [dumpLoop, presented],
      .inl ⟨rfl, rfl, rfl⟩, .inl rfl, ?_, ?_, rfl, fun h => h, ?_, .inr rfl, .inr rfl, ?_, .inr (.inr ⟨rfl, rfl⟩), ?_⟩ <;>
      simp_all [dumpLoop]
  | cons c cs ih =>
    obtain ⟨es, r⟩ := readFrame_run { s with dumpPos := some { pos := c.pos, rem := c.rem } } d c.pos c.len
    have hran := r.ran.of_congr (s := s) rfl rfl rfl rfl rfl rfl
    rw [dumpLoop]
    revert r hran
    generalize readFrame d c.pos c.len { s with dumpPos := some { pos := c.pos, rem := c.rem } } = fr
    intro r hran
    by_cases hok : fr.code = .ok
    · obtain ⟨hlen, hes⟩ := r.all hok
      obtain ⟨fs, k⟩ := ih (fr.after.present fr.rx)
      have hcfg : (fr.after.present fr.rx).cfg = s.cfg := hran.cfg
      have hpres : Ran fr.after [.present fr.rx] (fr.after.present fr.rx) := ⟨rfl, rfl, rfl, rfl, rfl, rfl, rfl⟩
      have hnot : deselectWrite s.cfg.toConfig false ∉ es := by
        rw [hes]; exact deselectWrite_not_readEvents s.cfg d _ fr.rx
      have hhalt : fr.after.halted = true ↔ s.halted = true := r.halts.trans (or_iff_left hnot)
      simp only [hok, ne_eq, not_true, if_false]
      generalize hloop : dumpLoop d cs (fr.after.present fr.rx) = out at k
      have hw := k.writes
      have hpe : presented (es ++ [.present fr.rx] ++ fs) = fr.rx :: presented fs := by
        rw [presented_append, presented_append, r.presents]; rfl
      refine ⟨es ++ [.present fr.rx] ++ fs, (hran.trans hpres).trans k.ran, ?_, ?_, ?_, ?_,
        by rw [hpe, hes, ← hcfg]; exact k.trace.cons hlen, k.code, fun _ => k.bus (.inl r.bus), fun _ => k.seldev (.inl r.seldev),
        k.handle.trans r.handle, fun h => k.session (r.session h), fun _ => k.frame (.inl ⟨r.frame.1, r.frame.2.1⟩),
        ?_, ?_, ?_, ?_, ?_⟩
      · rw [outWrites_append, outWrites_append, r.writes, ← hcfg, hw, hpe, List.length_cons, Nat.add_right_comm,
          List.replicate_succ]
        simp [outWrites]
      · intro e he
        simp only [List.mem_append, List.mem_singleton] at he
        rcases he with (he | rfl) | he
        · exact r.quiet e he
        · rfl
        · exact k.quiet e he
      · rw [hpe, List.map_cons, List.map_cons, hlen]
        exact List.cons_prefix_cons.2 ⟨rfl, k.presents⟩
      · rw [hpe, k.complete]; simp
      · rcases k.clock with h | h
        · exact .inl (h.trans (congrArg (fun c => c.cpol) (congrArg AdmittedConfig.toConfig hcfg)))
        · rw [h]; exact r.clock
      · rcases k.bitcnt with h | h
        · exact .inl h
        · rw [h]; exact r.bitcnt
      · rw [k.halts, hcfg]
        change fr.after.halted = true ∨ _ ↔ _
        rw [hhalt]
        simp only [List.mem_append, List.mem_singleton, hnot, false_or]
        simp [deselectWrite]
      · rw [← hcfg]
        rcases k.shadow with h | h | ⟨-, h⟩
        · exact .inl h
        · exact .inr (.inl h)
        · rw [h, hcfg]
          exact r.shadow.elim .inl fun h => .inr (.inl h)
      · intro h0 h1
        refine k.shadow_unknown ?_ h1
        change fr.after.halted = false
        by_contra hc
        exact absurd (hhalt.1 (by simpa using hc)) (by simp [h0])
    · simp only [ne_eq, hok, not_false_iff, if_true]
      refine ⟨es, hran, by simpa [r.presents, hok] using r.writes, r.quiet, by simp [r.presents],
        by simp [hok, r.presents],
        by rw [r.presents]; exact .failed (r.trace.resolve_left fun h => hok h.1), r.code, fun _ => r.bus, fun _ => r.seldev, r.handle, r.session,
        fun _ => ⟨r.frame.1, r.frame.2.1⟩, r.clock, r.bitcnt, r.halts, r.shadow.elim .inl fun h => .inr (.inl h),
        r.shadow_unknown⟩

end Sys2Proof.Machine
end

