-- ==== Sys2Proof/Machine/Assembler.lean ====
section
/-!
DEFINITION. The assembler forms of spec/30_encoding.md R89: a mnemonic, then its operands separated by commas; devices
`FLASH` and `EEPROM`; numbers decimal or `0x` hexadecimal; the order `MSB` or `LSB`. Text is a list of characters.
-/

namespace Sys2Proof.Machine

/-- A character's value as a digit, upper or lower case. -/
def digitValue (ch : Char) : Option Nat :=
  let n := ch.toNat
  if 48 ≤ n ∧ n ≤ 57 then some (n - 48)
  else if 65 ≤ n ∧ n ≤ 70 then some (n - 55)
  else if 97 ≤ n ∧ n ≤ 102 then some (n - 87)
  else none

/-- Digits in a base, after the value read so far. -/
def digitsValue (base : Nat) : (acc : Nat) → List Char → Option Nat
  | acc, [] => some acc
  | acc, ch :: rest =>
    match digitValue ch with
    | some v => if v < base then digitsValue base (acc * base + v) rest else none
    | none => none

/-- A number: decimal, or hexadecimal after `0x`. -/
def numberOf (text : List Char) : Option Nat :=
  match text with
  | '0' :: 'x' :: ch :: rest => digitsValue 16 0 (ch :: rest)
  | ch :: rest => digitsValue 10 0 (ch :: rest)
  | [] => none

/-- A number that fits `w` bits. -/
def fieldOf (w : Nat) (text : List Char) : Option (BitVec w) :=
  match numberOf text with
  | some n => if n < 2 ^ w then some (BitVec.ofNat w n) else none
  | none => none

def dropSpaces (text : List Char) : List Char := text.dropWhile (· == ' ')

/-- The text without spaces at either end. -/
def trimSpaces (text : List Char) : List Char := (dropSpaces (dropSpaces text).reverse).reverse

/-- The pieces of a text between its commas. -/
def commaPieces : List Char → List (List Char)
  | [] => [[]]
  | ch :: rest =>
    if ch == ',' then [] :: commaPieces rest
    else
      match commaPieces rest with
      | piece :: pieces => (ch :: piece) :: pieces
      | [] => [[ch]]

/-- The operands after a mnemonic. -/
def operandsOf (text : List Char) : List (List Char) :=
  if (trimSpaces text).isEmpty then [] else (commaPieces text).map trimSpaces

def deviceOf (text : List Char) : Option Device :=
  if text = ['F', 'L', 'A', 'S', 'H'] then some .flash
  else if text = ['E', 'E', 'P', 'R', 'O', 'M'] then some .eeprom
  else none

def orderOf (text : List Char) : Option BitOrder :=
  if text = ['M', 'S', 'B'] then some .msbFirst else if text = ['L', 'S', 'B'] then some .lsbFirst else none

/-- A mnemonic with its operands. -/
def assembleParts (m : List Char) (ops : List (List Char)) : Option Instr :=
  match ops with
  | [] =>
    if m = ['I', 'N', 'I', 'T'] then some .init
    else if m = ['V', 'A', 'L', 'I', 'D', 'A', 'T', 'E', '_', 'C', 'O', 'N', 'F', 'I', 'G'] then some .validateConfig
    else if m = ['R', 'E', 'L', 'E', 'A', 'S', 'E'] then some .release
    else if m = ['R', 'E', 'A', 'D', '_', 'B', 'Y', 'T', 'E'] then some .readByte
    else if m = ['E', 'X', 'P', '_', 'V', 'A', 'L', 'I', 'D', 'A', 'T', 'E'] then some .expValidate
    else if m = ['D', 'E', 'S', 'E', 'L', 'E', 'C', 'T', '_', 'A', 'L', 'L'] then some .deselectAll
    else if m = ['S', 'E', 'S', 'S', 'I', 'O', 'N', '_', 'C', 'L', 'O', 'S', 'E'] then some .sessionClose
    else none
  | [x] =>
    if m = ['W', 'R', 'I', 'T', 'E', '_', 'B', 'Y', 'T', 'E'] then (fieldOf 8 x).map .writeByte
    else if m = ['S', 'E', 'L', 'E', 'C', 'T'] then (deviceOf x).map .select
    else if m = ['S', 'E', 'S', 'S', 'I', 'O', 'N', '_', 'O', 'P', 'E', 'N'] then (deviceOf x).map .sessionOpen
    else if m = ['S', 'E', 'T', '_', 'B', 'I', 'T', '_', 'O', 'R', 'D', 'E', 'R'] then (orderOf x).map .setBitOrder
    else none
  | [x, y, z] =>
    match deviceOf x, fieldOf 32 y, fieldOf 32 z with
    | some d, some a, some n =>
      if m = ['R', 'E', 'A', 'D'] then some (.read d a n)
      else if m = ['D', 'U', 'M', 'P'] then some (.dump d a n)
      else none
    | _, _, _ => none
  | _ => none

/-- One line of assembly (R89), or nothing where it has none of the forms. -/
def assemble (line : List Char) : Option Instr :=
  let text := trimSpaces line
  let m := text.takeWhile (· != ' ')
  assembleParts m (operandsOf (text.drop m.length))

end Sys2Proof.Machine
end

