-- ==== Sys2Proof/Tests/Slice0.lean ====
section
/-!
SUPPORT. The model's own tests: the admission check on ill-formed configurations, decodings of words written out from
spec/30_encoding.md, one-command tests whose expected results are the vectors of spec/95_test_vectors.md, and, for each
obligation with hypotheses, concrete states and operands that meet them (theorems `witness_…`).
-/

namespace Sys2Proof.Tests

open Sys2Proof.Machine

/-! ### Helpers -/

/-- The state `s` with oracle scripts that answer as the trace says. -/
def scripted (s : State) (es : List Event) : State :=
  { s with
    samples := es.filterMap fun | .sample b => some b | _ => none
    expAcks := es.filterMap fun | .expW _ _ ok => some ok | _ => none
    expReads := es.filterMap fun | .expR _ r => some r | _ => none
    pinFaults := es.filterMap fun | .pinCheck f => some f | _ => none }

/-- A second admitted configuration: clock idle high, active-high lines, set-up writes, a small length limit and
chunks of two bytes. -/
def otherBoard : AdmittedConfig where
  toConfig :=
    { Config.testConfig with
      cpol := true
      selActiveLow := false
      flash := { selLine := 15, addrBytes := 4, readOpcode := 0x0B#8 }
      eeprom := { selLine := 0, addrBytes := 1, readOpcode := 0x03#8 }
      outBase := 0x1234#16
      initWrites := [(0x0A#8, 0x0000#16), (0x0B#8, 0xFFFF#16)]
      maxLen := 2
      maxBurst := 2 }
  admits := by decide

/-- The state after a successful `INIT`, with the answers of a trace to come. -/
def started (c : AdmittedConfig) (es : List Event) : State :=
  scripted { State.resetWith c with handle := .valid, outShadow := some (selValue c.toConfig none) } es

/-- The same in a session with device `d`. -/
def inSession (c : AdmittedConfig) (d : Device) (es : List Event) : State :=
  { started c es with
    session := true, bus := .selected, seldev := some d, outShadow := some (selValue c.toConfig (some d)) }

/-- The same with `d` selected by `SELECT`. -/
def inSelect (c : AdmittedConfig) (d : Device) (es : List Event) : State :=
  { inSession c d es with session := false }

/-- The state that an outcome goes on to. -/
def nextOf (o : Host.Outcome State Fault Refusal) : Option State :=
  match o with
  | .next t => some t
  | .fault _ => none
  | .refused _ => none

/-- The status word and the payload of the last response. -/
def lastResponse (o : Host.Outcome State Fault Refusal) : Option (Word × Option Payload) :=
  (nextOf o).bind fun t => t.responses.getLast?.map fun r => (r.status, r.payload)

/-- The events a command recorded from a state with an empty history. -/
def eventsOf (o : Host.Outcome State Fault Refusal) : List Event := ((nextOf o).map State.history).getD []

theorem started_ready (c : AdmittedConfig) (es : List Event) : (started c es).Ready := ⟨rfl, rfl⟩

theorem started_free (c : AdmittedConfig) (es : List Event) : (started c es).Free := ⟨⟨rfl, rfl⟩, rfl, rfl⟩

theorem inSession_ready (c : AdmittedConfig) (d : Device) (es : List Event) : (inSession c d es).Ready := ⟨rfl, rfl⟩

theorem inSelect_ready (c : AdmittedConfig) (d : Device) (es : List Event) : (inSelect c d es).Ready := ⟨rfl, rfl⟩

/-! ### The admission check (R11): one ill-formed configuration for each condition -/

theorem test_admits_test_configuration : Config.testConfig.admitted = true := by decide

theorem test_refuses_one_line_for_both :
    Config.toAdmitted { Config.testConfig with eeprom := { selLine := 0, addrBytes := 2, readOpcode := 0x03#8 } } = none := by
  decide

theorem test_refuses_flash_line_16 :
    Config.toAdmitted { Config.testConfig with flash := { selLine := 16, addrBytes := 3, readOpcode := 0x03#8 } } = none := by
  decide

theorem test_refuses_eeprom_line_16 :
    Config.toAdmitted { Config.testConfig with eeprom := { selLine := 16, addrBytes := 2, readOpcode := 0x03#8 } } = none := by
  decide

theorem test_refuses_no_address_bytes :
    Config.toAdmitted { Config.testConfig with flash := { selLine := 0, addrBytes := 0, readOpcode := 0x03#8 } } = none := by
  decide

theorem test_refuses_five_address_bytes :
    Config.toAdmitted { Config.testConfig with eeprom := { selLine := 1, addrBytes := 5, readOpcode := 0x03#8 } } = none := by
  decide

theorem test_refuses_scratch_on_output :
    Config.toAdmitted { Config.testConfig with expScratchReg := 0x12#8 } = none := by decide

theorem test_refuses_setup_write_on_output :
    Config.toAdmitted { Config.testConfig with initWrites := [(0x0A#8, 0#16), (0x12#8, 0#16)] } = none := by decide

theorem test_refuses_wide_max_len : Config.toAdmitted { Config.testConfig with maxLen := 2 ^ 32 } = none := by decide

theorem test_refuses_wide_max_burst : Config.toAdmitted { Config.testConfig with maxBurst := 2 ^ 32 } = none := by decide

/-! ### Decoding (spec/30_encoding.md R81 to R88, words written out field by field: OP, DEV, RSV, M, IMM8) -/

theorem test_decode_init : decode [0b0001_00_00000000000000000_0_00000000#32] = .command .init [] := by decide

theorem test_decode_validate_config :
    decode [0b0010_00_00000000000000000_0_00000000#32] = .command .validateConfig [] := by decide

theorem test_decode_release : decode [0b0011_00_00000000000000000_0_00000000#32] = .command .release [] := by decide

theorem test_decode_write_byte :
    decode [0b0100_00_00000000000000000_0_10010011#32] = .command (.writeByte 0x93#8) [] := by decide

theorem test_decode_read_byte : decode [0b0101_00_00000000000000000_0_00000000#32] = .command .readByte [] := by decide

theorem test_decode_exp_validate :
    decode [0b0110_00_00000000000000000_0_00000000#32] = .command .expValidate [] := by decide

theorem test_decode_select :
    decode [0b0111_01_00000000000000000_0_00000000#32] = .command (.select .flash) [] ∧
      decode [0b0111_10_00000000000000000_0_00000000#32] = .command (.select .eeprom) [] := by decide

theorem test_decode_deselect_all :
    decode [0b1000_00_00000000000000000_0_00000000#32] = .command .deselectAll [] := by decide

theorem test_decode_session_open :
    decode [0b1001_01_00000000000000000_0_00000000#32] = .command (.sessionOpen .flash) [] ∧
      decode [0b1001_10_00000000000000000_0_00000000#32] = .command (.sessionOpen .eeprom) [] := by decide

theorem test_decode_session_close :
    decode [0b1010_00_00000000000000000_0_00000000#32] = .command .sessionClose [] := by decide

theorem test_decode_read :
    decode [0b1011_01_00000000000000000_0_00000000#32, 0x00123456#32, 0x00000010#32] =
      .command (.read .flash 0x123456#32 16#32) [] := by decide

theorem test_decode_dump :
    decode [0b1100_10_00000000000000000_0_00000000#32, 0x00000010#32, 0x00000005#32, 0x10000000#32] =
      .command (.dump .eeprom 0x10#32 5#32) [0x10000000#32] := by decide

theorem test_decode_set_bit_order :
    decode [0b1101_00_00000000000000000_0_00000000#32] = .command (.setBitOrder .msbFirst) [] ∧
      decode [0b1101_00_00000000000000000_1_00000000#32] = .command (.setBitOrder .lsbFirst) [] := by decide

/-- The illegal one-word headers of spec/95_test_vectors.md section 4.1. -/
theorem test_illegal_headers :
    ([0x00000000#32, 0x10000001#32, 0x14000000#32, 0x40000112#32, 0x44000012#32, 0x50000200#32, 0x52000000#32,
      0x70000000#32, 0x7C000000#32, 0x88000000#32, 0xD4000100#32, 0xE0000000#32, 0xF0000000#32, 0xFFFFFFFF#32].all
        fun h => match decode [h] with
          | .illegal _ rest => rest.isEmpty
          | _ => false) = true := by decide

/-- Stream alignment: an illegal three-word command takes both its extension words. -/
theorem test_illegal_read_takes_three_words :
    decode [0xB0000000#32, 0x10000000#32, 0x20000000#32, 0x30000000#32] = .illegal .badDevice [0x30000000#32] := by
  decide

theorem test_incomplete_read_waits : decode [0xB4000000#32, 0x00000000#32] = .waiting := by decide

/-- The assembler form of R89. -/
theorem test_assemble_read :
    assemble ("READ FLASH, 0x0000FE, 4".toList) = some (.read .flash 0xFE#32 4#32) := by decide

/-! ### One command each, from spec/95_test_vectors.md -/

/-- L1. -/
theorem test_init :
    lastResponse (exec .init (scripted (State.resetWith .test)
      [deselectWrite Config.testConfig true, scratchWrite Config.testConfig true, .expR 0x14#8 (some 0xA55A#16)])) =
      some (0x00000100#32, none) := by decide +kernel

/-- L5: no validation after a failed deselect. -/
theorem test_init_deselect_fails :
    eventsOf (exec .init (scripted (State.resetWith .test) [deselectWrite Config.testConfig false])) =
      [.pin .sck false, .pin .dout false, .expW 0x12#8 0x0003#16 false, .resp .selectFailure] := by decide +kernel

/-- E2. -/
theorem test_validate_config_fails :
    lastResponse (exec .validateConfig (started .test
      [scratchWrite Config.testConfig true, .expR 0x14#8 (some 0x0000#16)])) = some (0x00000201#32, none) := by
  decide +kernel

/-- L9. -/
theorem test_release :
    eventsOf (exec .release (started .test [deselectWrite Config.testConfig true])) =
      [.expW 0x12#8 0x0003#16 true, .pin .sck false, .pin .dout false, .resp .ok] := by decide +kernel

/-- B1: the bits of 0x12 on `DOUT`, most significant first. -/
theorem test_write_byte_bits :
    ((eventsOf (exec (.writeByte 0x12#8) (started .test [.pinCheck false]))).filterMap fun
      | .pin .dout b => some b
      | _ => none) = [false, false, false, true, false, false, true, false] := by decide +kernel

/-- B14: a raw abort outside a session leaves the device selected. -/
theorem test_write_byte_aborts :
    lastResponse (exec (.writeByte 0x12#8) (inSelect .test .flash [.pinCheck true])) =
      some (0x00000164#32, none) := by decide +kernel

/-- B7. -/
theorem test_read_byte_msb :
    lastResponse (exec .readByte { started .test [.pinCheck false] with
      samples := [true, true, false, false, false, false, false, false] }) =
      some (0x00000100#32, some (.byte 0xC0#8)) := by decide +kernel

/-- B8: the same samples in the other order, over an old `SR`. -/
theorem test_read_byte_lsb :
    lastResponse (exec .readByte { started .test [.pinCheck false] with
      samples := [true, true, false, false, false, false, false, false], order := .lsbFirst, sr := 0xFF#8 }) =
      some (0x00000900#32, some (.byte 0x03#8)) := by decide +kernel

/-- B19. -/
theorem test_set_bit_order :
    lastResponse (exec (.setBitOrder .lsbFirst) { inSession .test .flash [] with bus := .transferring }) =
      some (0x00000D60#32, none) := by decide +kernel

/-- X12. -/
theorem test_exp_validate_read_fails :
    lastResponse (exec .expValidate (started .test [scratchWrite Config.testConfig true, .expR 0x14#8 none])) =
      some (0x00000100#32, some (.valid false)) := by decide +kernel

/-- X1. -/
theorem test_select :
    eventsOf (exec (.select .flash) (started .test [selectWrite Config.testConfig .flash true])) =
      [.expW 0x12#8 0x0002#16 true, .resp .ok] := by decide +kernel

/-- X3: a second `SELECT` of the same device is no no-op. -/
theorem test_select_twice :
    lastResponse (exec (.select .flash) (inSelect .test .flash [])) = some (0x00000152#32, none) := by decide +kernel

/-- X5. -/
theorem test_deselect_all :
    eventsOf (exec .deselectAll (started .test [deselectWrite Config.testConfig true])) =
      [.expW 0x12#8 0x0003#16 true, .resp .ok] := by decide +kernel

/-- S1. -/
theorem test_session_open :
    lastResponse (exec (.sessionOpen .eeprom) (started .test [selectWrite Config.testConfig .eeprom true])) =
      some (0x00000590#32, none) := by decide +kernel

/-- S14. -/
theorem test_session_close_fails :
    lastResponse (exec .sessionClose (inSession .test .flash [deselectWrite Config.testConfig false])) =
      some (0x00001103#32, none) := by decide +kernel

/-- E1. -/
theorem test_read :
    lastResponse (exec (.read .eeprom 0#32 4#32) (started .test
      (readEvents Config.testConfig .eeprom 0 [0x10#8, 0x11#8, 0x12#8, 0x13#8]))) =
      some (0x00000100#32, some (.bytes [0x10#8, 0x11#8, 0x12#8, 0x13#8])) := by decide +kernel

/-- E3: a read of no bytes sends its frame and nothing else. -/
theorem test_read_nothing :
    eventsOf (exec (.read .flash 0#32 0#32) (started .test (readEvents Config.testConfig .flash 0 []))) =
      [.expW 0x12#8 0x0002#16 true] ++ sentByte false .msbFirst false 0x03#8 ++ sentByte false .msbFirst false 0#8 ++
        sentByte false .msbFirst false 0#8 ++ sentByte false .msbFirst false 0#8 ++
        [.expW 0x12#8 0x0003#16 true, .resp .ok] := by decide +kernel

/-- U2: five bytes in chunks of two. -/
theorem test_dump_chunks :
    presented (eventsOf (exec (.dump .eeprom 0x10#32 5#32) (started otherBoard
      (dumpEvents otherBoard.toConfig .eeprom (dumpChunks otherBoard.toConfig 0x10 5)
        [[0x10#8, 0x11#8], [0x12#8, 0x13#8], [0x14#8]])))) =
      [[0x10#8, 0x11#8], [0x12#8, 0x13#8], [0x14#8]] := by decide +kernel

/-- U5. -/
theorem test_dump_past_end :
    lastResponse (exec (.dump .eeprom 0xFFFE#32 3#32) (started .test [])) = some (0x00000105#32, none) := by
  decide +kernel

/-- The values of spec/95_test_vectors.md section 4.3. -/
theorem test_sel_value :
    [none, some .flash, some .eeprom].map (selValue Config.testConfig) = [0x0003#16, 0x0002#16, 0x0001#16] ∧
      [none, some .flash, some .eeprom].map (selValue
        { Config.testConfig with
          selActiveLow := true, outBase := 0x1234#16
          flash := { selLine := 15, addrBytes := 3, readOpcode := 0x03#8 }
          eeprom := { selLine := 0, addrBytes := 2, readOpcode := 0x03#8 } }) =
        [0x9235#16, 0x1235#16, 0x9234#16] := by decide

/-- P-a: an illegal header in the halted state is still `IllegalCommand`. -/
theorem test_illegal_while_halted :
    lastResponse (step { started .test [] with halted := true, outShadow := none, port := [0x7C000000#32] }) =
      some (0x00001106#32, none) := by decide +kernel

/-- R270: a reset between commands clears a halt. -/
theorem test_reset_clears_halt :
    (nextOf (step { started .test [] with halted := true, resetInput := .betweenCommands })).map State.halted =
      some false := by decide +kernel

/-- The first instruction after reset runs (here: rejected, as R271 says). -/
theorem test_first_command_after_reset :
    lastResponse (step ((State.resetWith .test).withFetchWord 32 0x40000012)) = some (0x00000005#32, none) := by
  decide +kernel

/-! ### States and operands that meet the hypotheses of the obligations

One theorem for each obligation with hypotheses, one conjunct for each clause, at boundary values where there are any.
-/

theorem witness_DecodedWordsAreTheEncoding :
    decode [0xC8000000#32, 0xFFFFFFFF#32, 0#32, 7#32] = .command (.dump .eeprom 0xFFFFFFFF#32 0#32) [7#32] := by decide

/-- Opcodes `0xB` and `0xC` with no, one and two words after the header; opcodes `0xA` and `0xD`. -/
theorem witness_CommandLengthFollowsOpcode :
    (0xB4000000#32 : Word).toNat / 2 ^ 28 = 0xB ∧ ([] : List Word).length < 2 ∧
      (0xCFFFFFFF#32 : Word).toNat / 2 ^ 28 = 0xC ∧ ([1#32] : List Word).length < 2 ∧
      ([1#32, 2#32] : List Word) = 1#32 :: 2#32 :: [] ∧
      ¬ ((0xA0000000#32 : Word).toNat / 2 ^ 28 = 0xB ∨ (0xA0000000#32 : Word).toNat / 2 ^ 28 = 0xC) ∧
      ¬ ((0xD0000000#32 : Word).toNat / 2 ^ 28 = 0xB ∨ (0xD0000000#32 : Word).toNat / 2 ^ 28 = 0xC) := by decide

/-- A legal three-word header, and one that only the last check refuses. -/
theorem witness_IllegalHeaderExactlyOnFieldChecks :
    (started .test []).resetInput = .none ∧
      (0xB4000000#32 : Word).toNat / 2 ^ 28 = 0xB ∧ (0xB4000000#32 : Word).toNat / 2 ^ 26 % 4 = 1 ∧
      (0xB4000000#32 : Word).toNat / 2 ^ 9 % 2 ^ 17 = 0 ∧ (0xB4000000#32 : Word).toNat / 2 ^ 8 % 2 = 0 ∧
      (0xB4000000#32 : Word).toNat % 2 ^ 8 = 0 ∧ 2 ≤ ([0#32, 0#32] : List Word).length ∧
      (0xBC000000#32 : Word).toNat / 2 ^ 28 = 0xB ∧ (0xBC000000#32 : Word).toNat / 2 ^ 26 % 4 = 3 := by decide

theorem witness_StepRunsTheDecodedCommand :
    (started .test []).resetInput = .none ∧
      decode [0x50000000#32, 5#32] = .command .readByte [5#32] ∧ decode [0xC4000000#32, 5#32] = .waiting := by decide

theorem witness_OfferedCommandRunsNext :
    decodeTableWord 32 0xB4000000 = some (.read .flash 0#32 0#32) ∧
      decodeTableWord 96 (0xC8000000 + 2 ^ 32 * 5 + 2 ^ 64 * 7) = some (.dump .eeprom 5#32 7#32) := by decide

theorem witness_ResetFromOutside :
    ({ started .test [] with resetInput := .betweenCommands } : State).resetInput = .betweenCommands ∧
      ({ started .test [] with resetInput := .midCommand } : State).resetInput = .midCommand ∧
      decode [0x94000000#32] = .command (.sessionOpen .flash) [] ∧
      decode [0x7C000000#32, 1#32] = .illegal .badDevice [1#32] ∧ decode [0xB4000000#32] = .waiting := by decide

/-- The halted state, and each of the four handles. -/
theorem witness_GateRejections :
    ({ started .test [] with halted := true } : State).halted = true ∧ (started .test []).halted = false ∧
      (started .test []).handle = .valid ∧ (State.resetWith .test).halted = false ∧
      (State.resetWith .test).handle = .none ∧
      ({ started .test [] with handle := .notPresent } : State).handle = .notPresent ∧
      ({ started .test [] with handle := .released } : State).handle = .released ∧
      Instr.readByte ≠ .init ∧ Instr.readByte ≠ .release ∧ (∀ o, Instr.readByte ≠ .setBitOrder o) := by
  refine ⟨rfl, rfl, rfl, rfl, rfl, rfl, rfl, by decide, by decide, ?_⟩
  intro o h; cases h

theorem witness_SessionAndBusRejections :
    (inSession .test .flash []).Ready ∧ (inSession .test .flash []).session = true ∧
      (inSelect .test .eeprom []).Ready ∧ (inSelect .test .eeprom []).bus ≠ .idle ∧
      (inSelect .test .eeprom []).session = false :=
  ⟨inSession_ready _ _ _, rfl, inSelect_ready _ _ _, by decide, rfl⟩

/-- The first address past the end, the first length past the limit, and a range one byte too long. -/
theorem witness_ArgumentRejections :
    (started .test []).Free ∧ 2 ^ (8 * (Config.testConfig.desc .flash).addrBytes) ≤ (0x1000000#32 : Word).toNat ∧
      Config.testConfig.maxLen < (257#32 : Word).toNat ∧
      2 ^ (8 * (Config.testConfig.desc .eeprom).addrBytes) < (0xFFFE#32 : Word).toNat + (3#32 : Word).toNat :=
  ⟨started_free _ _, by decide, by decide, by decide⟩

theorem witness_RejectedCommandsDoNothing :
    (∃ t, exec .deselectAll (inSession .test .flash []) = .next t ∧ t.lastCode = some .usageError) ∧
      (∃ t, exec (.read .flash 0#32 1#32) (inSelect .test .flash []) = .next t ∧ t.lastCode = some .busConflict) ∧
      (∃ t, exec .readByte { started .test [] with halted := true } = .next t ∧
        t.lastCode = some .engineHalted) ∧
      ∃ t, exec .readByte { started .test [] with handle := .notPresent } = .next t ∧
        t.lastCode = some .expanderNotPresent :=
  ⟨⟨_, rfl, rfl⟩, ⟨_, rfl, rfl⟩, ⟨_, rfl, rfl⟩, ⟨_, rfl, rfl⟩⟩

theorem witness_BeforeInitOnlyInitAndBitOrder :
    Instr.release ≠ .init ∧ ∀ o, Instr.release ≠ .setBitOrder o := by
  refine ⟨by decide, ?_⟩
  intro o h; cases h

/-- A byte with its last bit set, in both orders; outside a session and in one. -/
theorem witness_WriteByteCompletes :
    (inSession .test .flash (sentByte false .msbFirst false 0x81#8)).Ready ∧
      (inSession .test .flash (sentByte false .msbFirst false 0x81#8)).answers
        (sentByte false .msbFirst false 0x81#8) = true ∧
      ({ started otherBoard (sentByte true .lsbFirst false 0x01#8) with order := .lsbFirst } : State).answers
        (sentByte true .lsbFirst false 0x01#8) = true :=
  ⟨inSession_ready _ _ _, by decide +kernel, by decide +kernel⟩

theorem witness_ReadByteCompletes :
    (inSession .test .flash (receivedByte false .msbFirst false 0x5A#8)).Ready ∧
      (inSession .test .flash (receivedByte false .msbFirst false 0x5A#8)).answers
        (receivedByte false .msbFirst false 0x5A#8) = true ∧
      ({ started otherBoard (receivedByte true .lsbFirst false 0x03#8) with order := .lsbFirst } : State).answers
        (receivedByte true .lsbFirst false 0x03#8) = true :=
  ⟨inSession_ready _ _ _, by decide +kernel, by decide +kernel⟩

/-- In a session with the cleanup's write failing and succeeding, and outside one. -/
theorem witness_RawByteAborts :
    (inSession .test .flash (sentByte false .msbFirst true 0x03#8 ++ [deselectWrite Config.testConfig false])).Ready ∧
      (inSession .test .flash (sentByte false .msbFirst true 0x03#8 ++
          [deselectWrite Config.testConfig false])).session = true ∧
      (inSession .test .flash (sentByte false .msbFirst true 0x03#8 ++ [deselectWrite Config.testConfig false])).answers
        (sentByte false .msbFirst true 0x03#8 ++ [deselectWrite Config.testConfig false]) = true ∧
      (inSession .test .flash (receivedByte false .msbFirst true 0x7E#8 ++
          [deselectWrite Config.testConfig true])).answers
        (receivedByte false .msbFirst true 0x7E#8 ++ [deselectWrite Config.testConfig true]) = true ∧
      (inSelect .test .flash (sentByte false .msbFirst true 0x03#8)).session = false ∧
      (inSelect .test .flash (sentByte false .msbFirst true 0x03#8)).answers
        (sentByte false .msbFirst true 0x03#8) = true ∧
      (started .test (receivedByte false .msbFirst true 0x7E#8)).answers
        (receivedByte false .msbFirst true 0x7E#8) = true :=
  ⟨inSession_ready _ _ _, rfl, by decide +kernel, by decide +kernel, rfl, by decide +kernel, by decide +kernel⟩

theorem witness_SetBitOrderCompletes :
    (State.resetWith .test).halted = false ∧ ({ started .test [] with halted := true } : State).halted = true :=
  ⟨rfl, rfl⟩

theorem witness_ShiftRegisterLaws :
    ({ started .test [] with samples := [true, true, false, false, false, false, false, true, false] } : State).samples =
      bitSlots.map (wireBit .msbFirst 0xC1#8) ++ [false] := by decide

/-- Two states that differ in selection, session and handle, and share the samples of a byte. -/
theorem witness_BitEngineIgnoresSelection :
    (inSession .test .flash (rxEvents false .lsbFirst 0x5A#8)).cfg.cpol = (State.resetWith .test).cfg.cpol ∧
      bitSlots.map (wireBit .lsbFirst 0x5A#8) <+: (inSession .test .flash (rxEvents false .lsbFirst 0x5A#8)).samples ∧
      bitSlots.map (wireBit .lsbFirst 0x5A#8) <+:
        (scripted (State.resetWith .test) (rxEvents false .lsbFirst 0x5A#8)).samples := by decide

theorem witness_SelValueAssertsExactlyTheSelected : ∀ d, 15 ≠ (AdmittedConfig.test.desc d).selLine := by
  intro d; cases d <;> decide

/-- A failed write, a read that gives the pattern, and a failed read. -/
theorem witness_ExpValidateCompletes :
    (inSession .test .flash [scratchWrite Config.testConfig false]).Ready ∧
      (inSession .test .flash [scratchWrite Config.testConfig false]).answers
        [scratchWrite Config.testConfig false] = true ∧
      (started .test [scratchWrite Config.testConfig true, .expR 0x14#8 (some 0xA55A#16)]).answers
        [scratchWrite Config.testConfig true, .expR 0x14#8 (some 0xA55A#16)] = true ∧
      (started .test [scratchWrite Config.testConfig true, .expR 0x14#8 none]).answers
        [scratchWrite Config.testConfig true, .expR 0x14#8 none] = true :=
  ⟨inSession_ready _ _ _, by decide +kernel, by decide +kernel, by decide +kernel⟩

theorem witness_SelectCompletes :
    (started otherBoard [selectWrite otherBoard.toConfig .eeprom true]).Free ∧
      (started otherBoard [selectWrite otherBoard.toConfig .eeprom true]).answers
        [selectWrite otherBoard.toConfig .eeprom true] = true :=
  ⟨started_free _ _, by decide +kernel⟩

theorem witness_SessionOpenCompletes :
    (started .test [selectWrite Config.testConfig .flash true]).Free ∧
      (started .test [selectWrite Config.testConfig .flash true]).answers
        [selectWrite Config.testConfig .flash true] = true :=
  ⟨started_free _ _, by decide +kernel⟩

/-- The fail-safe deselect failing and succeeding. -/
theorem witness_FailedSelectIsUndone :
    (started .test []).Free ∧
      (started .test [selectWrite Config.testConfig .eeprom false, deselectWrite Config.testConfig false]).answers
        [selectWrite Config.testConfig .eeprom false, deselectWrite Config.testConfig false] = true ∧
      (started .test [selectWrite Config.testConfig .eeprom false, deselectWrite Config.testConfig true]).answers
        [selectWrite Config.testConfig .eeprom false, deselectWrite Config.testConfig true] = true :=
  ⟨started_free _ _, by decide +kernel, by decide +kernel⟩

theorem witness_DeselectAllCompletes :
    (inSelect .test .flash [deselectWrite Config.testConfig false]).Ready ∧
      (inSelect .test .flash [deselectWrite Config.testConfig false]).session = false ∧
      (inSelect .test .flash [deselectWrite Config.testConfig false]).answers
        [deselectWrite Config.testConfig false] = true ∧
      (started .test [deselectWrite Config.testConfig true]).answers [deselectWrite Config.testConfig true] = true :=
  ⟨inSelect_ready _ _ _, rfl, by decide +kernel, by decide +kernel⟩

theorem witness_SessionCloseCompletes :
    (inSession .test .flash [deselectWrite Config.testConfig true]).Ready ∧
      (inSession .test .flash [deselectWrite Config.testConfig true]).session = true ∧
      (inSession .test .flash [deselectWrite Config.testConfig true]).answers
        [deselectWrite Config.testConfig true] = true :=
  ⟨inSession_ready _ _ _, rfl, by decide +kernel⟩

theorem witness_WithDeviceDeselectsExactlyOnce :
    (started .test []).Free ∧
      ∀ i ∈ [Instr.writeByte 0x03#8, .readByte, .expValidate, .setBitOrder .lsbFirst], isBodyCommand i = true :=
  ⟨started_free _ _, by decide⟩

/-- The last address of each width. -/
theorem witness_FrameIsOpcodeThenBigEndianAddress :
    0xFFFFFF < 2 ^ (8 * (AdmittedConfig.test.desc .flash).addrBytes) ∧
      0xFFFFFFFF < 2 ^ (8 * (otherBoard.desc .flash).addrBytes) ∧
      0xFF < 2 ^ (8 * (otherBoard.desc .eeprom).addrBytes) := by decide

/-- The last address with a length at the limit, and a read of nothing. -/
theorem witness_ReadCompletes :
    (started otherBoard (readEvents otherBoard.toConfig .eeprom 0xFF [0x80#8, 0x01#8])).Free ∧
      (0xFF#32 : Word).toNat < 2 ^ (8 * (otherBoard.desc .eeprom).addrBytes) ∧
      (2#32 : Word).toNat ≤ otherBoard.maxLen ∧ [0x80#8, 0x01#8].length = (2#32 : Word).toNat ∧
      (started otherBoard (readEvents otherBoard.toConfig .eeprom 0xFF [0x80#8, 0x01#8])).answers
        (readEvents otherBoard.toConfig .eeprom 0xFF [0x80#8, 0x01#8]) = true ∧
      (started .test (readEvents Config.testConfig .flash 0 [])).answers
        (readEvents Config.testConfig .flash 0 []) = true :=
  ⟨started_free _ _, by decide, by decide, by decide, by decide +kernel, by decide +kernel⟩

/-- A pin fault on the last address byte, and one on the last data byte. -/
theorem witness_FaultyReadCleansUp :
    (started .test []).Free ∧ (0x0010#32 : Word).toNat < 2 ^ (8 * (Config.testConfig.desc .eeprom).addrBytes) ∧
      (2#32 : Word).toNat ≤ Config.testConfig.maxLen ∧
      frame Config.testConfig .eeprom 0x10 = [0x03#8, 0x00#8] ++ 0x10#8 :: [] ∧
      (started .test (selectWrite Config.testConfig .eeprom true ::
          (frameEvents Config.testConfig [0x03#8, 0x00#8] ++ sentByte false .msbFirst true 0x10#8 ++
            [deselectWrite Config.testConfig true]))).answers
        (selectWrite Config.testConfig .eeprom true ::
          (frameEvents Config.testConfig [0x03#8, 0x00#8] ++ sentByte false .msbFirst true 0x10#8 ++
            [deselectWrite Config.testConfig true])) = true ∧
      [0x55#8].length < (2#32 : Word).toNat ∧
      (started .test (selectWrite Config.testConfig .eeprom true ::
          (frameEvents Config.testConfig (frame Config.testConfig .eeprom 0x10) ++
            dataEvents Config.testConfig [0x55#8] ++ receivedByte false .msbFirst true 0xAA#8 ++
            [deselectWrite Config.testConfig false]))).answers
        (selectWrite Config.testConfig .eeprom true ::
          (frameEvents Config.testConfig (frame Config.testConfig .eeprom 0x10) ++
            dataEvents Config.testConfig [0x55#8] ++ receivedByte false .msbFirst true 0xAA#8 ++
            [deselectWrite Config.testConfig false])) = true :=
  ⟨started_free _ _, by decide, by decide, by decide, by decide +kernel, by decide, by decide +kernel⟩

theorem witness_ReadAnswersAsItsTraceSays :
    (started .test []).Free ∧ (0xFFFF#32 : Word).toNat < 2 ^ (8 * (Config.testConfig.desc .eeprom).addrBytes) ∧
      (256#32 : Word).toNat ≤ Config.testConfig.maxLen :=
  ⟨started_free _ _, by decide, by decide⟩

theorem witness_ReadEventCounts :
    (nextOf (exec (.read .flash 0xFFFFFF#32 1#32) (started .test
      (readEvents Config.testConfig .flash 0xFFFFFF [0xA5#8])))).map State.lastCode = some (some .ok) := by
  decide +kernel

/-- A read of two bytes under a script with just enough answers. -/
theorem witness_ReadEqualsRawFrame :
    (started .test (readEvents Config.testConfig .eeprom 0x10 [0x55#8, 0xAA#8])).Free ∧
      (started .test (readEvents Config.testConfig .eeprom 0x10 [0x55#8, 0xAA#8])).order = .msbFirst ∧
      (0x10#32 : Word).toNat < 2 ^ (8 * (Config.testConfig.desc .eeprom).addrBytes) ∧
      (2#32 : Word).toNat ≤ Config.testConfig.maxLen ∧
      8 * (2#32 : Word).toNat ≤
        (started .test (readEvents Config.testConfig .eeprom 0x10 [0x55#8, 0xAA#8])).samples.length ∧
      2 ≤ (started .test (readEvents Config.testConfig .eeprom 0x10 [0x55#8, 0xAA#8])).expAcks.length ∧
      1 + (Config.testConfig.desc .eeprom).addrBytes + (2#32 : Word).toNat ≤
        (started .test (readEvents Config.testConfig .eeprom 0x10 [0x55#8, 0xAA#8])).pinFaults.length :=
  ⟨started_free _ _, rfl, by decide, by decide, by decide +kernel, by decide +kernel, by decide +kernel⟩

/-- With chunks, with none, and with nothing to dump. -/
theorem witness_DumpChunksCoverTheRange :
    (2 = if otherBoard.maxBurst = 0 then 5 else otherBoard.maxBurst) ∧
      (5 = if AdmittedConfig.test.maxBurst = 0 then 5 else AdmittedConfig.test.maxBurst) ∧
      (0 = if AdmittedConfig.test.maxBurst = 0 then 0 else AdmittedConfig.test.maxBurst) ∧
      (dumpChunks otherBoard.toConfig 0x10 5)[2]? = some { pos := 0x14, len := 1, rem := 1 } := by decide

/-- Three bytes up to the end of the address space, in two chunks. -/
theorem witness_DumpCompletes :
    (started otherBoard (dumpEvents otherBoard.toConfig .eeprom (dumpChunks otherBoard.toConfig 0xFD 3)
        [[1#8, 2#8], [3#8]])).Free ∧
      0 < (3#32 : Word).toNat ∧
      (0xFD#32 : Word).toNat + (3#32 : Word).toNat ≤ 2 ^ (8 * (otherBoard.desc .eeprom).addrBytes) ∧
      (dumpChunks otherBoard.toConfig 0xFD 3).getLast? = some { pos := 0xFF, len := 1, rem := 1 } ∧
      [[1#8, 2#8], [3#8]].map List.length = (dumpChunks otherBoard.toConfig 0xFD 3).map Chunk.len ∧
      (started otherBoard (dumpEvents otherBoard.toConfig .eeprom (dumpChunks otherBoard.toConfig 0xFD 3)
        [[1#8, 2#8], [3#8]])).answers
          (dumpEvents otherBoard.toConfig .eeprom (dumpChunks otherBoard.toConfig 0xFD 3) [[1#8, 2#8], [3#8]]) = true :=
  ⟨started_free _ _, by decide, by decide, by decide, by decide, by decide +kernel⟩

theorem witness_EmptyDumpDoesNothing :
    (started .test []).Free ∧ (started .test []).dumpPos = none ∧
      (0xFFFFFF#32 : Word).toNat < 2 ^ (8 * (Config.testConfig.desc .flash).addrBytes) :=
  ⟨started_free _ _, rfl, by decide⟩

theorem witness_DumpPresentsExactlyTheCompleteChunks :
    (started .test []).Free ∧ (0xFFFE#32 : Word).toNat < 2 ^ (8 * (Config.testConfig.desc .eeprom).addrBytes) ∧
      (0xFFFE#32 : Word).toNat + (2#32 : Word).toNat ≤ 2 ^ (8 * (Config.testConfig.desc .eeprom).addrBytes) :=
  ⟨started_free _ _, by decide, by decide⟩

/-- A read at the length limit, a dump up to the end, and a dump of nothing. -/
theorem witness_ReadsDeselectExactlyOnce :
    (started .test []).Free ∧ (0xFF00#32 : Word).toNat < 2 ^ (8 * (Config.testConfig.desc .eeprom).addrBytes) ∧
      (256#32 : Word).toNat ≤ Config.testConfig.maxLen ∧
      (0xFF00#32 : Word).toNat + (256#32 : Word).toNat ≤ 2 ^ (8 * (Config.testConfig.desc .eeprom).addrBytes) ∧
      (0xFF00#32 : Word).toNat + (0#32 : Word).toNat ≤ 2 ^ (8 * (Config.testConfig.desc .eeprom).addrBytes) :=
  ⟨started_free _ _, by decide, by decide, by decide, by decide⟩

/-- The events of an `INIT` of `otherBoard` up to its deselect write. -/
def otherSetUp : List Event :=
  [.pin .sck true, .pin .dout false] ++ (otherBoard.initWrites.map fun w => .expW w.1 w.2 true)

theorem witness_InitCompletes :
    (State.resetWith otherBoard).halted = false ∧ (State.resetWith otherBoard).handle = .none ∧
      (scripted (State.resetWith otherBoard) (otherSetUp ++ [deselectWrite otherBoard.toConfig true,
        scratchWrite otherBoard.toConfig true, .expR 0x14#8 (some 0xA55A#16)])).answers
          (otherSetUp ++ [deselectWrite otherBoard.toConfig true, scratchWrite otherBoard.toConfig true,
            .expR 0x14#8 (some 0xA55A#16)]) = true :=
  ⟨rfl, rfl, by decide +kernel⟩

/-- The second set-up write failing; the deselect write failing; the scratch write failing; the read giving another
value and failing. -/
theorem witness_InitFailures :
    ({ State.resetWith otherBoard with handle := .released } : State).handle = .released ∧
      otherBoard.initWrites = [(0x0A#8, 0x0000#16)] ++ (0x0B#8, 0xFFFF#16) :: [] ∧
      (scripted (State.resetWith otherBoard)
        [.pin .sck true, .pin .dout false, .expW 0x0A#8 0x0000#16 true, .expW 0x0B#8 0xFFFF#16 false]).answers
          [.pin .sck true, .pin .dout false, .expW 0x0A#8 0x0000#16 true, .expW 0x0B#8 0xFFFF#16 false] = true ∧
      (scripted (State.resetWith otherBoard) (otherSetUp ++ [deselectWrite otherBoard.toConfig false])).answers
        (otherSetUp ++ [deselectWrite otherBoard.toConfig false]) = true ∧
      (scripted (State.resetWith otherBoard) (otherSetUp ++ [deselectWrite otherBoard.toConfig true,
        scratchWrite otherBoard.toConfig false])).answers (otherSetUp ++ [deselectWrite otherBoard.toConfig true,
          scratchWrite otherBoard.toConfig false]) = true ∧
      some 0x0000#16 ≠ some otherBoard.expPattern ∧ none ≠ some otherBoard.expPattern ∧
      (scripted (State.resetWith otherBoard) (otherSetUp ++ [deselectWrite otherBoard.toConfig true,
        scratchWrite otherBoard.toConfig true, .expR 0x14#8 none])).answers
          (otherSetUp ++ [deselectWrite otherBoard.toConfig true, scratchWrite otherBoard.toConfig true,
            .expR 0x14#8 none]) = true :=
  ⟨rfl, rfl, by decide +kernel, by decide +kernel, by decide +kernel, by decide, by decide, by decide +kernel⟩

theorem witness_ValidateConfigCompletes :
    (started .test []).Free ∧
      (started .test [scratchWrite Config.testConfig true, .expR 0x14#8 (some 0xA55A#16)]).answers
        [scratchWrite Config.testConfig true, .expR 0x14#8 (some 0xA55A#16)] = true ∧
      (started .test [scratchWrite Config.testConfig false]).answers [scratchWrite Config.testConfig false] = true ∧
      some 0x0000#16 ≠ some Config.testConfig.expPattern ∧
      (started .test [scratchWrite Config.testConfig true, .expR 0x14#8 (some 0x0000#16)]).answers
        [scratchWrite Config.testConfig true, .expR 0x14#8 (some 0x0000#16)] = true :=
  ⟨started_free _ _, by decide +kernel, by decide +kernel, by decide, by decide +kernel⟩

theorem witness_ReleaseCompletes :
    (inSelect .test .flash []).halted = false ∧ (inSelect .test .flash []).session = false ∧
      (inSelect .test .flash []).handle = .valid ∧
      (inSelect .test .flash [deselectWrite Config.testConfig false]).answers
        [deselectWrite Config.testConfig false, .pin .sck false, .pin .dout false] = true ∧
      ({ started .test [] with handle := .notPresent } : State).handle = .notPresent :=
  ⟨rfl, rfl, rfl, by decide +kernel, rfl⟩

/-- A command in a session, a raw byte outside one, and a halted engine. -/
theorem witness_OnlyNamedCommandsWrite :
    (∃ t, exec (.select .flash) (inSession .test .flash []) = .next t) ∧
      (started .test []).session = false ∧ (∃ t, exec .readByte (started .test []) = .next t) ∧
      ({ started .test [] with halted := true } : State).halted = true :=
  ⟨⟨_, rfl⟩, rfl, ⟨_, rfl⟩, rfl⟩

/-- Steady states: in a session, after a dump of nothing, and halted. -/
theorem witness_SteadyIsKept :
    (inSession .test .flash []).Steady ∧
      ({ started .test [] with halted := true, outShadow := none } : State).Steady ∧
      ∃ t, step { inSession .test .flash [] with port := [0xFFFFFFFF#32] } = .next t := by
  refine ⟨⟨rfl, rfl, by decide, by decide, ?_, by decide, by decide, ⟨rfl, rfl, rfl⟩⟩,
    ⟨rfl, rfl, by decide, by decide, ?_, by decide, by decide, ⟨rfl, rfl, rfl⟩⟩, ⟨_, rfl⟩⟩
  · intro v h; exact (Option.mem_some_iff.1 h).symm
  · intro v h; cases h

/-- A history with a selecting and a deselecting write. -/
theorem witness_OutputWritesAreSelections :
    ({ started .test [] with history :=
        [selectWrite Config.testConfig .flash true, deselectWrite Config.testConfig false] } :
      State).OutWritesAreSelections ∧ ∃ t, step (State.resetWith .test) = .next t := by
  refine ⟨?_, ⟨_, rfl⟩⟩
  intro v hv
  have : v = selValue Config.testConfig (some .flash) ∨ v = selValue Config.testConfig none := by
    simpa [outWrites, selectWrite, deselectWrite, started, scripted, State.resetWith, AdmittedConfig.test] using hv
  rcases this with rfl | rfl
  · exact ⟨_, rfl⟩
  · exact ⟨_, rfl⟩

theorem witness_SelectionsAreAlwaysClosed :
    ({ started .test [] with history :=
        [selectWrite Config.testConfig .flash true, deselectWrite Config.testConfig true] } :
      State).SelectionsAreClosed ∧
      (State.resetWith .test).SelectionsAreClosed := by
  constructor
  · refine ⟨?_, ?_⟩
    · simp [outWrites, selectWrite, deselectWrite, started, scripted, State.resetWith, AdmittedConfig.test]
    · simp [outWrites, selectWrite, deselectWrite, started, scripted, State.resetWith, AdmittedConfig.test]
  · exact ⟨List.IsChain.nil, by simp [outWrites, State.resetWith]⟩

/-- The four kinds of state that the clauses speak of. -/
theorem witness_HaltedExactlyOnFailedDeselect :
    (started .test []).halted = false ∧ ({ started .test [] with halted := true } : State).halted = true ∧
      (∃ t, step { started .test [] with halted := true } = .next t) ∧
      (∃ t, step { started .test [] with resetInput := .midCommand } = .next t) ∧
      ({ started .test [] with halted := true, outShadow := none } : State).Steady ∧
      ∃ t, step { started .test [] with halted := true, outShadow := none } = .next t ∧ t.halted = true :=
  ⟨rfl, rfl, ⟨_, rfl⟩, ⟨_, rfl⟩, witness_SteadyIsKept.2.1, ⟨_, rfl, rfl⟩⟩

/-- A byte each way, a read and an `INIT` that succeed. -/
theorem witness_LeastTimes :
    (started .test []).Ready ∧ (∃ t, exec (.writeByte 0xFF#8) (started .test []) = .next t) ∧
      (nextOf (exec (.read .flash 0#32 0#32) (started .test (readEvents Config.testConfig .flash 0 [])))).map
        State.lastCode = some (some .ok) ∧
      (nextOf (exec .release (started .test [deselectWrite Config.testConfig true]))).map State.lastCode =
        some (some .ok) :=
  ⟨started_ready _ _, ⟨_, rfl⟩, by decide +kernel, by decide +kernel⟩

end Sys2Proof.Tests
end

section
/-!
The scope of the engine (spec/00_scope.md R13 to R15) and the writes of the output register
(spec/41_expander_select.md R146). One relation, `Reaches`, says what every operation of the model keeps: the oracles
answered as the recorded events say, the history only grew, and each output-register write among the new events is a
selection. It holds of every primitive, procedure and command, and both statements of this part follow from it.
-/

namespace Sys2Proof.Machine

/-! ### Traces that write selections only -/

/-- Every write of the output register in a trace is `sel_value(t)` for one `t` (R146). -/
def SelectionsOnly (c : Config) (es : List Event) : Prop := ∀ v ∈ outWrites c es, ∃ x, v = selValue c x

theorem outWritesAreSelections_iff (s : State) :
    s.OutWritesAreSelections ↔ SelectionsOnly s.cfg.toConfig s.history := Iff.rfl

theorem selectionsOnly_nil (c : Config) : SelectionsOnly c [] := by simp [SelectionsOnly]

theorem selectionsOnly_append {c : Config} {es fs : List Event} :
    SelectionsOnly c (es ++ fs) ↔ SelectionsOnly c es ∧ SelectionsOnly c fs := by
  simp [SelectionsOnly, outWrites_append, or_imp, forall_and]

theorem selectionsOnly_onLines (c : Config) {es : List Event} (h : OnLines es) : SelectionsOnly c es := by
  simp [SelectionsOnly, outWrites_onLines c h]

/-- An expander write is a selection if it goes to another register or selects. -/
theorem selectionsOnly_expW {c : Config} {a : RegAddr} {v : RegValue} (ok : Bool)
    (h : a = c.expOutReg → ∃ x, v = selValue c x) : SelectionsOnly c [.expW a v ok] := by
  by_cases ha : a = c.expOutReg <;> simp_all [SelectionsOnly, outWrites]

theorem selectionsOnly_selectWrite (c : Config) (d : Device) (ok : Bool) : SelectionsOnly c [selectWrite c d ok] :=
  selectionsOnly_expW ok fun _ => ⟨some d, rfl⟩

theorem selectionsOnly_deselectWrite (c : Config) (ok : Bool) : SelectionsOnly c [deselectWrite c ok] :=
  selectionsOnly_expW ok fun _ => ⟨none, rfl⟩

/-- The two values that a read sequence writes (R193) are selections. -/
theorem selection_of_mem_pair {c : Config} {d : Device} {v : RegValue}
    (h : v ∈ [selValue c (some d), selValue c none]) : ∃ x, v = selValue c x :=
  (List.mem_pair.1 h).elim (fun hv => ⟨some d, hv⟩) fun hv => ⟨none, hv⟩

/-! ### What every operation keeps -/

/-- The state `t` has come from `s` by the events `es`: the oracles answered so, the outside of `t` is that of `s` after
them, the configuration stands, and the events write selections only. Unlike `Ran` it leaves every register of the
engine free, the responses and the bit order among them, so that it holds of whole commands. -/
structure Traced (s : State) (es : List Event) (t : State) : Prop where
  answered : s.answers es = true
  outside : t.outside = (s.noteAll es).outside
  cfg : t.cfg = s.cfg
  selections : SelectionsOnly s.cfg.toConfig es

/-- The state `t` has come from `s` by some trace. -/
def Reaches (s t : State) : Prop := ∃ es, Traced s es t

theorem Ran.reaches {s t : State} {es : List Event} (h : Ran s es t) (hw : SelectionsOnly s.cfg.toConfig es) :
    Reaches s t := ⟨es, h.answered, h.outside, h.cfg, hw⟩

/-- The state's own registers may change freely. -/
theorem reaches_of_same_outside {s t : State} (ho : t.outside = s.outside) (hc : t.cfg = s.cfg) : Reaches s t :=
  ⟨[], answers_nil s, ho, hc, selectionsOnly_nil _⟩

theorem Reaches.refl (s : State) : Reaches s s := reaches_of_same_outside rfl rfl

theorem Reaches.trans {s t u : State} (h : Reaches s t) (k : Reaches t u) : Reaches s u := by
  obtain ⟨es, ha, ho, hc, hw⟩ := h
  obtain ⟨fs, ka, ko, kc, kw⟩ := k
  refine ⟨es ++ fs, (answers_append _ _ _).2 ⟨ha, answers_of_outside ka ho.symm⟩, ?_, kc.trans hc,
    selectionsOnly_append.2 ⟨hw, hc ▸ kw⟩⟩
  rw [ko, noteAll_outside_congr ho, noteAll_append]

/-- What a run leaves, with other values in the engine's own registers. -/
theorem Reaches.with_registers {s t u : State} (h : Reaches s t) (ho : u.outside = t.outside) (hc : u.cfg = t.cfg) :
    Reaches s u := h.trans (reaches_of_same_outside ho hc)

/-- The invariant of R146 is kept wherever a run leads. -/
theorem Reaches.outWritesAreSelections {s t : State} (h : Reaches s t) (hs : s.OutWritesAreSelections) :
    t.OutWritesAreSelections := by
  obtain ⟨es, -, ho, hc, hw⟩ := h
  rw [outWritesAreSelections_iff, (outside_eq_iff.1 ho).1, noteAll_history, hc]
  exact selectionsOnly_append.2 ⟨hs, hw⟩

/-! ### The primitives and the response -/

theorem reaches_respond (s : State) (code : Code) (p : Option Payload) : Reaches s (s.respond code p) :=
  ⟨[.resp code], answers_resp s code, rfl, rfl, by simp [SelectionsOnly, outWrites]⟩

theorem Reaches.respond {s t : State} {code : Code} {p : Option Payload} (h : Reaches s t) :
    Reaches s (t.respond code p) := h.trans (reaches_respond t code p)

theorem reaches_expWrite {s : State} {a : RegAddr} {v : RegValue}
    (h : a = s.cfg.expOutReg → ∃ x, v = selValue s.cfg.toConfig x) : Reaches s (s.expWrite a v).2 := by
  obtain ⟨ok, ha, he⟩ := expWrite_eq s a v
  rw [he]
  exact ⟨_, ha, rfl, rfl, selectionsOnly_expW ok h⟩

theorem reaches_expRead (s : State) (a : RegAddr) : Reaches s (s.expRead a).2 := by
  obtain ⟨r, ha, he⟩ := expRead_eq s a
  rw [he]
  exact ⟨_, ha, rfl, rfl, by simp [SelectionsOnly, outWrites]⟩

theorem reaches_idlePins (s : State) : Reaches s (idlePins s) :=
  ⟨[.pin .sck s.cfg.cpol, .pin .dout false], rfl, rfl, rfl, selectionsOnly_onLines _ (by simp [OnLines, isLineEvent])⟩

/-! ### Bytes -/

theorem reaches_xferOut (v : Byte) (ord : BitOrder) (s : State) : Reaches s (xferOut v ord s).2 := by
  obtain ⟨fault, ha, he⟩ := xferOut_eq v ord s
  rw [he]
  exact (ran_with ha ..).reaches (selectionsOnly_onLines _ (onLines_sentByte _ _ _ _))

theorem reaches_xferIn (ord : BitOrder) (s : State) : Reaches s (xferIn ord s).2 := by
  obtain ⟨fault, v, ha, he⟩ := xferIn_eq ord s
  rw [he]
  exact (ran_with ha ..).reaches (selectionsOnly_onLines _ (onLines_receivedByte _ _ _ _))

/-! ### The expander procedures -/

/-- R145. The one write deselects, whatever it is answered. -/
theorem reaches_doDeselect (s : State) : Reaches s (doDeselect s).2 := by
  obtain ⟨ok, h⟩ := deselectWrite_answered s
  rw [doDeselect_of_answers h]
  exact (ran_with h ..).reaches (selectionsOnly_deselectWrite _ ok)

/-- R143. The write selects `d`, and a failed one is followed by a deselect. -/
theorem reaches_doSelect (d : Device) (s : State) : Reaches s (doSelect d s).2 := by
  rcases selectWrite_answered s d with h | ⟨ok, h⟩
  · rw [doSelect_of_ok h]
    exact (ran_with h ..).reaches (selectionsOnly_selectWrite _ d true)
  · rw [doSelect_of_failed h]
    exact (ran_with h ..).reaches ((selectionsOnly_append (es := [_])).2
      ⟨selectionsOnly_selectWrite _ d false, selectionsOnly_deselectWrite _ ok⟩)

/-- R142. The check writes the scratch register, which R11 keeps apart from the output register. -/
theorem reaches_validate (s : State) : Reaches s (validate s).2 := by
  obtain ⟨-, -, -, -, -, hscratch, -⟩ := AdmittedConfig_facts s.cfg
  have written : Reaches s (s.expWrite s.cfg.expScratchReg s.cfg.expPattern).2 :=
    reaches_expWrite fun h => absurd h hscratch
  rw [validate]
  split
  · exact written.trans (reaches_expRead _ _)
  · exact written

theorem reaches_cleanup (s : State) : Reaches s (cleanup s) :=
  Reaches.trans (t := { s with session := false }) (reaches_of_same_outside rfl rfl) (reaches_doDeselect _)

theorem reaches_abortTransfer (s : State) : Reaches s (abortTransfer s) := by
  refine Reaches.respond ?_
  split
  · exact reaches_cleanup s
  · exact .refl s

/-! ### Set-up, reads and dumps -/

/-- R220. `INIT_WRITES` holds no write of the output register (R11). -/
theorem reaches_setupWrites (ws : List (RegAddr × RegValue)) (s : State) (h : ∀ w ∈ ws, w.1 ≠ s.cfg.expOutReg) :
    Reaches s (setupWrites ws s).2 := by
  induction ws generalizing s with
  | nil => exact .refl s
  | cons w ws ih =>
    obtain ⟨hw, hws⟩ := List.forall_mem_cons.1 h
    have written : Reaches s (s.expWrite w.1 w.2).2 := reaches_expWrite fun ha => absurd ha hw
    rw [setupWrites]
    split
    · exact written.trans (ih _ hws)
    · exact written

theorem reaches_failHandle (code : Code) (s : State) : Reaches s (failHandle code s) :=
  .respond (reaches_of_same_outside rfl rfl)

theorem reaches_readFrame (d : Device) (a n : Nat) (s : State) : Reaches s (readFrame d a n s).after := by
  obtain ⟨es, r⟩ := readFrame_run s d a n
  refine r.ran.reaches fun v hv => ?_
  rw [r.writes] at hv
  exact selection_of_mem_pair hv

theorem reaches_dumpLoop (d : Device) (chunks : List Chunk) (s : State) : Reaches s (dumpLoop d chunks s).2 := by
  obtain ⟨es, r⟩ := dumpLoop_run d chunks s
  refine r.ran.reaches fun v hv => ?_
  rw [r.writes] at hv
  obtain ⟨pair, hp, hv⟩ := List.mem_flatten.1 hv
  obtain rfl := List.eq_of_mem_replicate hp
  exact selection_of_mem_pair hv

/-! ### The commands -/

/-- A command behind the gate: a rejection is a response, and a body that passes answers for itself. -/
theorem reaches_gated {g : GateCase} {s : State} {body : State → State} (h : Reaches s (body s)) :
    Reaches s (gated g s body) := by
  cases hg : gate g s with
  | some code => rw [gated_of_reject hg]; exact reaches_respond s code none
  | none => rwa [gated_of_pass hg]

theorem execInit_reaches (s : State) : ∃ t, execInit s = .next t ∧ Reaches s t := by
  obtain ⟨-, -, -, -, -, -, hinit, -⟩ := AdmittedConfig_facts s.cfg
  have setUp := (reaches_idlePins s).trans (reaches_setupWrites s.cfg.initWrites _ hinit)
  have off := setUp.trans (reaches_doDeselect _)
  have checked := off.trans (reaches_validate _)
  refine ⟨_, rfl, reaches_gated ?_⟩
  dsimp only
  split
  · exact setUp.trans (reaches_failHandle _ _)
  · split
    · exact off.trans (reaches_failHandle _ _)
    · split
      · exact checked.trans (reaches_failHandle _ _)
      · exact .respond (checked.with_registers rfl rfl)

theorem execValidateConfig_reaches (s : State) : ∃ t, execValidateConfig s = .next t ∧ Reaches s t := by
  refine ⟨_, rfl, reaches_gated ?_⟩
  dsimp only
  split
  · exact reaches_respond s _ _
  · split
    · exact (reaches_validate s).respond
    · exact (reaches_validate s).trans (reaches_failHandle _ _)

theorem execRelease_reaches (s : State) : ∃ t, execRelease s = .next t ∧ Reaches s t := by
  have off : Reaches s (if s.handle = .valid then doDeselect s else (true, s)).2 := by
    split
    · exact reaches_doDeselect s
    · exact .refl s
  refine ⟨_, rfl, reaches_gated ?_⟩
  dsimp only
  split
  · exact reaches_respond s _ _
  · exact .respond ((off.trans (reaches_idlePins _)).with_registers rfl rfl)

theorem execWriteByte_reaches (value : Byte) (s : State) : ∃ t, execWriteByte value s = .next t ∧ Reaches s t := by
  have sent := reaches_xferOut value s.order s
  refine ⟨_, rfl, reaches_gated ?_⟩
  dsimp only
  split
  · exact sent.respond
  · exact sent.trans (reaches_abortTransfer _)

theorem execReadByte_reaches (s : State) : ∃ t, execReadByte s = .next t ∧ Reaches s t := by
  have got := reaches_xferIn s.order s
  refine ⟨_, rfl, reaches_gated ?_⟩
  dsimp only
  split
  · exact got.respond
  · exact got.trans (reaches_abortTransfer _)

theorem execExpValidate_reaches (s : State) : ∃ t, execExpValidate s = .next t ∧ Reaches s t :=
  ⟨_, rfl, reaches_gated ((reaches_validate s).respond)⟩

theorem execSelect_reaches (d : Device) (s : State) : ∃ t, execSelect d s = .next t ∧ Reaches s t := by
  refine ⟨_, rfl, reaches_gated ?_⟩
  dsimp only
  split
  · exact reaches_respond s _ _
  · exact (reaches_doSelect d s).respond

theorem execDeselectAll_reaches (s : State) : ∃ t, execDeselectAll s = .next t ∧ Reaches s t := by
  refine ⟨_, rfl, reaches_gated ?_⟩
  dsimp only
  split
  · exact reaches_respond s _ _
  · exact (reaches_doDeselect s).respond

theorem execSessionOpen_reaches (d : Device) (s : State) : ∃ t, execSessionOpen d s = .next t ∧ Reaches s t := by
  have done := reaches_doSelect d s
  refine ⟨_, rfl, reaches_gated ?_⟩
  dsimp only
  split
  · exact reaches_respond s _ _
  · split
    · exact .respond (done.with_registers rfl rfl)
    · exact done.respond

/-- R173 closes as the cleanup of R244 does: no session, and one deselect attempt. -/
theorem execSessionClose_reaches (s : State) : ∃ t, execSessionClose s = .next t ∧ Reaches s t := by
  refine ⟨_, rfl, reaches_gated ?_⟩
  dsimp only
  split
  · exact reaches_respond s _ _
  · exact (reaches_cleanup s).respond

theorem execRead_reaches (d : Device) (a n : Word) (s : State) : ∃ t, execRead d a n s = .next t ∧ Reaches s t := by
  refine ⟨_, rfl, reaches_gated ?_⟩
  dsimp only
  split
  · exact reaches_respond s _ _
  · split
    · exact reaches_respond s _ _
    · exact (reaches_readFrame d a.toNat n.toNat s).respond

theorem execDump_reaches (d : Device) (a len : Word) (s : State) : ∃ t, execDump d a len s = .next t ∧ Reaches s t := by
  refine ⟨_, rfl, reaches_gated ?_⟩
  dsimp only
  split
  · exact reaches_respond s _ _
  · split
    · exact reaches_respond s _ _
    · exact .respond ((reaches_dumpLoop d _ s).with_registers rfl rfl)

theorem execSetBitOrder_reaches (order : BitOrder) (s : State) :
    ∃ t, execSetBitOrder order s = .next t ∧ Reaches s t :=
  ⟨_, rfl, reaches_gated (.respond (reaches_of_same_outside rfl rfl))⟩

/-- Every command has a next state (R241), and its run is traced. -/
theorem exec_reaches (i : Instr) (s : State) : ∃ t, exec i s = .next t ∧ Reaches s t := by
  cases i with
  | init => exact execInit_reaches s
  | validateConfig => exact execValidateConfig_reaches s
  | release => exact execRelease_reaches s
  | writeByte value => exact execWriteByte_reaches value s
  | readByte => exact execReadByte_reaches s
  | expValidate => exact execExpValidate_reaches s
  | select d => exact execSelect_reaches d s
  | deselectAll => exact execDeselectAll_reaches s
  | sessionOpen d => exact execSessionOpen_reaches d s
  | sessionClose => exact execSessionClose_reaches s
  | read d a n => exact execRead_reaches d a n s
  | dump d a len => exact execDump_reaches d a len s
  | setBitOrder order => exact execSetBitOrder_reaches order s

/-! ### The step -/

/-- A reset from outside empties the history (R270). -/
theorem takeReset_history {s t : State} (h : s.takeReset = some t) : t.history = [] := by
  rw [State.takeReset] at h
  split at h <;> cases h <;> rfl

/-- A step is a reset, after which the history is empty, or it is a traced run. -/
theorem step_cases {s t : State} (h : step s = .next t) : t.history = [] ∨ Reaches s t := by
  have taken : ∀ rest, Reaches s (s.withPort rest) := fun _ => reaches_of_same_outside rfl rfl
  unfold step at h
  split at h
  next _ hr =>
    cases h
    exact .inl (takeReset_history hr)
  next =>
    right
    split at h
    next => cases h; exact .refl s
    next _ rest _ => cases h; exact (taken rest).respond
    next i rest _ =>
      obtain ⟨u, hu, hrun⟩ := exec_reaches i (s.withPort rest)
      obtain rfl : u = t := Host.Outcome.next.inj (hu.symm.trans h)
      exact (taken rest).trans hrun

/-! ### The select lines of a selection -/

/-- R141: the value that selects `x` asserts the line of `x` and of no other device. -/
theorem lineAsserted_selValue (c : AdmittedConfig) (x : Option Device) (d : Device) :
    lineAsserted c.toConfig (selValue c.toConfig x) d = true ↔ x = some d := by
  obtain ⟨hne, -⟩ := AdmittedConfig_facts c
  have level : (selValue c.toConfig x).getLsbD (c.desc d).selLine = selLevel c.toConfig x d := by
    cases d <;> simp [getLsbD_selValue, Config.desc, hne]
  rw [lineAsserted, level, selLevel]
  split <;> simp_all

/-! ### The obligations -/

/-- Settles O12: the trace of the command's run, read field by field. -/
theorem recordedDrawsAreTheOraclesAnswers : Obligations.RecordedDrawsAreTheOraclesAnswers := by
  intro i s
  obtain ⟨t, ht, es, answered, outside, -, -⟩ := exec_reaches i s
  obtain ⟨history, scripts⟩ := outside_eq_iff.1 outside
  exact ⟨t, es, ht, answered, history.trans (noteAll_history s es), scripts⟩

/-- Settles O52: a reset leaves no write, every other step adds selections only, and a selection asserts the line of
at most one device. -/
theorem outputWritesAreSelections : Obligations.OutputWritesAreSelections := by
  refine ⟨fun s t hs h => ?_, fun s hs v hv ⟨hflash, heeprom⟩ => ?_⟩
  · rcases step_cases h with hempty | hrun
    · rw [outWritesAreSelections_iff, hempty]
      exact selectionsOnly_nil _
    · exact hrun.outWritesAreSelections hs
  · obtain ⟨x, rfl⟩ := hs v hv
    have hx : some Device.flash = some .eeprom :=
      ((lineAsserted_selValue _ _ _).1 hflash).symm.trans ((lineAsserted_selValue _ _ _).1 heeprom)
    cases hx

end Sys2Proof.Machine
end

section
/-!
What a command can do, said once. `CommandRun` has one constructor for each way the body of a command can end, and every
command is such a run followed by its one response (`exec_responded`). The statements on responses (spec/10_state.md
R51), on what holds between commands (R44) and on the frame of the command set follow by cases on it.
-/

namespace Sys2Proof.Machine

/-! ### Runs without a response -/

/-- No event of a trace is a response. -/
def Quiet (es : List Event) : Prop := ∀ e ∈ es, isResp e = false

theorem Quiet.append {es fs : List Event} (h : Quiet es) (k : Quiet fs) : Quiet (es ++ fs) :=
  fun e he => (List.mem_append.1 he).elim (h e) (k e)

theorem quiet_onLines {es : List Event} (h : OnLines es) : Quiet es := by
  intro e he
  have := h e he
  cases e <;> simp_all [isLineEvent, isResp]

theorem quiet_setupEvents (ws : List (RegAddr × RegValue)) : Quiet (setupEvents ws) := by
  intro e he
  obtain ⟨w, -, rfl⟩ := List.mem_map.1 he
  rfl

theorem quiet_expW (a : RegAddr) (v : RegValue) (ok : Bool) : Quiet [.expW a v ok] := by simp [Quiet, isResp]

/-! ### States that procedures leave -/

/-- `s` after a byte moved (R112 to R114). -/
@[simp] def State.movedByte (s : State) (es : List Event) (sr : Byte) (dout : Bool) : State :=
  { s.noteAll es with sr := sr, dout := dout, sck := s.cfg.cpol, bitcnt := 0, bus := busAfterByte s.bus }

/-- `s` after a deselect attempt answered `ok` (R145). -/
@[simp] def State.deselected (s : State) (ok : Bool) : State :=
  { s.noteAll [deselectWrite s.cfg.toConfig ok] with
    bus := .idle, seldev := none, halted := s.halted || !ok
    outShadow := if ok = true then some (selValue s.cfg.toConfig none) else none }

/-- `s` after device `d` was selected (R143). -/
@[simp] def State.selected (s : State) (d : Device) : State :=
  { s.noteAll [selectWrite s.cfg.toConfig d true] with
    bus := .selected, seldev := some d, outShadow := some (selValue s.cfg.toConfig (some d)) }

/-! ### What each procedure leaves, whatever the outside answers -/

theorem xferOut_moves (v : Byte) (ord : BitOrder) (s : State) :
    ∃ fault es dout, Quiet es ∧ xferOut v ord s = (!fault, s.movedByte es 0#8 dout) := by
  obtain ⟨fault, -, he⟩ := xferOut_eq v ord s
  exact ⟨fault, _, _, quiet_onLines (onLines_sentByte s.cfg.cpol ord fault v), he⟩

theorem xferIn_moves (ord : BitOrder) (s : State) :
    ∃ fault es v, Quiet es ∧ xferIn ord s = (!fault, s.movedByte es v s.dout) := by
  obtain ⟨fault, v, -, he⟩ := xferIn_eq ord s
  refine ⟨fault, _, v, quiet_onLines (onLines_receivedByte s.cfg.cpol ord fault v), ?_⟩
  simp only [he, State.movedByte, noteAll_eq]

theorem doDeselect_deselects (s : State) : ∃ ok, doDeselect s = (ok, s.deselected ok) := by
  obtain ⟨ok, h⟩ := deselectWrite_answered s
  exact ⟨ok, doDeselect_of_answers h⟩

theorem cleanup_deselects (s : State) : ∃ ok, cleanup s = State.deselected { s with session := false } ok := by
  obtain ⟨ok, h⟩ := doDeselect_deselects { s with session := false }
  exact ⟨ok, congrArg Prod.snd h⟩

/-- A select that fails leaves the state that its fail-safe deselect leaves. -/
theorem doSelect_selects (d : Device) (s : State) :
    doSelect d s = (true, s.selected d) ∨
      ∃ ok, doSelect d s = (false, (s.noteAll [selectWrite s.cfg.toConfig d false]).deselected ok) := by
  rcases selectWrite_answered s d with h | ⟨ok, h⟩
  · exact .inl (doSelect_of_ok h)
  · refine .inr ⟨ok, (doSelect_of_failed h).trans ?_⟩
    simp

theorem validate_notes (s : State) : ∃ ok es, Quiet es ∧ validate s = (ok, s.noteAll es) := by
  rcases scratchWrite_answered s with h | ⟨r, h⟩
  · exact ⟨_, _, quiet_expW _ _ _, validate_of_failed h⟩
  · exact ⟨_, _, by simp [Quiet, scratchWrite, isResp], validate_of_read h⟩

theorem setupWrites_notes (ws : List (RegAddr × RegValue)) (s : State) :
    ∃ ok es, Quiet es ∧ setupWrites ws s = (ok, s.noteAll es) := by
  rcases setup_answered ws s with h | ⟨pre, w, post, rfl, h⟩
  · exact ⟨_, _, quiet_setupEvents ws, setupWrites_of_answers h⟩
  · exact ⟨_, _, (quiet_setupEvents pre).append (quiet_expW _ _ _), setupWrites_of_fault h⟩

/-! ### What a command can do -/

/-- What the body of a command can do, one constructor per way it can end: `CommandRun s i c p u` says that `i`, begun
in `s`, leaves `u` and then answers code `c` with payload `p`. A command that a check rejects (R242) leaves `s`. -/
inductive CommandRun (s : State) : Instr → Code → Option Payload → State → Prop
  | rejected {i : Instr} {c : Code} (failed : c ≠ .ok) : CommandRun s i c none s
  | orderSet (o : BitOrder) : CommandRun s (.setBitOrder o) .ok none { s with order := o }
  | checked {es : List Event} (quiet : Quiet es) (v : Bool) :
      CommandRun s .expValidate .ok (some (.valid v)) (s.noteAll es)
  | configValid {es : List Event} (quiet : Quiet es) : CommandRun s .validateConfig .ok none (s.noteAll es)
  | configInvalid {es : List Event} (free : s.Free) (quiet : Quiet es) :
      CommandRun s .validateConfig .expanderNotPresent none { s.noteAll es with handle := .notPresent }
  | byteSent {es : List Event} (ready : s.Ready) (quiet : Quiet es) (v : Byte) (dout : Bool) :
      CommandRun s (.writeByte v) .ok none (s.movedByte es 0#8 dout)
  | byteReceived {es : List Event} (ready : s.Ready) (quiet : Quiet es) (v : Byte) :
      CommandRun s .readByte .ok (some (.byte v)) (s.movedByte es v s.dout)
  | byteAborted {i : Instr} {es : List Event} {sr : Byte} {dout : Bool} (ready : s.Ready) (quiet : Quiet es)
      (byte : (∃ v, i = .writeByte v) ∨ i = .readByte ∧ dout = s.dout) (outside : s.session = false) :
      CommandRun s i .transferAborted none (s.movedByte es sr dout)
  | sessionAborted {i : Instr} {es : List Event} {sr : Byte} {dout : Bool} (ready : s.Ready) (quiet : Quiet es)
      (byte : (∃ v, i = .writeByte v) ∨ i = .readByte ∧ dout = s.dout) (inside : s.session = true) (ok : Bool) :
      CommandRun s i .transferAborted none (State.deselected { s.movedByte es sr dout with session := false } ok)
  | selected (free : s.Free) (d : Device) : CommandRun s (.select d) .ok none (s.selected d)
  | sessionOpened (free : s.Free) (d : Device) :
      CommandRun s (.sessionOpen d) .ok none { s.selected d with session := true }
  | selectFailed {i : Instr} {d : Device} (free : s.Free) (opens : i = .select d ∨ i = .sessionOpen d) (ok : Bool) :
      CommandRun s i .selectFailure none ((s.noteAll [selectWrite s.cfg.toConfig d false]).deselected ok)
  | deselected (ready : s.Ready) (outside : s.session = false) (ok : Bool) :
      CommandRun s .deselectAll (if ok then .ok else .selectFailure) none (s.deselected ok)
  | sessionClosed (ready : s.Ready) (ok : Bool) :
      CommandRun s .sessionClose (if ok then .ok else .selectFailure) none
        (State.deselected { s with session := false } ok)
  | released (ready : s.Ready) (outside : s.session = false) (ok : Bool) :
      CommandRun s .release (if ok then .ok else .selectFailure) none
        { idlePins (s.deselected ok) with handle := .released }
  | releasedAbsent (absent : s.handle = .notPresent) :
      CommandRun s .release .ok none { idlePins s with handle := .released }
  | setupFailed {es : List Event} (closed : s.handle ≠ .valid) (quiet : Quiet es) :
      CommandRun s .init .expanderNotPresent none { (idlePins s).noteAll es with handle := .notPresent }
  | setUp {es fs : List Event} {c : Code} (closed : s.handle ≠ .valid) (running : s.halted = false)
      (quiet : Quiet es) (quiet' : Quiet fs) (ok : Bool) (refused : ok = false → c = .selectFailure) :
      CommandRun s .init c none
        { (((idlePins s).noteAll es).deselected ok).noteAll fs with
          handle := if c = .ok then .valid else .notPresent }
  | readRun {es : List Event} {d : Device} {a n : Word} {r : FrameResult} (free : s.Free)
      (run : ReadRun s d a.toNat n.toNat es r) :
      CommandRun s (.read d a n) r.code (if r.code = .ok then some (.bytes r.rx) else none) r.after
  | dumpRun {es : List Event} {d : Device} {a len : Word} {c : Code} {u : State} (free : s.Free)
      (run : DumpRun s d (dumpChunks s.cfg.toConfig a.toNat len.toNat) es c u) :
      CommandRun s (.dump d a len) c none { u with dumpPos := none }

/-- The state `t` is what the command `i` leaves: its body has run, and it has responded. -/
def Responded (s : State) (i : Instr) (t : State) : Prop := ∃ c p u, CommandRun s i c p u ∧ t = u.respond c p

theorem CommandRun.responded {s u : State} {i : Instr} {c : Code} {p : Option Payload} (h : CommandRun s i c p u) :
    Responded s i (u.respond c p) := ⟨c, p, u, h, rfl⟩

/-! ### The gate -/

/-- A command behind the gate: what its body does, or a rejection. -/
theorem gated_responded {g : GateCase} {s : State} {i : Instr} {body : State → State}
    (h : gate g s = none → Responded s i (body s)) : Responded s i (gated g s body) := by
  cases hg : gate g s with
  | none => rw [gated_of_pass hg]; exact h hg
  | some c =>
    rw [gated_of_reject hg]
    have failed : c ≠ .ok := by
      rintro rfl
      simpa [hg] using gate_cases g s
    exact (CommandRun.rejected failed).responded

theorem gate_pass_running {g : GateCase} {s : State} (h : gate g s = none) : s.halted = false := by
  simpa [h] using gate_cases g s

/-! ### The commands -/

theorem execInit_responded (s : State) : ∃ t, execInit s = .next t ∧ Responded s .init t := by
  refine ⟨_, rfl, gated_responded fun hg => ?_⟩
  have closed : s.handle ≠ .valid := by rcases gate_init_pass hg with h | h <;> simp [h]
  have running := gate_pass_running hg
  obtain ⟨up, es, hes, hup⟩ := setupWrites_notes s.cfg.initWrites (idlePins s)
  obtain ⟨ok, hoff⟩ := doDeselect_deselects ((idlePins s).noteAll es)
  obtain ⟨good, fs, hfs, hcheck⟩ := validate_notes (((idlePins s).noteAll es).deselected ok)
  simp only [hup]
  cases up with
  | false => exact (CommandRun.setupFailed closed hes).responded
  | true =>
    simp only [Bool.not_true, Bool.false_eq_true, if_false, hoff]
    cases ok with
    | false => exact (CommandRun.setUp (c := .selectFailure) (fs := []) closed running hes (by simp [Quiet]) false
        fun _ => rfl).responded
    | true =>
      simp only [Bool.not_true, Bool.false_eq_true, if_false, hcheck]
      cases good with
      | false => exact (CommandRun.setUp (c := .expanderNotPresent) closed running hes hfs true (by simp)).responded
      | true => exact (CommandRun.setUp (c := .ok) closed running hes hfs true (by simp)).responded

theorem execValidateConfig_responded (s : State) :
    ∃ t, execValidateConfig s = .next t ∧ Responded s .validateConfig t := by
  refine ⟨_, rfl, gated_responded fun hg => ?_⟩
  obtain ⟨good, es, hes, hcheck⟩ := validate_notes s
  dsimp only
  split
  · exact (CommandRun.rejected (by simp)).responded
  next hb =>
    rw [hcheck]
    cases good with
    | false => exact (CommandRun.configInvalid (free_of_pass hg (by simpa using hb)) hes).responded
    | true => exact (CommandRun.configValid hes).responded

theorem execRelease_responded (s : State) : ∃ t, execRelease s = .next t ∧ Responded s .release t := by
  refine ⟨_, rfl, gated_responded fun hg => ?_⟩
  dsimp only
  split
  · exact (CommandRun.rejected (by simp)).responded
  next outside =>
    rcases gate_release_pass hg with valid | absent
    · obtain ⟨ok, hoff⟩ := doDeselect_deselects s
      rw [if_pos valid, hoff]
      exact (CommandRun.released ⟨gate_pass_running hg, valid⟩ (by simpa using outside) ok).responded
    · rw [if_neg (by simp [absent])]
      exact (CommandRun.releasedAbsent absent).responded

/-- A byte that met a pin fault (R244). -/
theorem abortTransfer_responded {s : State} {i : Instr} {es : List Event} {sr : Byte} {dout : Bool} (ready : s.Ready)
    (quiet : Quiet es) (byte : (∃ v, i = .writeByte v) ∨ i = .readByte ∧ dout = s.dout) :
    Responded s i (abortTransfer (s.movedByte es sr dout)) := by
  have session : (s.movedByte es sr dout).session = s.session := noteAll_session s es
  obtain ⟨ok, hclean⟩ := cleanup_deselects (s.movedByte es sr dout)
  rw [abortTransfer, session, hclean]
  cases h : s.session with
  | false => exact (CommandRun.byteAborted ready quiet byte h).responded
  | true => exact (CommandRun.sessionAborted ready quiet byte h ok).responded

theorem execWriteByte_responded (v : Byte) (s : State) :
    ∃ t, execWriteByte v s = .next t ∧ Responded s (.writeByte v) t := by
  refine ⟨_, rfl, gated_responded fun hg => ?_⟩
  obtain ⟨fault, es, dout, hes, hsent⟩ := xferOut_moves v s.order s
  dsimp only
  rw [hsent]
  cases fault with
  | false => exact (CommandRun.byteSent (gate_other_valid hg) hes v dout).responded
  | true => exact abortTransfer_responded (gate_other_valid hg) hes (.inl ⟨v, rfl⟩)

theorem execReadByte_responded (s : State) : ∃ t, execReadByte s = .next t ∧ Responded s .readByte t := by
  refine ⟨_, rfl, gated_responded fun hg => ?_⟩
  obtain ⟨fault, es, v, hes, hgot⟩ := xferIn_moves s.order s
  dsimp only
  rw [hgot]
  cases fault with
  | false => exact (CommandRun.byteReceived (gate_other_valid hg) hes v).responded
  | true => exact abortTransfer_responded (gate_other_valid hg) hes (.inr ⟨rfl, rfl⟩)

theorem execExpValidate_responded (s : State) : ∃ t, execExpValidate s = .next t ∧ Responded s .expValidate t := by
  obtain ⟨good, es, hes, hcheck⟩ := validate_notes s
  refine ⟨_, rfl, gated_responded fun _ => ?_⟩
  simp only [hcheck]
  exact (CommandRun.checked hes good).responded

theorem execSelect_responded (d : Device) (s : State) : ∃ t, execSelect d s = .next t ∧ Responded s (.select d) t := by
  refine ⟨_, rfl, gated_responded fun hg => ?_⟩
  dsimp only
  split
  · exact (CommandRun.rejected (by simp)).responded
  next hb =>
    have free := free_of_pass hg (by simpa using hb)
    rcases doSelect_selects d s with h | ⟨ok, h⟩ <;> rw [h]
    · exact (CommandRun.selected free d).responded
    · exact (CommandRun.selectFailed free (.inl rfl) ok).responded

theorem execDeselectAll_responded (s : State) : ∃ t, execDeselectAll s = .next t ∧ Responded s .deselectAll t := by
  refine ⟨_, rfl, gated_responded fun hg => ?_⟩
  obtain ⟨ok, hoff⟩ := doDeselect_deselects s
  dsimp only
  split
  · exact (CommandRun.rejected (by simp)).responded
  next outside =>
    rw [hoff]
    exact (CommandRun.deselected (gate_other_valid hg) (by simpa using outside) ok).responded

theorem execSessionOpen_responded (d : Device) (s : State) :
    ∃ t, execSessionOpen d s = .next t ∧ Responded s (.sessionOpen d) t := by
  refine ⟨_, rfl, gated_responded fun hg => ?_⟩
  dsimp only
  split
  · exact (CommandRun.rejected (by simp)).responded
  next hb =>
    have free := free_of_pass hg (by simpa using hb)
    rcases doSelect_selects d s with h | ⟨ok, h⟩ <;> rw [h]
    · exact (CommandRun.sessionOpened free d).responded
    · exact (CommandRun.selectFailed free (.inr rfl) ok).responded

theorem execSessionClose_responded (s : State) : ∃ t, execSessionClose s = .next t ∧ Responded s .sessionClose t := by
  refine ⟨_, rfl, gated_responded fun hg => ?_⟩
  obtain ⟨ok, hoff⟩ := doDeselect_deselects { s with session := false }
  dsimp only
  split
  · exact (CommandRun.rejected (by simp)).responded
  · rw [hoff]
    exact (CommandRun.sessionClosed (gate_other_valid hg) ok).responded

theorem execRead_responded (d : Device) (a n : Word) (s : State) :
    ∃ t, execRead d a n s = .next t ∧ Responded s (.read d a n) t := by
  refine ⟨_, rfl, gated_responded fun hg => ?_⟩
  obtain ⟨es, run⟩ := readFrame_run s d a.toNat n.toNat
  dsimp only
  split
  · exact (CommandRun.rejected (by simp)).responded
  next hb =>
    split
    · exact (CommandRun.rejected (by simp)).responded
    · exact (CommandRun.readRun (free_of_pass hg (by simpa using hb)) run).responded

theorem execDump_responded (d : Device) (a len : Word) (s : State) :
    ∃ t, execDump d a len s = .next t ∧ Responded s (.dump d a len) t := by
  refine ⟨_, rfl, gated_responded fun hg => ?_⟩
  obtain ⟨es, run⟩ := dumpLoop_run d (dumpChunks s.cfg.toConfig a.toNat len.toNat) s
  dsimp only
  split
  · exact (CommandRun.rejected (by simp)).responded
  next hb =>
    split
    · exact (CommandRun.rejected (by simp)).responded
    · exact (CommandRun.dumpRun (free_of_pass hg (by simpa using hb)) run).responded

theorem execSetBitOrder_responded (o : BitOrder) (s : State) :
    ∃ t, execSetBitOrder o s = .next t ∧ Responded s (.setBitOrder o) t :=
  ⟨_, rfl, gated_responded fun _ => (CommandRun.orderSet o).responded⟩

/-- Every command runs its body and responds once (R80, R241). -/
theorem exec_responded (i : Instr) (s : State) : ∃ t, exec i s = .next t ∧ Responded s i t := by
  cases i with
  | init => exact execInit_responded s
  | validateConfig => exact execValidateConfig_responded s
  | release => exact execRelease_responded s
  | writeByte v => exact execWriteByte_responded v s
  | readByte => exact execReadByte_responded s
  | expValidate => exact execExpValidate_responded s
  | select d => exact execSelect_responded d s
  | deselectAll => exact execDeselectAll_responded s
  | sessionOpen d => exact execSessionOpen_responded d s
  | sessionClose => exact execSessionClose_responded s
  | read d a n => exact execRead_responded d a n s
  | dump d a len => exact execDump_responded d a len s
  | setBitOrder o => exact execSetBitOrder_responded o s

theorem exec_inversion {i : Instr} {s t : State} (h : exec i s = .next t) : Responded s i t := by
  obtain ⟨u, hu, hr⟩ := exec_responded i s
  obtain rfl : u = t := Host.Outcome.next.inj (hu.symm.trans h)
  exact hr

/-! ### One response, after events that are none -/

/-- The state `u` has come from `s` without a response (R13, R80). -/
structure Silent (s u : State) : Prop where
  grows : ∃ es, Quiet es ∧ u.history = s.history ++ es
  responses : u.responses = s.responses

theorem Silent.refl (s : State) : Silent s s := ⟨⟨[], by simp [Quiet], by simp⟩, rfl⟩

theorem Silent.trans {s t u : State} (h : Silent s t) (k : Silent t u) : Silent s u := by
  obtain ⟨⟨es, hes, hs⟩, hr⟩ := h
  obtain ⟨⟨fs, hfs, ht⟩, kr⟩ := k
  exact ⟨⟨es ++ fs, hes.append hfs, by rw [ht, hs, List.append_assoc]⟩, kr.trans hr⟩

theorem Silent.noteAll {s u : State} (h : Silent s u) {es : List Event} (quiet : Quiet es) : Silent s (u.noteAll es) :=
  h.trans ⟨⟨es, quiet, noteAll_history u es⟩, noteAll_responses u es⟩

theorem Ran.silent {s u : State} {es : List Event} (h : Ran s es u) (quiet : Quiet es) : Silent s u :=
  ⟨⟨es, quiet, h.history⟩, h.responses⟩

/-- The registers may change freely. -/
theorem Silent.of_same {s u t : State} (h : Silent s u) (hh : t.history = u.history) (hr : t.responses = u.responses) :
    Silent s t :=
  ⟨h.grows.imp fun _ k => ⟨k.1, hh.trans k.2⟩, hr.trans h.responses⟩

theorem Silent.closed {s u : State} (h : Silent s u) : Silent s { u with session := false } := h.of_same rfl rfl

theorem Silent.idlePins {s u : State} (h : Silent s u) : Silent s (idlePins u) :=
  (h.noteAll (es := [.pin .sck u.cfg.cpol, .pin .dout false]) (by simp [Quiet, isResp])).of_same rfl rfl

theorem Silent.deselected {s u : State} (h : Silent s u) (ok : Bool) : Silent s (u.deselected ok) :=
  (h.noteAll (quiet_expW u.cfg.expOutReg (selValue u.cfg.toConfig none) ok)).of_same rfl rfl

theorem Silent.selected {s u : State} (h : Silent s u) (d : Device) : Silent s (u.selected d) :=
  (h.noteAll (quiet_expW u.cfg.expOutReg (selValue u.cfg.toConfig (some d)) true)).of_same rfl rfl

theorem Silent.movedByte {s u : State} (h : Silent s u) {es : List Event} (quiet : Quiet es) (sr : Byte) (dout : Bool) :
    Silent s (u.movedByte es sr dout) := (h.noteAll quiet).of_same rfl rfl

/-- The body of a command responds nothing itself. -/
theorem CommandRun.silent {s u : State} {i : Instr} {c : Code} {p : Option Payload} (h : CommandRun s i c p u) :
    Silent s u := by
  have start := Silent.refl s
  cases h with
  | rejected => exact start
  | orderSet => exact start.of_same rfl rfl
  | checked quiet => exact start.noteAll quiet
  | configValid quiet => exact start.noteAll quiet
  | configInvalid _ quiet => exact (start.noteAll quiet).of_same rfl rfl
  | byteSent _ quiet => exact start.movedByte quiet _ _
  | byteReceived _ quiet => exact start.movedByte quiet _ _
  | byteAborted _ quiet => exact start.movedByte quiet _ _
  | sessionAborted _ quiet _ _ ok => exact (start.movedByte quiet _ _).closed.deselected ok
  | selected _ d => exact start.selected d
  | sessionOpened _ d => exact (start.selected d).of_same rfl rfl
  | selectFailed _ _ ok => exact (start.noteAll (quiet_expW _ _ _)).deselected ok
  | deselected _ _ ok => exact start.deselected ok
  | sessionClosed _ ok => exact start.closed.deselected ok
  | released _ _ ok => exact (start.deselected ok).idlePins.of_same rfl rfl
  | releasedAbsent => exact start.idlePins.of_same rfl rfl
  | setupFailed _ quiet => exact (start.idlePins.noteAll quiet).of_same rfl rfl
  | setUp _ _ quiet quiet' ok => exact (((start.idlePins.noteAll quiet).deselected ok).noteAll quiet').of_same rfl rfl
  | readRun _ run => exact run.ran.silent run.quiet
  | dumpRun _ run => exact (run.ran.silent run.quiet).of_same rfl rfl

/-- R51, R241: what a command may return. -/
theorem CommandRun.payloadFits {s u : State} {i : Instr} {c : Code} {p : Option Payload} (h : CommandRun s i c p u) :
    payloadFits c p i := by
  cases h with
  | rejected failed => cases i <;> simp [Machine.payloadFits, failed]
  | byteAborted _ _ byte => rcases byte with ⟨v, rfl⟩ | ⟨rfl, -⟩ <;> simp [Machine.payloadFits]
  | sessionAborted _ _ byte => rcases byte with ⟨v, rfl⟩ | ⟨rfl, -⟩ <;> simp [Machine.payloadFits]
  | selectFailed _ opens => rcases opens with rfl | rfl <;> rfl
  | readRun _ run =>
    exact ⟨fun ok => ⟨_, if_pos ok, (run.all ok).1⟩, fun failed => if_neg failed⟩
  | _ => simp [Machine.payloadFits]

/-- Settles O11: the body runs in silence, and the response shows the state that it leaves. -/
theorem oneResponsePerCommand : Obligations.OneResponsePerCommand := by
  intro i s
  obtain ⟨t, ht, c, p, u, run, rfl⟩ := exec_responded i s
  obtain ⟨⟨es, quiet, history⟩, responses⟩ := run.silent
  refine ⟨_, es, c, p, ht, ?_, quiet, ?_, run.payloadFits⟩
  · rw [respond_history, history]
  · rw [respond_responses, responses]
    rfl

/-! ### The invariant between commands -/

/-- What the invariant between commands speaks of. -/
def State.steadyView (s : State) : AdmittedConfig × Bool × Fin 9 × BusState × Option Device × Bool × Option RegValue ×
    Handle × Bool × FramePhase × List Byte × Option DumpPosition :=
  (s.cfg, s.sck, s.bitcnt, s.bus, s.seldev, s.session, s.outShadow, s.handle, s.halted, s.phase, s.rxbuf, s.dumpPos)

theorem State.Steady.of_view {s t : State} (h : s.Steady) (view : t.steadyView = s.steadyView) : t.Steady := by
  simp only [State.steadyView, Prod.mk.injEq] at view
  obtain ⟨hcfg, hsck, hbit, hbus, hdev, hses, hout, hhan, hhal, hph, hrx, hdp⟩ := view
  constructor <;> simp only [hcfg, hsck, hbit, hbus, hdev, hses, hout, hhan, hhal, hph, hrx, hdp]
  exacts [h.bitcnt_zero, h.clock_idle, h.idle_iff, h.session_selected, h.shadow_is_selection, h.selected_valid,
    h.halted_unknown, h.no_frame]

theorem State.Steady.noteAll {s : State} (h : s.Steady) (es : List Event) : (s.noteAll es).Steady :=
  h.of_view (by simp [State.steadyView])

theorem State.Steady.respond {s : State} (h : s.Steady) (c : Code) (p : Option Payload) : (s.respond c p).Steady :=
  h.of_view rfl

/-- An idle engine may have any handle (R44 (5)). -/
theorem State.Steady.with_handle {s : State} (h : s.Steady) (idle : s.bus = .idle) (x : Handle) :
    State.Steady { s with handle := x } :=
  { h with selected_valid := fun busy => absurd idle busy }

theorem State.Steady.idlePins {s : State} (h : s.Steady) : (idlePins s).Steady := { h with clock_idle := rfl }

theorem State.Steady.closed {s : State} (h : s.Steady) : State.Steady { s with session := false } where
  __ := h
  session_selected := by simp
  halted_unknown halted := ⟨(h.halted_unknown halted).1, rfl, (h.halted_unknown halted).2.2⟩

/-- R114: a byte moves a selected bus on, and no other. -/
theorem busAfterByte_eq_idle {b : BusState} : busAfterByte b = .idle ↔ b = .idle := by cases b <;> simp [busAfterByte]

theorem State.Steady.movedByte {s : State} (h : s.Steady) (es : List Event) (sr : Byte) (dout : Bool) :
    (s.movedByte es sr dout).Steady where
  bitcnt_zero := rfl
  clock_idle := by simp
  idle_iff := by simp [busAfterByte_eq_idle, h.idle_iff]
  session_selected := by simpa [busAfterByte_eq_idle] using h.session_selected
  shadow_is_selection := by simpa using h.shadow_is_selection
  selected_valid := by simpa [busAfterByte_eq_idle] using h.selected_valid
  halted_unknown := by simpa [busAfterByte_eq_idle] using h.halted_unknown
  no_frame := by simpa using h.no_frame

/-- R145 outside a session: Idle, and halted with an unknown output register if the write failed. -/
theorem State.Steady.deselected {s : State} (h : s.Steady) (running : s.halted = false) (outside : s.session = false)
    (ok : Bool) : (s.deselected ok).Steady where
  bitcnt_zero := h.bitcnt_zero
  clock_idle := h.clock_idle
  idle_iff := by simp
  session_selected := by simp [outside]
  shadow_is_selection := by cases ok <;> simp
  selected_valid := by simp
  halted_unknown := by cases ok <;> simp [running, outside]
  no_frame := h.no_frame

/-- R143 on a ready engine. -/
theorem State.Steady.selected {s : State} (h : s.Steady) (ready : s.Ready) (d : Device) : (s.selected d).Steady where
  bitcnt_zero := h.bitcnt_zero
  clock_idle := h.clock_idle
  idle_iff := by simp
  session_selected := by simp
  shadow_is_selection := by simp
  selected_valid _ := ready.valid
  halted_unknown := by simp [ready.running]
  no_frame := h.no_frame

/-- R170: a session on a selected device. -/
theorem State.Steady.opened {s : State} (h : s.Steady) (running : s.halted = false) (busy : s.bus ≠ .idle) :
    State.Steady { s with session := true } where
  __ := h
  session_selected _ := busy
  halted_unknown halted := absurd (running.symm.trans halted) (by simp)

/-! ### Reads and dumps on a free engine -/

/-- What a `READ` or a `DUMP` that passed its checks leaves, from a free engine `s`: an Idle bus, no session, the lines
and the hidden state at rest, and the registers of other commands as they were. -/
structure Transferred (s u : State) : Prop where
  cfg : u.cfg = s.cfg
  port : u.port = s.port
  resetInput : u.resetInput = s.resetInput
  order : u.order = s.order
  handle : u.handle = s.handle
  bus : u.bus = .idle
  seldev : s.seldev = none → u.seldev = none
  session : u.session = false
  clock : u.sck = s.cfg.cpol ∨ u.sck = s.sck
  bitcnt : u.bitcnt = 0 ∨ u.bitcnt = s.bitcnt
  shadow : u.outShadow = none ∨ u.outShadow = some (selValue s.cfg.toConfig none) ∨ u.outShadow = s.outShadow
  halted_unknown : u.halted = true → u.outShadow = none
  no_frame : s.phase = .idle ∧ s.rxbuf = [] ∧ s.dumpPos = none → u.phase = .idle ∧ u.rxbuf = [] ∧ u.dumpPos = none

theorem ReadRun.transferred {s : State} {d : Device} {a n : Nat} {es : List Event} {r : FrameResult}
    (h : ReadRun s d a n es r) (free : s.Free) : Transferred s r.after where
  __ := h
  __ := h.ran
  seldev _ := h.seldev
  session := h.session free.no_session
  shadow := h.shadow.imp_right .inl
  halted_unknown := h.shadow_unknown free.running
  no_frame none := ⟨h.frame.1, h.frame.2.1, h.frame.2.2.trans none.2.2⟩

theorem DumpRun.transferred {s u : State} {d : Device} {chunks : List Chunk} {es : List Event} {c : Code}
    (h : DumpRun s d chunks es c u) (free : s.Free) : Transferred s { u with dumpPos := none } where
  __ := h
  __ := h.ran
  bus := h.bus (.inl free.bus_idle)
  seldev none := h.seldev (.inl none)
  session := h.session free.no_session
  shadow := h.shadow.imp_right (.imp_right And.right)
  halted_unknown := h.shadow_unknown free.running
  no_frame none := by
    obtain ⟨phase, rxbuf⟩ := h.frame (.inl ⟨none.1, none.2.1⟩)
    exact ⟨phase, rxbuf, rfl⟩

theorem State.Steady.transferred {s u : State} (h : s.Steady) (idle : s.bus = .idle) (k : Transferred s u) :
    u.Steady := by
  have seldev := h.idle_iff.1 idle
  refine ⟨k.bitcnt.elim id fun e => e.trans h.bitcnt_zero, ?_, ?_, ?_, ?_, ?_, ?_, k.no_frame h.no_frame⟩
  · rw [k.cfg]; exact k.clock.elim id fun e => e.trans h.clock_idle
  · simp [k.bus, k.seldev seldev]
  · simp [k.session]
  · rw [k.cfg, k.seldev seldev]
    have known := h.shadow_is_selection
    rw [seldev] at known
    rcases k.shadow with e | e | e
    · simp [e]
    · simp [e]
    · rwa [e]
  · simp [k.bus]
  · exact fun halted => ⟨k.bus, k.session, k.seldev seldev, k.halted_unknown halted⟩

/-! ### Every command and every step keeps the invariant -/

theorem CommandRun.steady {s u : State} {i : Instr} {c : Code} {p : Option Payload} (h : CommandRun s i c p u)
    (hs : s.Steady) : u.Steady := by
  have idle_of_closed : s.handle ≠ .valid → s.bus = .idle := fun closed => by
    by_contra busy
    exact closed (hs.selected_valid busy)
  cases h with
  | rejected => exact hs
  | orderSet => exact hs.of_view rfl
  | checked => exact hs.noteAll _
  | configValid => exact hs.noteAll _
  | configInvalid free => exact (hs.noteAll _).with_handle (by simp [free.bus_idle]) _
  | byteSent => exact hs.movedByte _ _ _
  | byteReceived => exact hs.movedByte _ _ _
  | byteAborted => exact hs.movedByte _ _ _
  | sessionAborted ready _ _ _ ok => exact (hs.movedByte _ _ _).closed.deselected (by simp [ready.running]) rfl ok
  | selected free d => exact hs.selected free.toReady d
  | sessionOpened free d => exact (hs.selected free.toReady d).opened free.running (by simp)
  | selectFailed free _ ok => exact (hs.noteAll _).deselected (by simp [free.running]) (by simp [free.no_session]) ok
  | deselected ready outside ok => exact hs.deselected ready.running outside ok
  | sessionClosed ready ok => exact hs.closed.deselected ready.running rfl ok
  | released ready outside ok => exact (hs.deselected ready.running outside ok).idlePins.with_handle rfl _
  | releasedAbsent absent => exact hs.idlePins.with_handle (idle_of_closed (by simp [absent])) _
  | setupFailed closed =>
    exact (hs.idlePins.noteAll _).with_handle (by simpa [idlePins] using idle_of_closed closed) _
  | setUp closed running _ _ ok =>
    have outside : s.session = false := by
      by_contra isOpen
      exact hs.session_selected (by simpa using isOpen) (idle_of_closed closed)
    exact (((hs.idlePins.noteAll _).deselected (by simpa [idlePins] using running)
      (by simpa [idlePins] using outside) ok).noteAll _).with_handle (by simp) _
  | readRun free run => exact hs.transferred free.bus_idle (run.transferred free)
  | dumpRun free run => exact hs.transferred free.bus_idle (run.transferred free)

theorem exec_steady {i : Instr} {s t : State} (hs : s.Steady) (h : exec i s = .next t) : t.Steady := by
  obtain ⟨c, p, u, run, rfl⟩ := exec_inversion h
  exact (run.steady hs).respond c p

/-- Settles O51: R44 of the reset record (R52). -/
theorem resetIsSteady : Obligations.ResetIsSteady := fun cfg => by
  constructor <;> simp [State.resetWith]

theorem takeReset_steady {s t : State} (h : s.takeReset = some t) : t.Steady := by
  have reset := resetIsSteady s.cfg
  rw [State.takeReset] at h
  split at h <;> cases h
  · exact reset.of_view rfl
  · exact reset.of_view rfl

/-- Settles O50: a reset makes the invariant hold, and a command or an illegal header keeps it. -/
theorem steadyIsKept : Obligations.SteadyIsKept := by
  intro s t hs h
  have taken : ∀ rest, (s.withPort rest).Steady := fun _ => hs.of_view rfl
  unfold step at h
  split at h
  next _ hr => cases h; exact takeReset_steady hr
  next =>
    split at h
    next => cases h; exact hs
    next _ rest _ => cases h; exact (taken rest).respond _ _
    next i rest _ => exact exec_steady (taken rest) h

/-! ### The frame of the command set -/

section Frame

variable {s u : State} {i : Instr} {c : Code} {p : Option Payload}

theorem CommandRun.inputs_kept (h : CommandRun s i c p u) :
    u.cfg = s.cfg ∧ u.port = s.port ∧ u.resetInput = s.resetInput := by
  cases h with
  | readRun free run => have k := run.transferred free; exact ⟨k.cfg, k.port, k.resetInput⟩
  | dumpRun free run => have k := run.transferred free; exact ⟨k.cfg, k.port, k.resetInput⟩
  | _ => simp [idlePins]

/-- R37. -/
theorem CommandRun.order_kept (h : CommandRun s i c p u) (other : ∀ o, i ≠ .setBitOrder o) : u.order = s.order := by
  cases h with
  | orderSet o => exact absurd rfl (other o)
  | readRun free run => exact (run.transferred free).order
  | dumpRun free run => exact (run.transferred free).order
  | _ => simp [idlePins]

/-- R33: a byte received leaves the data line as it was. -/
theorem CommandRun.dout_kept (h : CommandRun s i c p u)
    (silent : i = .readByte ∨ i = .expValidate ∨ i = .deselectAll ∨ i = .sessionClose ∨ i = .validateConfig ∨
      (∃ d, i = .select d) ∨ (∃ d, i = .sessionOpen d) ∨ ∃ o, i = .setBitOrder o) : u.dout = s.dout := by
  cases h with
  | byteAborted _ _ byte => rcases byte with ⟨v, rfl⟩ | ⟨-, rfl⟩ <;> simp at silent ⊢
  | sessionAborted _ _ byte => rcases byte with ⟨v, rfl⟩ | ⟨-, rfl⟩ <;> simp at silent ⊢
  | _ => simp at silent ⊢

/-- R32. -/
theorem CommandRun.sck_kept (h : CommandRun s i c p u)
    (silent : i = .expValidate ∨ i = .deselectAll ∨ i = .sessionClose ∨ i = .validateConfig ∨
      (∃ d, i = .select d) ∨ (∃ d, i = .sessionOpen d) ∨ ∃ o, i = .setBitOrder o) : u.sck = s.sck := by
  cases h with
  | byteAborted _ _ byte => rcases byte with ⟨v, rfl⟩ | ⟨rfl, -⟩ <;> simp at silent
  | sessionAborted _ _ byte => rcases byte with ⟨v, rfl⟩ | ⟨rfl, -⟩ <;> simp at silent
  | _ => simp at silent ⊢

/-- R35, R36. -/
theorem CommandRun.shift_kept (h : CommandRun s i c p u) (noWrite : ∀ v, i ≠ .writeByte v) (noRead : i ≠ .readByte)
    (noFrame : ∀ d a n, i ≠ .read d a n) (noDump : ∀ d a n, i ≠ .dump d a n) : u.sr = s.sr ∧ u.bitcnt = s.bitcnt := by
  cases h with
  | byteAborted _ _ byte => exact (byte.elim (fun ⟨v, e⟩ => noWrite v e) fun e => noRead e.1).elim
  | sessionAborted _ _ byte => exact (byte.elim (fun ⟨v, e⟩ => noWrite v e) fun e => noRead e.1).elim
  | _ => simp [idlePins] at noWrite noRead noFrame noDump ⊢

/-- R45. -/
theorem CommandRun.hidden_kept (h : CommandRun s i c p u) (noFrame : ∀ d a n, i ≠ .read d a n)
    (noDump : ∀ d a n, i ≠ .dump d a n) : u.phase = s.phase ∧ u.rxbuf = s.rxbuf ∧ u.dumpPos = s.dumpPos := by
  cases h with
  | readRun => exact absurd rfl (noFrame _ _ _)
  | dumpRun => exact absurd rfl (noDump _ _ _)
  | _ => simp [idlePins]

/-- R40: `READ` and `DUMP` pass their checks outside a session only, and leave none. -/
theorem CommandRun.session_kept (h : CommandRun s i c p u) (noOpen : ∀ d, i ≠ .sessionOpen d)
    (noClose : i ≠ .sessionClose) (noWrite : ∀ v, i ≠ .writeByte v) (noRead : i ≠ .readByte) :
    u.session = s.session := by
  cases h with
  | sessionOpened _ d => exact absurd rfl (noOpen d)
  | sessionClosed => exact absurd rfl noClose
  | sessionAborted _ _ byte => exact (byte.elim (fun ⟨v, e⟩ => noWrite v e) fun e => noRead e.1).elim
  | readRun free run => exact (run.transferred free).session.trans free.no_session.symm
  | dumpRun free run => exact (run.transferred free).session.trans free.no_session.symm
  | _ => simp [idlePins]

/-- R244 outside a session: no cleanup, whether the byte failed or not. -/
theorem CommandRun.selection_kept (h : CommandRun s i c p u) (byte : (∃ v, i = .writeByte v) ∨ i = .readByte)
    (outside : s.session = false) :
    u.session = false ∧ u.seldev = s.seldev ∧ u.outShadow = s.outShadow ∧ u.halted = s.halted := by
  cases h with
  | sessionAborted _ _ _ inside => exact absurd (outside.symm.trans inside) (by simp)
  | selectFailed _ opens => rcases opens with rfl | rfl <;> simp at byte
  | _ => simp [outside] at byte ⊢

/-- R42. -/
theorem CommandRun.halted_kept (h : CommandRun s i c p u) (halted : s.halted = true) : u.halted = true := by
  cases h with
  | readRun free run => exact absurd (free.running.symm.trans halted) (by simp)
  | dumpRun free run => exact absurd (free.running.symm.trans halted) (by simp)
  | _ => simp [idlePins, halted]

/-- R222. -/
theorem CommandRun.handle_kept (h : CommandRun s i c p u) (noInit : i ≠ .init) (noCheck : i ≠ .validateConfig)
    (noRelease : i ≠ .release) : u.handle = s.handle := by
  cases h with
  | readRun free run => exact (run.transferred free).handle
  | dumpRun free run => exact (run.transferred free).handle
  | _ => simp at noInit noCheck noRelease ⊢

/-- R140, R223, R121. -/
theorem CommandRun.bus_kept (h : CommandRun s i c p u)
    (check : i = .expValidate ∨ i = .validateConfig ∨ ∃ o, i = .setBitOrder o) :
    u.outShadow = s.outShadow ∧ u.bus = s.bus ∧ u.seldev = s.seldev ∧ u.session = s.session ∧
      u.halted = s.halted := by
  cases h with
  | byteAborted _ _ byte => rcases byte with ⟨v, rfl⟩ | ⟨rfl, -⟩ <;> simp at check
  | sessionAborted _ _ byte => rcases byte with ⟨v, rfl⟩ | ⟨rfl, -⟩ <;> simp at check
  | selectFailed _ opens => rcases opens with rfl | rfl <;> simp at check
  | _ => simp at check ⊢

end Frame

/-- Settles O48: the response changes no register, and the body of a command writes only what the spec names. -/
theorem onlyNamedCommandsWrite : Obligations.OnlyNamedCommandsWrite := by
  intro i s t h
  obtain ⟨c, p, u, run, rfl⟩ := exec_inversion h
  obtain ⟨cfg, port, resetInput⟩ := run.inputs_kept
  exact ⟨cfg, port, resetInput, run.order_kept, run.dout_kept, run.sck_kept, run.shift_kept, run.hidden_kept,
    run.session_kept, run.selection_kept, run.halted_kept, run.handle_kept, run.bus_kept⟩

end Sys2Proof.Machine
end

section
/-!
The status word as a number (spec/10_state.md R50), what a step does with the words on the port
(spec/30_encoding.md R84), and the reset record (R52) with the commands that the gate refuses there.
-/

namespace Sys2Proof.Machine

/-! ### The status word -/

theorem toNat_append_eq_mul_add {n m : Nat} (x : BitVec n) (y : BitVec m) :
    (x ++ y).toNat = x.toNat * 2 ^ m + y.toNat := by
  rw [BitVec.toNat_append, ← Nat.shiftLeft_add_eq_or_of_lt y.isLt, Nat.shiftLeft_eq]

/-- The widths of the fields of R50. -/
theorem statusFields_lt (c : Code) (s : State) :
    (codeNumber c).toNat < 2 ^ 4 ∧ (busNumber s.bus).toNat < 2 ^ 2 ∧ (seldevNumber s.seldev).toNat < 2 ^ 2 ∧
      (handleNumber s.handle).toNat < 2 ^ 2 ∧ s.session.toNat < 2 ∧ (orderBit s.order).toNat < 2 ∧ s.halted.toNat < 2 :=
  ⟨BitVec.isLt _, BitVec.isLt _, BitVec.isLt _, BitVec.isLt _, Bool.toNat_lt _, Bool.toNat_lt _, Bool.toNat_lt _⟩

/-- R50 in arithmetic: each field at its place, and nothing above bit 12. -/
theorem toNat_statusWord (c : Code) (s : State) :
    (statusWord c s).toNat =
      (codeNumber c).toNat + 2 ^ 4 * (busNumber s.bus).toNat + 2 ^ 6 * (seldevNumber s.seldev).toNat +
        2 ^ 8 * (handleNumber s.handle).toNat + 2 ^ 10 * s.session.toNat + 2 ^ 11 * (orderBit s.order).toNat +
        2 ^ 12 * s.halted.toNat := by
  simp only [statusWord, BitVec.toNat_setWidth, toNat_append_eq_mul_add, BitVec.toNat_ofBool]
  obtain ⟨hcode, hbus, hseldev, hhandle, hsession, horder, hhalted⟩ := statusFields_lt c s
  omega

/-- Settles O10: the fields are the digits of the word's value, and each number is that of R50 or R240. -/
theorem statusWordFields : Obligations.StatusWordFields := by
  intro s c p
  have value := toNat_statusWord c s
  obtain ⟨hcode, hbus, hseldev, hhandle, hsession, horder, hhalted⟩ := statusFields_lt c s
  refine ⟨statusWord c s, rfl, ?_, ?_, ?_, ?_, ?_, ?_, ?_, by omega⟩
  · trans (codeNumber c).toNat
    · omega
    · cases c <;> rfl
  · trans (busNumber s.bus).toNat
    · omega
    · rw [respond_bus]; cases s.bus <;> rfl
  · trans (seldevNumber s.seldev).toNat
    · omega
    · rw [respond_seldev]; rcases s.seldev with _ | _ | _ <;> rfl
  · trans (handleNumber s.handle).toNat
    · omega
    · rw [respond_handle]; cases s.handle <;> rfl
  · trans s.session.toNat
    · omega
    · rw [respond_session]; cases s.session <;> rfl
  · trans (orderBit s.order).toNat
    · omega
    · rw [respond_order]; cases s.order <;> rfl
  · trans s.halted.toNat
    · omega
    · rw [respond_halted]; cases s.halted <;> rfl

/-! ### Taking the next command -/

theorem step_of_command {s : State} {i : Instr} {rest : List Word} (noReset : s.resetInput = .none)
    (h : decode s.port = .command i rest) : step s = exec i (s.withPort rest) := by
  simp [step, State.takeReset, noReset, State.readPort, h]

theorem step_of_waiting {s : State} (noReset : s.resetInput = .none) (h : decode s.port = .waiting) :
    step s = .next s := by
  simp [step, State.takeReset, noReset, State.readPort, h]

/-- Settles O6: the decoder's two answers, and what the step does for each. -/
theorem stepRunsTheDecodedCommand : Obligations.StepRunsTheDecodedCommand :=
  fun _ noReset => ⟨fun _ _ h => step_of_command noReset h, step_of_waiting noReset⟩

/-- Settles O8: the reset record, whose empty port makes the next step wait. -/
theorem resetRecord : Obligations.ResetRecord :=
  ⟨fun cfg => ⟨rfl, rfl, rfl, rfl, rfl, rfl, rfl, rfl, rfl, rfl, rfl, rfl,
    step_of_waiting (s := State.resetWith cfg) rfl rfl⟩, AdmittedConfig.board, rfl⟩

/-! ### Before `INIT` -/

/-- The gate's case of a command (R243). -/
def gateCaseOf : Instr → GateCase
  | .setBitOrder _ => .setBitOrder
  | .init => .init
  | .release => .release
  | _ => .other

/-- A command that the gate rejects does nothing but respond (R242). -/
theorem exec_of_reject {i : Instr} {s : State} {c : Code} (h : gate (gateCaseOf i) s = some c) :
    exec i s = .next (s.respond c none) := by
  cases i <;> exact congrArg Host.Outcome.next (gated_of_reject h)

/-- Settles O17: the gate's row for a handle that nothing has initialised. -/
theorem beforeInitOnlyInitAndBitOrder : Obligations.BeforeInitOnlyInitAndBitOrder := by
  intro cfg i notInit notOrder
  apply exec_of_reject
  cases i with
  | init => exact absurd rfl notInit
  | setBitOrder o => exact absurd rfl (notOrder o)
  | _ => rfl

end Sys2Proof.Machine
end

section
/-!
The value that `SR` holds between commands is never observed (spec/10_state.md R35). The relation `EqButSr` is kept by
every operation: the ones that move a byte overwrite `SR` (spec/40_bit_engine.md R112, R113), the others pass it on.
-/

namespace Sys2Proof.Machine

/-! ### States that differ in `SR` alone -/

/-- The state `t` is `s` but for the value of `SR`. -/
def EqButSr (s t : State) : Prop := ∃ w, t = { s with sr := w }

theorem EqButSr.refl (s : State) : EqButSr s s := ⟨s.sr, rfl⟩

/-- What an operation that passes `SR` on leaves. -/
theorem EqButSr.map {s t : State} (h : EqButSr s t) {f : State → State}
    (pass : ∀ s w, f { s with sr := w } = { f s with sr := w }) : EqButSr (f s) (f t) := by
  obtain ⟨w, rfl⟩ := h
  exact ⟨w, pass s w⟩

/-- What does not depend on `SR`. -/
theorem EqButSr.same {s t : State} (h : EqButSr s t) {α : Type} {f : State → α}
    (blind : ∀ s w, f { s with sr := w } = f s) : f t = f s := by
  obtain ⟨w, rfl⟩ := h
  exact blind s w

theorem EqButSr.cfg {s t : State} (h : EqButSr s t) : t.cfg = s.cfg := h.same fun _ _ => rfl
theorem EqButSr.order {s t : State} (h : EqButSr s t) : t.order = s.order := h.same fun _ _ => rfl
theorem EqButSr.session {s t : State} (h : EqButSr s t) : t.session = s.session := h.same fun _ _ => rfl
theorem EqButSr.handle {s t : State} (h : EqButSr s t) : t.handle = s.handle := h.same fun _ _ => rfl
theorem EqButSr.busClaimed {s t : State} (h : EqButSr s t) : t.busClaimed = s.busClaimed := h.same fun _ _ => rfl
theorem EqButSr.outside {s t : State} (h : EqButSr s t) : t.outside = s.outside := h.same fun _ _ => rfl

theorem EqButSr.gate {s t : State} (h : EqButSr s t) (g : GateCase) : gate g t = gate g s := h.same fun _ _ => rfl

theorem EqButSr.respond {s t : State} (h : EqButSr s t) (c : Code) (p : Option Payload) :
    EqButSr (s.respond c p) (t.respond c p) := h.map (f := fun s => s.respond c p) fun _ _ => rfl

/-- Two states that differ in `SR` alone draw the same answers (R14). -/
theorem EqButSr.answers {s t : State} (h : EqButSr s t) {es : List Event} (ha : s.answers es = true) :
    t.answers es = true := answers_of_outside ha h.outside

/-- Two results of a procedure are the same value, in states that differ in `SR` alone. -/
structure SameResult {α : Type} (x y : α × State) : Prop where
  value : y.1 = x.1
  state : EqButSr x.2 y.2

/-! ### Bytes overwrite `SR` -/

/-- R112: the byte to send is loaded first. -/
theorem xferOut_eqButSr {s t : State} (h : EqButSr s t) (v : Byte) (ord : BitOrder) :
    xferOut v ord t = xferOut v ord s := by
  obtain ⟨w, rfl⟩ := h
  simp only [xferOut, noteTransfer_eq]
  rfl

/-- R113: eight bits come in, and none of the old byte stays. -/
theorem xferIn_eqButSr {s t : State} (h : EqButSr s t) (ord : BitOrder) : xferIn ord t = xferIn ord s := by
  obtain ⟨w, rfl⟩ := h
  obtain ⟨fault, v, ha, he⟩ := xferIn_eq ord s
  rw [he, xferIn_of_answers (s := { s with sr := w }) (EqButSr.answers ⟨w, rfl⟩ ha), noteAll_eq, noteAll_eq]

/-! ### The other procedures pass `SR` on -/

theorem idlePins_eqButSr {s t : State} (h : EqButSr s t) : EqButSr (idlePins s) (idlePins t) :=
  h.map fun _ _ => rfl

theorem validate_eqButSr {s t : State} (h : EqButSr s t) : SameResult (validate s) (validate t) := by
  obtain ⟨w, rfl⟩ := h
  rcases scratchWrite_answered s with ha | ⟨r, ha⟩
  · rw [validate_of_failed ha, validate_of_failed (s := { s with sr := w }) (EqButSr.answers ⟨w, rfl⟩ ha)]
    exact ⟨rfl, w, rfl⟩
  · rw [validate_of_read ha, validate_of_read (s := { s with sr := w }) (EqButSr.answers ⟨w, rfl⟩ ha)]
    exact ⟨rfl, w, rfl⟩

theorem doDeselect_eqButSr {s t : State} (h : EqButSr s t) : SameResult (doDeselect s) (doDeselect t) := by
  obtain ⟨w, rfl⟩ := h
  obtain ⟨ok, ha⟩ := deselectWrite_answered s
  rw [doDeselect_of_answers ha, doDeselect_of_answers (s := { s with sr := w }) (EqButSr.answers ⟨w, rfl⟩ ha)]
  exact ⟨rfl, w, rfl⟩

theorem doSelect_eqButSr {s t : State} (h : EqButSr s t) (d : Device) : SameResult (doSelect d s) (doSelect d t) := by
  obtain ⟨w, rfl⟩ := h
  rcases selectWrite_answered s d with ha | ⟨ok, ha⟩
  · rw [doSelect_of_ok ha, doSelect_of_ok (s := { s with sr := w }) (EqButSr.answers ⟨w, rfl⟩ ha)]
    exact ⟨rfl, w, rfl⟩
  · rw [doSelect_of_failed ha, doSelect_of_failed (s := { s with sr := w }) (EqButSr.answers ⟨w, rfl⟩ ha)]
    exact ⟨rfl, w, rfl⟩

theorem setupWrites_eqButSr {s t : State} (h : EqButSr s t) (ws : List (RegAddr × RegValue)) :
    SameResult (setupWrites ws s) (setupWrites ws t) := by
  induction ws generalizing s t with
  | nil => exact ⟨rfl, h⟩
  | cons x ws ih =>
    obtain ⟨w, rfl⟩ := h
    obtain ⟨ok, ha, he⟩ := expWrite_eq s x.1 x.2
    have later : EqButSr (s.note (.expW x.1 x.2 ok)) (State.note { s with sr := w } (.expW x.1 x.2 ok)) := ⟨w, rfl⟩
    rw [setupWrites, setupWrites, he, expWrite_of_answers (s := { s with sr := w }) (EqButSr.answers ⟨w, rfl⟩ ha)]
    dsimp only
    split
    · exact ih later
    · exact ⟨rfl, later⟩

theorem failHandle_eqButSr {s t : State} (h : EqButSr s t) (c : Code) : EqButSr (failHandle c s) (failHandle c t) :=
  h.map fun _ _ => rfl

/-! ### Reads and dumps -/

/-- R193: a frame is not empty, so its first byte overwrites `SR`. -/
theorem sendFrame_eqButSr {s t : State} (h : EqButSr s t) (c : Config) (d : Device) (a A : Nat) :
    sendFrame A (frame c d a) t = sendFrame A (frame c d a) s := by
  have begun : EqButSr { s with phase := framePhaseOf A (addrBytesOf a (c.desc d).addrBytes).length }
      { t with phase := framePhaseOf A (addrBytesOf a (c.desc d).addrBytes).length } :=
    h.map (f := fun s => { s with phase := _ }) fun _ _ => rfl
  rw [frame, sendFrame, sendFrame, xferOut_eqButSr begun]

theorem readFrame_eqButSr {s t : State} (h : EqButSr s t) (d : Device) (a n : Nat) :
    (readFrame d a n t).code = (readFrame d a n s).code ∧ (readFrame d a n t).rx = (readFrame d a n s).rx ∧
      EqButSr (readFrame d a n s).after (readFrame d a n t).after := by
  have opened := doSelect_eqButSr h d
  cases hok : (doSelect d s).1 with
  | false =>
    simp only [readFrame, openSession, opened.value, hok]
    exact ⟨rfl, rfl, opened.state.map (f := fun s => { s with phase := .idle, rxbuf := [] }) fun _ _ => rfl⟩
  | true =>
    have same : readFrame d a n t = readFrame d a n s := by
      simp only [readFrame, openSession, opened.value, hok, sendFrame_eqButSr opened.state, h.cfg]
      rfl
    exact same ▸ ⟨rfl, rfl, .refl _⟩

theorem dumpLoop_eqButSr {s t : State} (h : EqButSr s t) (d : Device) (chunks : List Chunk) :
    SameResult (dumpLoop d chunks s) (dumpLoop d chunks t) := by
  induction chunks generalizing s t with
  | nil => exact ⟨rfl, h⟩
  | cons c cs ih =>
    have begun : EqButSr { s with dumpPos := some { pos := c.pos, rem := c.rem } }
        { t with dumpPos := some { pos := c.pos, rem := c.rem } } :=
      h.map (f := fun s => { s with dumpPos := _ }) fun _ _ => rfl
    obtain ⟨code, rx, after⟩ := readFrame_eqButSr begun d c.pos c.len
    simp only [dumpLoop, code, rx]
    split
    · exact ⟨rfl, after⟩
    · exact ih (after.map (f := fun s => s.present _) fun _ _ => rfl)

/-! ### Commands -/

theorem gated_eqButSr {s t : State} (h : EqButSr s t) (g : GateCase) {body : State → State}
    (hb : EqButSr (body s) (body t)) : EqButSr (gated g s body) (gated g t body) := by
  cases hg : gate g s with
  | none => rwa [gated_of_pass hg, gated_of_pass ((h.gate g).trans hg)]
  | some c => rw [gated_of_reject hg, gated_of_reject ((h.gate g).trans hg)]; exact h.respond c none

/-- The bodies of two runs of `i` end alike: a next state each, which differ in `SR` alone. -/
def RunsAlike (i : Instr) (s t : State) : Prop :=
  ∃ s' t', exec i s = .next s' ∧ exec i t = .next t' ∧ EqButSr s' t'

section Commands

variable {s t : State} (h : EqButSr s t)
include h

theorem execInit_alike : RunsAlike .init s t := by
  refine ⟨_, _, rfl, rfl, gated_eqButSr h _ ?_⟩
  have up := setupWrites_eqButSr (idlePins_eqButSr h) s.cfg.initWrites
  have off := doDeselect_eqButSr up.state
  have checked := validate_eqButSr off.state
  simp only [h.cfg, up.value, off.value, checked.value]
  split
  · exact failHandle_eqButSr up.state _
  · split
    · exact failHandle_eqButSr off.state _
    · split
      · exact failHandle_eqButSr checked.state _
      · exact checked.state.map (f := fun s => State.respond { s with handle := .valid } .ok none) fun _ _ => rfl

theorem execValidateConfig_alike : RunsAlike .validateConfig s t := by
  refine ⟨_, _, rfl, rfl, gated_eqButSr h _ ?_⟩
  have checked := validate_eqButSr h
  simp only [h.busClaimed, checked.value]
  split
  · exact h.respond _ _
  · split
    · exact checked.state.respond _ _
    · exact failHandle_eqButSr checked.state _

theorem execRelease_alike : RunsAlike .release s t := by
  refine ⟨_, _, rfl, rfl, gated_eqButSr h _ ?_⟩
  have off : SameResult (if s.handle = .valid then doDeselect s else (true, s))
      (if s.handle = .valid then doDeselect t else (true, t)) := by
    split
    · exact doDeselect_eqButSr h
    · exact ⟨rfl, h⟩
  simp only [h.session, h.handle, off.value]
  split
  · exact h.respond _ _
  · exact (idlePins_eqButSr off.state).map (f := fun s => State.respond { s with handle := .released } _ none)
      fun _ _ => rfl

theorem execWriteByte_alike (v : Byte) : RunsAlike (.writeByte v) s t := by
  refine ⟨_, _, rfl, rfl, gated_eqButSr h _ ?_⟩
  rw [h.order, xferOut_eqButSr h]
  exact .refl _

theorem execReadByte_alike : RunsAlike .readByte s t := by
  refine ⟨_, _, rfl, rfl, gated_eqButSr h _ ?_⟩
  rw [h.order, xferIn_eqButSr h]
  exact .refl _

theorem execExpValidate_alike : RunsAlike .expValidate s t := by
  refine ⟨_, _, rfl, rfl, gated_eqButSr h _ ?_⟩
  have checked := validate_eqButSr h
  simp only [checked.value]
  exact checked.state.respond _ _

theorem execSelect_alike (d : Device) : RunsAlike (.select d) s t := by
  refine ⟨_, _, rfl, rfl, gated_eqButSr h _ ?_⟩
  have done := doSelect_eqButSr h d
  simp only [h.busClaimed, done.value]
  split
  · exact h.respond _ _
  · exact done.state.respond _ _

theorem execDeselectAll_alike : RunsAlike .deselectAll s t := by
  refine ⟨_, _, rfl, rfl, gated_eqButSr h _ ?_⟩
  have done := doDeselect_eqButSr h
  simp only [h.session, done.value]
  split
  · exact h.respond _ _
  · exact done.state.respond _ _

theorem execSessionOpen_alike (d : Device) : RunsAlike (.sessionOpen d) s t := by
  refine ⟨_, _, rfl, rfl, gated_eqButSr h _ ?_⟩
  have done := doSelect_eqButSr h d
  simp only [h.busClaimed, done.value]
  split
  · exact h.respond _ _
  · split
    · exact done.state.map (f := fun s => State.respond { s with session := true } .ok none) fun _ _ => rfl
    · exact done.state.respond _ _

theorem execSessionClose_alike : RunsAlike .sessionClose s t := by
  refine ⟨_, _, rfl, rfl, gated_eqButSr h _ ?_⟩
  have done := doDeselect_eqButSr (h.map (f := fun s => { s with session := false }) fun _ _ => rfl)
  simp only [h.session, done.value]
  split
  · exact h.respond _ _
  · exact done.state.respond _ _

theorem execRead_alike (d : Device) (a n : Word) : RunsAlike (.read d a n) s t := by
  refine ⟨_, _, rfl, rfl, gated_eqButSr h _ ?_⟩
  obtain ⟨code, rx, after⟩ := readFrame_eqButSr h d a.toNat n.toNat
  simp only [h.busClaimed, h.cfg, code, rx]
  split
  · exact h.respond _ _
  · split
    · exact h.respond _ _
    · exact after.respond _ _

theorem execDump_alike (d : Device) (a len : Word) : RunsAlike (.dump d a len) s t := by
  refine ⟨_, _, rfl, rfl, gated_eqButSr h _ ?_⟩
  have done := dumpLoop_eqButSr h d (dumpChunks s.cfg.toConfig a.toNat len.toNat)
  simp only [h.busClaimed, h.cfg, done.value]
  split
  · exact h.respond _ _
  · split
    · exact h.respond _ _
    · exact done.state.map (f := fun s => State.respond { s with dumpPos := none } _ none) fun _ _ => rfl

theorem execSetBitOrder_alike (o : BitOrder) : RunsAlike (.setBitOrder o) s t := by
  refine ⟨_, _, rfl, rfl, gated_eqButSr h _ ?_⟩
  exact h.map (f := fun s => State.respond { s with order := o } .ok none) fun _ _ => rfl

theorem exec_alike (i : Instr) : RunsAlike i s t := by
  cases i with
  | init => exact execInit_alike h
  | validateConfig => exact execValidateConfig_alike h
  | release => exact execRelease_alike h
  | writeByte v => exact execWriteByte_alike h v
  | readByte => exact execReadByte_alike h
  | expValidate => exact execExpValidate_alike h
  | select d => exact execSelect_alike h d
  | deselectAll => exact execDeselectAll_alike h
  | sessionOpen d => exact execSessionOpen_alike h d
  | sessionClose => exact execSessionClose_alike h
  | read d a n => exact execRead_alike h d a n
  | dump d a len => exact execDump_alike h d a len
  | setBitOrder o => exact execSetBitOrder_alike h o

end Commands

/-- Settles O49: two states that differ in `SR` alone run every command alike. -/
theorem shiftRegisterIsNeverObserved : Obligations.ShiftRegisterIsNeverObserved := by
  intro i s v
  obtain ⟨t, _, ht, ht', w, rfl⟩ := exec_alike (t := { s with sr := v }) ⟨v, rfl⟩ i
  exact ⟨t, w, ht, ht'⟩

end Sys2Proof.Machine
end

section
/-!
The address bytes of a frame (spec/20_memory.md R61): how many there are, which byte of the address stands at each
place, and that the base-256 numeral they make is the address.
-/

namespace Sys2Proof.Machine

@[simp] theorem addrBytesOf_length (a A : Nat) : (addrBytesOf a A).length = A := by
  induction A with
  | zero => rfl
  | succ A ih => simp [addrBytesOf, ih]

/-- R61: `a[8k+7:8k]` stands `k` places before the last address byte. -/
theorem addrBytesOf_getElem? (a : Nat) {A k : Nat} (hk : k < A) : (addrBytesOf a A)[A - 1 - k]? = some (addrByte a k) := by
  induction A with
  | zero => omega
  | succ A ih =>
    obtain rfl | hlt := Nat.eq_or_lt_of_le (Nat.le_of_lt_succ hk)
    · simp [addrBytesOf]
    · have place : A + 1 - 1 - k = (A - 1 - k) + 1 := by omega
      rw [place, addrBytesOf, List.getElem?_cons_succ, ih hlt]

/-- The address above byte `k`, with `a[8k+7:8k]` put below it, is the address from byte `k` on. -/
theorem addrByte_append_high (a k : Nat) : a / 2 ^ (8 * (k + 1)) * 256 + (addrByte a k).toNat = a / 2 ^ (8 * k) :=
  calc a / 2 ^ (8 * (k + 1)) * 256 + (addrByte a k).toNat
    _ = a / 2 ^ (8 * k) / 256 * 256 + a / 2 ^ (8 * k) % 256 := by
      rw [Nat.mul_succ 8 k, Nat.pow_add, ← Nat.div_div_eq_div_mul, addrByte, BitVec.toNat_ofNat]
    _ = a / 2 ^ (8 * k) := Nat.div_add_mod' _ _

/-- Reading the `A` low bytes onto what the address has above them gives the address. -/
theorem addrBytesOf_foldl (a A : Nat) :
    (addrBytesOf a A).foldl (fun acc b => acc * 256 + b.toNat) (a / 2 ^ (8 * A)) = a := by
  induction A with
  | zero => simp [addrBytesOf]
  | succ A ih => rw [addrBytesOf, List.foldl_cons, addrByte_append_high, ih]

/-- Settles O32: an address in range has nothing above its `ADDR_BYTES` bytes, so the numeral starts at 0. -/
theorem frameIsOpcodeThenBigEndianAddress : Obligations.FrameIsOpcodeThenBigEndianAddress := by
  intro c d a inRange
  have numeral := addrBytesOf_foldl a (c.desc d).addrBytes
  rw [Nat.div_eq_of_lt inRange] at numeral
  exact ⟨addrBytesOf a (c.desc d).addrBytes, rfl, addrBytesOf_length _ _, numeral, fun k hk => addrBytesOf_getElem? a hk⟩

end Sys2Proof.Machine
end

section
/-!
The command encoding (spec/30_encoding.md): the fields of a header as digits of its value (R81), the five checks as one
equivalence (R86), and the decoder and the encoder as inverses of each other (R83 to R85, R88). The length of a command
(R84) and the answer to an illegal header (R87) follow.
-/

namespace Sys2Proof

open Machine

/-! ### The fields of a header (R81) -/

theorem opField_toNat (h : Word) : (opField h).toNat = h.toNat / 2 ^ 28 := by
  rw [opField, BitVec.extractLsb'_toNat, Nat.shiftRight_eq_div_pow]
  omega

theorem devField_toNat (h : Word) : (devField h).toNat = h.toNat / 2 ^ 26 % 4 := by
  rw [devField, BitVec.extractLsb'_toNat, Nat.shiftRight_eq_div_pow]

theorem rsvField_toNat (h : Word) : (rsvField h).toNat = h.toNat / 2 ^ 9 % 2 ^ 17 := by
  rw [rsvField, BitVec.extractLsb'_toNat, Nat.shiftRight_eq_div_pow]

theorem mField_toNat (h : Word) : (mField h).toNat = h.toNat / 2 ^ 8 % 2 := by
  rw [mField, BitVec.getLsbD, Nat.toNat_testBit]

theorem imm8Field_toNat (h : Word) : (imm8Field h).toNat = h.toNat % 2 ^ 8 := by
  rw [imm8Field, BitVec.extractLsb'_toNat, Nat.shiftRight_zero]

theorem bool_eq_of_toNat_eq : ∀ {a b : Bool}, a.toNat = b.toNat → a = b := by decide

/-- R81 in arithmetic: the value of a header whose reserved bits are 0. -/
theorem header_toNat (op : BitVec 4) (dev : BitVec 2) (m : Bool) (imm8 : Byte) :
    (header op dev m imm8).toNat = op.toNat * 2 ^ 28 + dev.toNat * 2 ^ 26 + m.toNat * 2 ^ 8 + imm8.toNat := by
  simp only [header, toNat_append_eq_mul_add, BitVec.toNat_ofBool, BitVec.toNat_ofNat]
  omega

section Fields

variable (op : BitVec 4) (dev : BitVec 2) (m : Bool) (imm8 : Byte)

@[simp] theorem opField_header : opField (header op dev m imm8) = op := by
  apply BitVec.eq_of_toNat_eq
  rw [opField_toNat, header_toNat]
  have := Bool.toNat_lt m
  omega

@[simp] theorem devField_header : devField (header op dev m imm8) = dev := by
  apply BitVec.eq_of_toNat_eq
  rw [devField_toNat, header_toNat]
  have := Bool.toNat_lt m
  omega

@[simp] theorem rsvField_header : rsvField (header op dev m imm8) = 0#17 := by
  apply BitVec.eq_of_toNat_eq
  rw [rsvField_toNat, header_toNat, BitVec.toNat_ofNat]
  have := Bool.toNat_lt m
  omega

@[simp] theorem mField_header : mField (header op dev m imm8) = m := by
  apply bool_eq_of_toNat_eq
  rw [mField_toNat, header_toNat]
  have := Bool.toNat_lt m
  omega

@[simp] theorem imm8Field_header : imm8Field (header op dev m imm8) = imm8 := by
  apply BitVec.eq_of_toNat_eq
  rw [imm8Field_toNat, header_toNat]
  omega

end Fields

/-- A header whose reserved bits are 0 is made of its other fields. -/
theorem header_of_fields {h : Word} (hrsv : rsvField h = 0#17) :
    header (opField h) (devField h) (mField h) (imm8Field h) = h := by
  have reserved : h.toNat / 2 ^ 9 % 2 ^ 17 = 0 := by rw [← rsvField_toNat, hrsv]; rfl
  apply BitVec.eq_of_toNat_eq
  rw [header_toNat, opField_toNat, devField_toNat, mField_toNat, imm8Field_toNat]
  omega

/-! ### Device codes (R82) -/

theorem exists_codeOfDevice {c : BitVec 2} (h : (deviceOfCode c).isSome = true) : ∃ d, c = codeOfDevice d := by
  have codes : ∀ c, (deviceOfCode c).isSome = true → c = codeOfDevice .flash ∨ c = codeOfDevice .eeprom := by decide
  exact (codes c h).elim (⟨_, ·⟩) (⟨_, ·⟩)

/-! ### The five checks (R86) -/

/-- A header is legal when none of the five checks fails it. -/
theorem headerFault_eq_none_iff (h : Word) :
    headerFault h = none ↔
      opReserved (opField h) = false ∧ rsvField h = 0#17 ∧ (mField h = false ∨ opField h = 0xD#4) ∧
        (imm8Field h = 0x00#8 ∨ opField h = 0x4#4) ∧ devFieldFits h = true := by
  unfold headerFault
  split_ifs <;> simp_all [or_iff_not_imp_left]

/-- R83: the opcodes by the operands they take, none, a device, a byte or a bit order. -/
theorem opcode_cases : ∀ {op : BitVec 4}, opReserved op = false →
    (op ∈ [0x1#4, 0x2#4, 0x3#4, 0x5#4, 0x6#4, 0x8#4, 0xA#4]) ∨ (op ∈ [0x7#4, 0x9#4, 0xB#4, 0xC#4]) ∨
      op = 0x4#4 ∨ op = 0xD#4 := by decide

/-- R83 to R85 read from the header's side: a legal header with its extension words is some command's encoding. -/
theorem exists_encode_of_legal {h : Word} (legal : headerFault h = none) (w1 w2 : Word) :
    ∃ i, instrOfFields h w1 w2 = some i ∧ encode i = if headerIsLong h then [h, w1, w2] else [h] := by
  obtain ⟨hop, hrsv, hm, himm, hdev⟩ := (headerFault_eq_none_iff h).1 legal
  rw [← header_of_fields hrsv]
  rw [devFieldFits] at hdev
  generalize opField h = op at *
  generalize devField h = dev at *
  generalize mField h = m at *
  generalize imm8Field h = imm8 at *
  rcases opcode_cases hop with plain | device | rfl | rfl
  · obtain ⟨rfl, rfl, rfl⟩ : dev = 0b00#2 ∧ m = false ∧ imm8 = 0x00#8 := by
      fin_cases plain <;> simp_all [opTakesDevice]
    fin_cases plain <;> exact ⟨_, rfl, rfl⟩
  · obtain ⟨⟨d, rfl⟩, rfl, rfl⟩ : (∃ d, dev = codeOfDevice d) ∧ m = false ∧ imm8 = 0x00#8 := by
      fin_cases device <;> simp_all [opTakesDevice, exists_codeOfDevice]
    fin_cases device <;> cases d <;> exact ⟨_, rfl, rfl⟩
  · obtain ⟨rfl, rfl⟩ : dev = 0b00#2 ∧ m = false := by simp_all [opTakesDevice]
    exact ⟨.writeByte imm8, by simp [instrOfFields], by simp [encode, headerIsLong]⟩
  · obtain ⟨rfl, rfl⟩ : dev = 0b00#2 ∧ imm8 = 0x00#8 := by simp_all [opTakesDevice]
    cases m <;> exact ⟨_, rfl, rfl⟩

/-! ### The decoder -/

/-- R84: a header of a one-word command, with what follows. -/
theorem decode_short {h : Word} (short : headerIsLong h = false) (rest : List Word) :
    decode (h :: rest) = decodeWith h 0#32 0#32 rest := by simp [decode, short]

/-- R84: a header of a three-word command, with both its extension words. -/
theorem decode_long {h : Word} (long : headerIsLong h = true) (w1 w2 : Word) (rest : List Word) :
    decode (h :: w1 :: w2 :: rest) = decodeWith h w1 w2 rest := by simp [decode, long]

/-- R84: a header of a three-word command, without them. -/
theorem decode_incomplete {h : Word} (long : headerIsLong h = true) {rest : List Word} (few : rest.length < 2) :
    decode (h :: rest) = .waiting := by
  match rest, few with
  | [], _ => simp [decode, long]
  | [w], _ => simp [decode, long]

/-- R88: a header with its extension words is an illegal header or exactly one command, whose encoding they are. -/
theorem decodeWith_cases (h w1 w2 : Word) (rest : List Word) :
    (∃ why, headerFault h = some why ∧ decodeWith h w1 w2 rest = .illegal why rest) ∨
      ∃ i, headerFault h = none ∧ decodeWith h w1 w2 rest = .command i rest ∧
        encode i = if headerIsLong h then [h, w1, w2] else [h] := by
  cases legal : headerFault h with
  | some why => exact .inl ⟨why, rfl, by simp [decodeWith, decodeHeader, legal]⟩
  | none =>
    obtain ⟨i, hi, words⟩ := exists_encode_of_legal legal w1 w2
    exact .inr ⟨i, rfl, by simp [decodeWith, decodeHeader, legal, hi], words⟩

theorem encode_of_decodeWith {h w1 w2 : Word} {more rest : List Word} {i : Instr}
    (hd : decodeWith h w1 w2 more = .command i rest) :
    more = rest ∧ encode i = if headerIsLong h then [h, w1, w2] else [h] := by
  rcases decodeWith_cases h w1 w2 more with ⟨why, -, e⟩ | ⟨j, -, e, words⟩ <;> rw [e] at hd <;> cases hd
  exact ⟨rfl, words⟩

/-- Settles O1: each opcode's row of R83, with the operands of R85. -/
theorem decodeEncodeRoundTrip : Obligations.DecodeEncodeRoundTrip := by
  intro i rest
  cases i with
  | writeByte v =>
    have legal : headerFault (header 0x4#4 0b00#2 false v) = none := by
      simp [headerFault_eq_none_iff, opReserved, devFieldFits, opTakesDevice]
    rw [encode, List.singleton_append, decode_short (by simp [headerIsLong])]
    simp [decodeWith, decodeHeader, legal, instrOfFields]
  | select d => cases d <;> rfl
  | sessionOpen d => cases d <;> rfl
  | read d a n => cases d <;> rfl
  | dump d a n => cases d <;> rfl
  | setBitOrder o => cases o <;> rfl
  | _ => rfl

/-- Settles O2: the words taken, one or three, are the encoding of the command they decode to. -/
theorem decodedWordsAreTheEncoding : Obligations.DecodedWordsAreTheEncoding := by
  intro ws i rest h
  match ws with
  | [] => cases h
  | hd :: more =>
    cases long : headerIsLong hd with
    | false =>
      obtain ⟨rfl, words⟩ := encode_of_decodeWith ((decode_short long more).symm.trans h)
      simp [words, long]
    | true =>
      match more with
      | [] => rw [decode_incomplete long (by simp)] at h; cases h
      | [w] => rw [decode_incomplete long (by simp)] at h; cases h
      | w1 :: w2 :: more =>
        obtain ⟨rfl, words⟩ := encode_of_decodeWith ((decode_long long w1 w2 more).symm.trans h)
        simp [words, long]

/-- Settles O3: the decoder evaluated on the nine encodings. -/
theorem workedEncodings : Obligations.WorkedEncodings := by
  unfold Obligations.WorkedEncodings
  decide

/-! ### The length of a command (R84) -/

theorem headerIsLong_iff (h : Word) : headerIsLong h = true ↔ h.toNat / 2 ^ 28 = 0xB ∨ h.toNat / 2 ^ 28 = 0xC := by
  rw [← opField_toNat]
  simp [headerIsLong, ← BitVec.toNat_inj]

theorem headerWords_eq (h : Word) :
    headerWords h = if h.toNat / 2 ^ 28 = 0xB ∨ h.toNat / 2 ^ 28 = 0xC then 3 else 1 := by
  simp only [headerWords, headerIsLong_iff]

/-- Only `READ` and `DUMP` are encoded in three words. -/
theorem read_or_dump_of_encode {i : Instr} {h w1 w2 : Word} (words : encode i = [h, w1, w2]) :
    (∃ d, i = .read d w1 w2) ∨ ∃ d, i = .dump d w1 w2 := by
  cases i <;> simp_all [encode]

/-- Settles O4: the opcode says how many words are taken, and the header whether they are a command. -/
theorem commandLengthFollowsOpcode : Obligations.CommandLengthFollowsOpcode := by
  intro h rest
  rw [← headerIsLong_iff]
  refine ⟨fun long => ⟨decode_incomplete long, ?_⟩, fun short => ?_⟩
  · rintro w1 w2 rest' rfl
    rw [decode_long long]
    rcases decodeWith_cases h w1 w2 rest' with ⟨why, -, e⟩ | ⟨i, -, e, words⟩ <;> rw [e]
    · exact .inl ⟨why, rfl⟩
    · rw [if_pos long] at words
      exact .inr ((read_or_dump_of_encode words).imp (fun ⟨d, hd⟩ => ⟨d, by rw [hd]⟩) fun ⟨d, hd⟩ => ⟨d, by rw [hd]⟩)
  · rw [decode_short (by simpa using short)]
    rcases decodeWith_cases h 0#32 0#32 rest with ⟨why, -, e⟩ | ⟨i, -, e, -⟩
    · exact .inl ⟨why, e⟩
    · exact .inr ⟨i, e⟩

/-! ### The step on a whole command (R86, R87) -/

theorem step_of_illegal {s : State} {why : IllegalReason} {rest : List Word} (noReset : s.resetInput = .none)
    (h : decode s.port = .illegal why rest) : step s = .next ((s.withPort rest).respond .illegalCommand none) := by
  simp [step, State.takeReset, noReset, State.readPort, h, State.respondIllegal]

/-- R84: the words that follow a header, once its command has taken its own. -/
theorem decode_whole {h : Word} {rest : List Word} (whole : headerWords h ≤ rest.length + 1) :
    ∃ w1 w2, decode (h :: rest) = decodeWith h w1 w2 (rest.drop (headerWords h - 1)) := by
  cases long : headerIsLong h with
  | false => exact ⟨0#32, 0#32, by rw [decode_short long]; simp [headerWords, long]⟩
  | true =>
    match rest with
    | w1 :: w2 :: rest => exact ⟨w1, w2, by rw [decode_long long]; simp [headerWords, long]⟩
    | [] => simp [headerWords, long] at whole
    | [w] => simp [headerWords, long] at whole

theorem deviceOfCode_isSome_iff (c : BitVec 2) : (deviceOfCode c).isSome = true ↔ c.toNat = 1 ∨ c.toNat = 2 := by
  revert c
  decide

/-- R86, R87 in arithmetic on the header's value. -/
theorem headerFault_eq_none_iff_arith (h : Word) {op dev rsv m imm : Nat} (hop : op = h.toNat / 2 ^ 28)
    (hdev : dev = h.toNat / 2 ^ 26 % 4) (hrsv : rsv = h.toNat / 2 ^ 9 % 2 ^ 17) (hm : m = h.toNat / 2 ^ 8 % 2)
    (himm : imm = h.toNat % 2 ^ 8) :
    headerFault h = none ↔
      (op ≠ 0x0 ∧ op ≠ 0xE ∧ op ≠ 0xF) ∧ rsv = 0 ∧ (m = 0 ∨ op = 0xD) ∧ (imm = 0 ∨ op = 0x4) ∧
        (if op = 0x7 ∨ op = 0x9 ∨ op = 0xB ∨ op = 0xC then dev = 1 ∨ dev = 2 else dev = 0) := by
  rw [headerFault_eq_none_iff, hop, hdev, hrsv, hm, himm, ← opField_toNat, ← devField_toNat, ← rsvField_toNat,
    ← mField_toNat, ← imm8Field_toNat, devFieldFits]
  simp [opReserved, opTakesDevice, deviceOfCode_isSome_iff, ← BitVec.toNat_inj, and_assoc, or_assoc]

/-- Settles O5: the five checks in arithmetic, and the step for each answer of the decoder. -/
theorem illegalHeaderExactlyOnFieldChecks : Obligations.IllegalHeaderExactlyOnFieldChecks := by
  intro s h rest op dev rsv m imm extra noReset port hop hdev hrsv hm himm hextra whole
  have checks := headerFault_eq_none_iff_arith h hop hdev hrsv hm himm
  have taken : headerWords h = extra + 1 := by
    rw [headerWords_eq, hextra, hop]
    split <;> rfl
  obtain ⟨w1, w2, hd⟩ := decode_whole (h := h) (rest := rest) (by omega)
  rw [taken, ← port] at hd
  rcases decodeWith_cases h w1 w2 (rest.drop extra) with ⟨why, illegal, e⟩ | ⟨i, legal, e, -⟩
  · rw [if_neg (by simp [← checks, illegal])]
    exact step_of_illegal noReset (hd.trans e)
  · rw [if_pos (checks.1 legal)]
    exact ⟨i, hd.trans e, step_of_command noReset (hd.trans e)⟩

/-! ### The command the host offers -/

/-- The encoding of every command announces its own length (R84). -/
theorem legalHeader : ∀ i : Instr, Laws.LegalHeader.Statement i
  | .init => Laws.LegalHeader.init
  | .validateConfig => Laws.LegalHeader.validateConfig
  | .release => Laws.LegalHeader.release
  | .writeByte v => Laws.LegalHeader.writeByte v
  | .readByte => Laws.LegalHeader.readByte
  | .expValidate => Laws.LegalHeader.expValidate
  | .select d => Laws.LegalHeader.select d
  | .deselectAll => Laws.LegalHeader.deselectAll
  | .sessionOpen d => Laws.LegalHeader.sessionOpen d
  | .sessionClose => Laws.LegalHeader.sessionClose
  | .read d a n => Laws.LegalHeader.read d a n
  | .dump d a n => Laws.LegalHeader.dump d a n
  | .setBitOrder o => Laws.LegalHeader.setBitOrder o

/-- The words that `withFetchWord` offers are as many as their header announces. -/
theorem tableCommand_length (nbits w : Nat) :
    ∃ h more, tableCommand nbits w = h :: more ∧ headerWords h = more.length + 1 := by
  simp only [tableCommand, tableWords]
  generalize BitVec.ofNat 32 (w % 2 ^ nbits) = h
  cases long : headerIsLong h <;> simp [headerWords, long]

/-- What `decodeTableWord` reads is the whole of the words offered: they and the encoding have one header, which
announces the length of both. -/
theorem tableCommand_of_decodeTableWord {nbits w : Nat} {i : Instr} (h : decodeTableWord nbits w = some i) :
    tableCommand nbits w = encode i := by
  obtain ⟨rest, hd⟩ : ∃ rest, decode (tableCommand nbits w) = .command i rest := by
    unfold decodeTableWord at h
    split at h
    next j rest hd => cases h; exact ⟨rest, hd⟩
    next => cases h
  have words := decodedWordsAreTheEncoding _ _ _ hd
  obtain ⟨hdr, more, table, length⟩ := tableCommand_length nbits w
  obtain ⟨hdr', more', enc, -, length'⟩ := legalHeader i
  rw [table, enc, List.cons_append, List.cons.injEq] at words
  obtain ⟨rfl, rfl⟩ := words
  have : rest.length = 0 := by
    rw [length', List.length_append] at length
    omega
  rw [table, enc, List.length_eq_zero_iff.1 this, List.append_nil]

/-- Settles O7: the words offered are the command's encoding, so the decoder reads it and leaves the port's words. -/
theorem offeredCommandRunsNext : Obligations.OfferedCommandRunsNext := by
  intro s nbits w i h
  have hd := decodeEncodeRoundTrip i s.port
  rw [← tableCommand_of_decodeTableWord h] at hd
  exact step_of_command (s := s.withFetchWord nbits w) rfl hd

end Sys2Proof
end

section
/-!
Sessions as the host runs them (spec/30_encoding.md R90): the commands of a session for a ready engine, where the host
stops sending, and the writes of the output register along a `WITH_DEVICE` (spec/42_session.md R174).
-/

namespace Sys2Proof.Machine

/-! ### Commands that pass the gate -/

/-- A ready engine with a session open. -/
structure State.InSession (s : State) : Prop extends State.Ready s where
  session_open : s.session = true

/-- What every session ends in: no session, an Idle bus and no device. -/
structure State.Closed (s : State) : Prop where
  no_session : s.session = false
  bus_idle : s.bus = .idle
  no_device : s.seldev = none

theorem exec_writeByte_of_ready {s : State} (h : s.Ready) (v : Byte) :
    exec (.writeByte v) s = .next
      (if (xferOut v s.order s).1 then (xferOut v s.order s).2.respond .ok none
        else abortTransfer (xferOut v s.order s).2) :=
  congrArg Host.Outcome.next (gated_of_pass (gate_of_ready h (by simp)))

theorem exec_readByte_of_ready {s : State} (h : s.Ready) :
    exec .readByte s = .next
      (if (xferIn s.order s).1 then (xferIn s.order s).2.respond .ok (some (.byte (xferIn s.order s).2.sr))
        else abortTransfer (xferIn s.order s).2) :=
  congrArg Host.Outcome.next (gated_of_pass (gate_of_ready h (by simp)))

theorem exec_expValidate_of_ready {s : State} (h : s.Ready) :
    exec .expValidate s = .next ((validate s).2.respond .ok (some (.valid (validate s).1))) :=
  congrArg Host.Outcome.next (gated_of_pass (gate_of_ready h (by simp)))

theorem exec_setBitOrder_of_ready {s : State} (h : s.Ready) (o : BitOrder) :
    exec (.setBitOrder o) s = .next (State.respond { s with order := o } .ok none) :=
  congrArg Host.Outcome.next (gated_of_pass (gate_of_ready h (by simp)))

theorem exec_sessionOpen_of_free {s : State} (h : s.Free) (d : Device) :
    exec (.sessionOpen d) s = .next
      (if (doSelect d s).1 then State.respond { (doSelect d s).2 with session := true } .ok none
        else (doSelect d s).2.respond .selectFailure none) := by
  refine congrArg Host.Outcome.next ((gated_of_pass (gate_of_ready h.toReady (by simp))).trans ?_)
  simp only [busClaimed_of_free h, Bool.false_eq_true, if_false]

/-- R173 closes as the cleanup of R244 does. -/
theorem exec_sessionClose_of_inSession {s : State} (h : s.InSession) :
    exec .sessionClose s = .next
      ((cleanup s).respond (if (doDeselect { s with session := false }).1 then .ok else .selectFailure) none) := by
  refine congrArg Host.Outcome.next ((gated_of_pass (gate_of_ready h.toReady (by simp))).trans ?_)
  simp only [h.session_open, Bool.not_true, Bool.false_eq_true, if_false, cleanup]

theorem abortTransfer_of_session {s : State} (h : s.session = true) :
    abortTransfer s = (cleanup s).respond .transferAborted none := by rw [abortTransfer, if_pos h]

theorem cleanup_closed (s : State) : (cleanup s).Closed := by
  obtain ⟨ok, h⟩ := cleanup_deselects s
  rw [h]
  exact ⟨noteAll_session _ _, rfl, rfl⟩

theorem State.Closed.respond {s : State} (h : s.Closed) (c : Code) (p : Option Payload) : (s.respond c p).Closed :=
  { h with }

theorem State.InSession.respond {s : State} (h : s.InSession) (c : Code) (p : Option Payload) :
    (s.respond c p).InSession := { h with }

theorem State.InSession.noteAll {s : State} (h : s.InSession) (es : List Event) : (s.noteAll es).InSession where
  running := by rw [noteAll_halted, h.running]
  valid := by rw [noteAll_handle, h.valid]
  session_open := by rw [noteAll_session, h.session_open]

theorem State.InSession.movedByte {s : State} (h : s.InSession) (es : List Event) (sr : Byte) (dout : Bool) :
    (s.movedByte es sr dout).InSession := { h.noteAll es with }

theorem State.InSession.with_order {s : State} (h : s.InSession) (o : BitOrder) :
    State.InSession { s with order := o } := { h with }

/-- R170: a select that succeeds on a ready engine. -/
theorem State.Ready.opened {s : State} (h : s.Ready) (d : Device) :
    State.InSession { s.selected d with session := true } where
  running := by simp [h.running]
  valid := by simp [h.valid]
  session_open := rfl

/-! ### Where the host stops (R90) -/

@[simp] theorem lastCode_respond (s : State) (c : Code) (p : Option Payload) : (s.respond c p).lastCode = some c := by
  simp [State.lastCode]

/-- The host stops after a `TransferAborted` in the body. -/
def stopsAtAbort (c : Option Code) : Bool := decide (c = some .transferAborted)

theorem sendUntil_goes_on {stop : Option Code → Bool} {i : Instr} {s t : State} (h : exec i s = .next t)
    (go : stop t.lastCode = false) (is : List Instr) : sendUntil stop (i :: is) s = sendUntil stop is t := by
  simp [sendUntil, h, go]

theorem sendUntil_stops {stop : Option Code → Bool} {i : Instr} {s t : State} (h : exec i s = .next t)
    (halt : stop t.lastCode = true) (is : List Instr) : sendUntil stop (i :: is) s = .next t := by
  simp [sendUntil, h, halt]

theorem withDevice_of_opened {d : Device} {s t : State} (h : exec (.sessionOpen d) s = .next t)
    (ok : t.lastCode = some .ok) (body : List Instr) :
    withDevice d body s = sendUntil stopsAtAbort (body ++ [.sessionClose]) t := by
  simp only [withDevice, h, ok, if_true]
  rfl

theorem withDevice_of_not_opened {d : Device} {s t : State} (h : exec (.sessionOpen d) s = .next t)
    (failed : t.lastCode ≠ some .ok) (body : List Instr) : withDevice d body s = .next t := by
  simp only [withDevice, h, failed, if_false]

/-! ### The writes of the output register -/

/-- The state `t` has come from `s`, and the writes of the output register on the way were `vs`. -/
structure Wrote (s : State) (vs : List RegValue) (t : State) : Prop where
  cfg : t.cfg = s.cfg
  grows : ∃ es, t.history = s.history ++ es ∧ outWrites s.cfg.toConfig es = vs

theorem Wrote.trans {s t u : State} {vs ws : List RegValue} (h : Wrote s vs t) (k : Wrote t ws u) :
    Wrote s (vs ++ ws) u := by
  obtain ⟨hc, es, hh, hw⟩ := h
  obtain ⟨kc, fs, kh, kw⟩ := k
  exact ⟨kc.trans hc, es ++ fs, by rw [kh, hh, List.append_assoc], by rw [outWrites_append, hw, ← hc, kw]⟩

/-- A trace noted, with other values in the registers. -/
theorem wrote_of_history {s t : State} {es : List Event} (hc : t.cfg = s.cfg) (hh : t.history = s.history ++ es) :
    Wrote s (outWrites s.cfg.toConfig es) t := ⟨hc, es, hh, rfl⟩

theorem Wrote.respond {s t : State} {vs : List RegValue} (h : Wrote s vs t) (c : Code) (p : Option Payload) :
    Wrote s vs (t.respond c p) := by
  have quiet : Wrote t [] (t.respond c p) := wrote_of_history (es := [.resp c]) rfl rfl
  simpa using h.trans quiet

theorem wrote_movedByte (s : State) {es : List Event} (h : OnLines es) (sr : Byte) (dout : Bool) :
    Wrote s [] (s.movedByte es sr dout) := by
  rw [← outWrites_onLines s.cfg.toConfig h]
  exact wrote_of_history (by simp) (by simp)

theorem wrote_deselected (s : State) (ok : Bool) : Wrote s [selValue s.cfg.toConfig none] (s.deselected ok) := by
  rw [← outWrites_deselectWrite s.cfg.toConfig ok]
  exact wrote_of_history (by simp) (by simp)

theorem wrote_selectWrite (s : State) (d : Device) (ok : Bool) :
    Wrote s [selValue s.cfg.toConfig (some d)] (s.noteAll [selectWrite s.cfg.toConfig d ok]) := by
  rw [← outWrites_selectWrite s.cfg.toConfig d ok]
  exact wrote_of_history (by simp) (by simp)

theorem Wrote.with_registers {s t u : State} {vs : List RegValue} (h : Wrote s vs t) (hc : u.cfg = t.cfg)
    (hh : u.history = t.history) : Wrote s vs u := ⟨hc.trans h.cfg, hh ▸ h.grows⟩

theorem wrote_cleanup (s : State) : Wrote s [selValue s.cfg.toConfig none] (cleanup s) := by
  obtain ⟨ok, h⟩ := cleanup_deselects s
  rw [h]
  have wrote := wrote_deselected { s with session := false } ok
  exact ⟨wrote.cfg, wrote.grows⟩

/-- R142: the check writes the scratch register, which R11 keeps apart from the output register. -/
theorem validate_wrote (s : State) : ∃ ok es, validate s = (ok, s.noteAll es) ∧ Wrote s [] (s.noteAll es) := by
  obtain ⟨-, -, -, -, -, apart, -⟩ := AdmittedConfig_facts s.cfg
  rcases scratchWrite_answered s with h | ⟨r, h⟩
  · exact ⟨_, _, validate_of_failed h, by simp, _, noteAll_history _ _, by simp [outWrites, scratchWrite, apart]⟩
  · exact ⟨_, _, validate_of_read h, by simp, _, noteAll_history _ _, by simp [outWrites, scratchWrite, apart]⟩

theorem xferOut_wrote (v : Byte) (ord : BitOrder) (s : State) :
    ∃ fault es dout, xferOut v ord s = (!fault, s.movedByte es 0#8 dout) ∧ Wrote s [] (s.movedByte es 0#8 dout) := by
  obtain ⟨fault, -, he⟩ := xferOut_eq v ord s
  exact ⟨fault, _, _, he, wrote_movedByte s (onLines_sentByte s.cfg.cpol ord fault v) _ _⟩

theorem xferIn_wrote (ord : BitOrder) (s : State) :
    ∃ fault es v, xferIn ord s = (!fault, s.movedByte es v s.dout) ∧ Wrote s [] (s.movedByte es v s.dout) := by
  obtain ⟨fault, v, -, he⟩ := xferIn_eq ord s
  refine ⟨fault, _, v, ?_, wrote_movedByte s (onLines_receivedByte s.cfg.cpol ord fault v) _ _⟩
  simp only [he, State.movedByte, noteAll_eq]

/-! ### A session that the host runs -/

/-- A body command in a session: it leaves the session open and writes nothing, or it aborts, and the engine has then
closed the session with one deselect write (R244). -/
inductive BodyRun (s t : State) : Prop
  | stays (inSession : t.InSession) (ok : t.lastCode = some .ok) (wrote : Wrote s [] t)
  | aborts (closed : t.Closed) (aborted : t.lastCode = some .transferAborted)
      (wrote : Wrote s [selValue s.cfg.toConfig none] t)

theorem bodyRun_of_respond {s u : State} (h : u.InSession) (wrote : Wrote s [] u) (p : Option Payload) :
    BodyRun s (u.respond .ok p) := .stays (h.respond _ _) (lastCode_respond _ _ _) (wrote.respond _ _)

theorem bodyRun_of_abort {s u : State} (h : u.InSession) (wrote : Wrote s [] u) : BodyRun s (abortTransfer u) := by
  rw [abortTransfer_of_session h.session_open]
  refine .aborts ((cleanup_closed u).respond _ _) (lastCode_respond _ _ _) ?_
  exact wrote.cfg ▸ (wrote.trans (wrote_cleanup u)).respond _ _

theorem exec_bodyRun {i : Instr} {s : State} (body : isBodyCommand i = true) (h : s.InSession) :
    ∃ t, exec i s = .next t ∧ BodyRun s t := by
  cases i with
  | writeByte v =>
    refine ⟨_, exec_writeByte_of_ready h.toReady v, ?_⟩
    obtain ⟨fault, es, dout, he, wrote⟩ := xferOut_wrote v s.order s
    rw [he]
    cases fault with
    | false => exact bodyRun_of_respond (h.movedByte _ _ _) wrote _
    | true => exact bodyRun_of_abort (h.movedByte _ _ _) wrote
  | readByte =>
    refine ⟨_, exec_readByte_of_ready h.toReady, ?_⟩
    obtain ⟨fault, es, v, he, wrote⟩ := xferIn_wrote s.order s
    rw [he]
    cases fault with
    | false => exact bodyRun_of_respond (h.movedByte _ _ _) wrote _
    | true => exact bodyRun_of_abort (h.movedByte _ _ _) wrote
  | expValidate =>
    refine ⟨_, exec_expValidate_of_ready h.toReady, ?_⟩
    obtain ⟨ok, es, he, wrote⟩ := validate_wrote s
    rw [he]
    exact bodyRun_of_respond (h.noteAll es) wrote _
  | setBitOrder o =>
    have wrote : Wrote s [] { s with order := o } := wrote_of_history (es := []) rfl (by simp)
    exact ⟨_, exec_setBitOrder_of_ready h.toReady o, bodyRun_of_respond (h.with_order o) wrote _⟩
  | _ => cases body

/-- From inside a session, the rest of a `WITH_DEVICE` closes it with one write. -/
theorem sendUntil_closes (body : List Instr) {s : State} (h : s.InSession)
    (hbody : ∀ i ∈ body, isBodyCommand i = true) :
    ∃ t, sendUntil stopsAtAbort (body ++ [.sessionClose]) s = .next t ∧ t.Closed ∧
      Wrote s [selValue s.cfg.toConfig none] t := by
  induction body generalizing s with
  | nil =>
    refine ⟨_, sendUntil_goes_on (exec_sessionClose_of_inSession h) ?_ [], (cleanup_closed s).respond _ _,
      (wrote_cleanup s).respond _ _⟩
    rw [lastCode_respond]
    split <;> rfl
  | cons i body ih =>
    obtain ⟨hi, hrest⟩ := List.forall_mem_cons.1 hbody
    obtain ⟨t, ht, run⟩ := exec_bodyRun hi h
    cases run with
    | stays inSession ok wrote =>
      obtain ⟨u, hu, closed, wrote'⟩ := ih inSession hrest
      refine ⟨u, (sendUntil_goes_on ht (by rw [ok]; rfl) _).trans hu, closed, ?_⟩
      exact wrote.cfg ▸ wrote.trans wrote'
    | aborts closed aborted wrote =>
      exact ⟨t, sendUntil_stops ht (by rw [aborted]; rfl) _, closed, wrote⟩

/-- R90: every `WITH_DEVICE` from a free engine ends closed, after one select and one deselect write. -/
theorem withDevice_closes (d : Device) {body : List Instr} {s : State} (h : s.Free)
    (hbody : ∀ i ∈ body, isBodyCommand i = true) :
    ∃ t, withDevice d body s = .next t ∧ t.Closed ∧
      Wrote s [selValue s.cfg.toConfig (some d), selValue s.cfg.toConfig none] t := by
  have opens := exec_sessionOpen_of_free h d
  rcases doSelect_selects d s with hs | ⟨ok, hs⟩ <;> rw [hs] at opens
  · have wrote : Wrote s [selValue s.cfg.toConfig (some d)] { s.selected d with session := true } :=
      (wrote_selectWrite s d true).with_registers rfl rfl
    obtain ⟨t, ht, closed, wrote'⟩ := sendUntil_closes body ((h.toReady.opened d).respond .ok none) hbody
    refine ⟨t, (withDevice_of_opened opens (lastCode_respond _ _ _) body).trans ht, closed, ?_⟩
    exact (wrote.respond .ok none).trans (by simpa using wrote')
  · refine ⟨_, withDevice_of_not_opened opens (by simp) body, .respond ⟨?_, rfl, rfl⟩ _ _, ?_⟩
    · simp [h.no_session]
    · have wrote' := wrote_deselected (s.noteAll [selectWrite s.cfg.toConfig d false]) ok
      rw [noteAll_cfg] at wrote'
      exact ((wrote_selectWrite s d false).trans wrote').respond _ _

/-- Settles O31: one selection to open, and one deselection whether the body aborts, the close runs, or the select
failed. -/
theorem withDeviceDeselectsExactlyOnce : Obligations.WithDeviceDeselectsExactlyOnce := by
  intro d body s free hbody
  obtain ⟨t, ht, closed, -, es, history, writes⟩ := withDevice_closes d free hbody
  exact ⟨t, es, ht, history, writes, closed.no_session, closed.bus_idle, closed.no_device⟩

end Sys2Proof.Machine
end

section
/-!
`READ` and the raw frame that the host sends as a session (spec/30_encoding.md R91, which the spec infers). Both are
followed step by step from one state: their states agree in all but the responses and what a session or a `READ` keeps
for itself (`Alike`), so the scripted oracles answer both alike, and the raw frame stops where the `READ` stops
(`Followed`).
-/

namespace Sys2Proof.Machine

/-! ### States that agree on the wire -/

/-- What a `READ` and its raw frame have in common while they run: not the responses, the session, the frame phase or
the receive buffer. -/
def State.onWire (s : State) : State :=
  { s with
    history := withoutResponses s.history, responses := [], session := false, phase := .idle, rxbuf := [] }

/-- The state `t` agrees with `s` on the wire. -/
def Alike (s t : State) : Prop := t.onWire = s.onWire

/-- What an operation leaves when it does the same on the wire to every state. -/
theorem Alike.map {s t : State} (h : Alike s t) {f : State → State} (wire : ∀ s, (f s).onWire = (f s.onWire).onWire) :
    Alike (f s) (f t) := by
  rw [Alike, wire t, wire s, show t.onWire = s.onWire from h]

/-- What the wire shows. -/
theorem Alike.same {s t : State} (h : Alike s t) {α : Type} {f : State → α} (shown : ∀ s, f s.onWire = f s) :
    f t = f s := by rw [← shown t, ← shown s, show t.onWire = s.onWire from h]

theorem Alike.cfg {s t : State} (h : Alike s t) : t.cfg = s.cfg := h.same fun _ => rfl
theorem Alike.sck {s t : State} (h : Alike s t) : t.sck = s.sck := h.same fun _ => rfl
theorem Alike.dout {s t : State} (h : Alike s t) : t.dout = s.dout := h.same fun _ => rfl
theorem Alike.sr {s t : State} (h : Alike s t) : t.sr = s.sr := h.same fun _ => rfl
theorem Alike.bitcnt {s t : State} (h : Alike s t) : t.bitcnt = s.bitcnt := h.same fun _ => rfl
theorem Alike.order {s t : State} (h : Alike s t) : t.order = s.order := h.same fun _ => rfl
theorem Alike.bus {s t : State} (h : Alike s t) : t.bus = s.bus := h.same fun _ => rfl
theorem Alike.seldev {s t : State} (h : Alike s t) : t.seldev = s.seldev := h.same fun _ => rfl
theorem Alike.handle {s t : State} (h : Alike s t) : t.handle = s.handle := h.same fun _ => rfl
theorem Alike.halted {s t : State} (h : Alike s t) : t.halted = s.halted := h.same fun _ => rfl
theorem Alike.outShadow {s t : State} (h : Alike s t) : t.outShadow = s.outShadow := h.same fun _ => rfl
theorem Alike.samples {s t : State} (h : Alike s t) : t.samples = s.samples := h.same fun _ => rfl
theorem Alike.expAcks {s t : State} (h : Alike s t) : t.expAcks = s.expAcks := h.same fun _ => rfl
theorem Alike.pinFaults {s t : State} (h : Alike s t) : t.pinFaults = s.pinFaults := h.same fun _ => rfl

/-- The fields that the wire does not show may change freely. -/
theorem Alike.with_hidden {s t u : State} (h : Alike s t) (same : u.onWire = t.onWire) : Alike s u := same.trans h

theorem withoutResponses_append (es fs : List Event) :
    withoutResponses (es ++ fs) = withoutResponses es ++ withoutResponses fs :=
  List.filter_append ..

@[simp] theorem withoutResponses_idem (es : List Event) :
    withoutResponses (withoutResponses es) = withoutResponses es := by
  simp [withoutResponses]

theorem Alike.history {s t : State} (h : Alike s t) : withoutResponses t.history = withoutResponses s.history :=
  h.same (f := fun s => withoutResponses s.history) fun _ => withoutResponses_idem _

theorem onWire_respond (s : State) (c : Code) (p : Option Payload) : (s.respond c p).onWire = s.onWire := by
  have : withoutResponses (s.history ++ [.resp c]) = withoutResponses s.history := by
    simp [withoutResponses, isResp]
  simp only [State.onWire, State.respond, State.note, this]

theorem Alike.noteAll {s t : State} (h : Alike s t) (es : List Event) : Alike (s.noteAll es) (t.noteAll es) :=
  h.map (f := fun s => s.noteAll es) fun s => by
    simp only [State.onWire, noteAll_eq, withoutResponses_append, withoutResponses_idem]

theorem Alike.movedByte {s t : State} (h : Alike s t) (es : List Event) (sr : Byte) (dout : Bool) :
    Alike (s.movedByte es sr dout) (t.movedByte es sr dout) :=
  h.map (f := fun s => s.movedByte es sr dout) fun s => by
    simp only [State.movedByte, State.onWire, noteAll_eq, withoutResponses_append, withoutResponses_idem]

theorem Alike.deselected {s t : State} (h : Alike s t) (ok : Bool) : Alike (s.deselected ok) (t.deselected ok) :=
  h.map (f := fun s => s.deselected ok) fun s => by
    simp only [State.deselected, State.onWire, noteAll_eq, withoutResponses_append, withoutResponses_idem]

/-! ### Scripted answers -/

/-- The oracles' scripts hold at least so many samples, answers to writes and pin checks. -/
structure State.Stocked (s : State) (samples acks checks : Nat) : Prop where
  samples : samples ≤ s.samples.length
  acks : acks ≤ s.expAcks.length
  checks : checks ≤ s.pinFaults.length

/-- A trace draws so many samples, answers to writes and pin checks, and reads no register of the expander. -/
structure Draws (es : List Event) (samples acks checks : Nat) : Prop where
  samples : es.countP isSample = samples
  acks : es.countP isExpW = acks
  checks : es.countP isPinCheck = checks
  reads : es.countP isExpR = 0

theorem draws_expW (a : RegAddr) (v : RegValue) (ok : Bool) : Draws [.expW a v ok] 0 1 0 := ⟨rfl, rfl, rfl, rfl⟩

theorem State.Stocked.mono {s : State} {k w c k' w' c' : Nat} (h : s.Stocked k w c) (hk : k' ≤ k) (hw : w' ≤ w)
    (hc : c' ≤ c) : s.Stocked k' w' c' :=
  ⟨hk.trans h.samples, hw.trans h.acks, hc.trans h.checks⟩

theorem State.Stocked.alike {s t : State} {k w c : Nat} (stock : s.Stocked k w c) (h : Alike s t) : t.Stocked k w c :=
  ⟨h.samples ▸ stock.samples, h.expAcks ▸ stock.acks, h.pinFaults ▸ stock.checks⟩

/-- What a trace leaves of the scripts. -/
theorem State.Stocked.noteAll {s : State} {es : List Event} {k w c k' w' c' : Nat}
    (h : s.Stocked (k + k') (w + w') (c + c')) (draws : Draws es k' w' c') : (s.noteAll es).Stocked k w c := by
  obtain ⟨hk, hw, hc⟩ := h
  obtain ⟨rfl, rfl, rfl, -⟩ := draws
  rw [noteAll_eq]
  constructor <;> simp only [List.length_drop] <;> omega

theorem State.Stocked.movedByte {s : State} {es : List Event} {k w c k' w' c' : Nat}
    (h : s.Stocked (k + k') (w + w') (c + c')) (draws : Draws es k' w' c') (sr : Byte) (dout : Bool) :
    (s.movedByte es sr dout).Stocked k w c := by
  obtain ⟨hk, hw, hc⟩ := h.noteAll draws
  exact ⟨hk, hw, hc⟩

theorem State.Stocked.selected {s : State} {k w c : Nat} (h : s.Stocked k (w + 1) c) (d : Device) :
    (s.selected d).Stocked k w c := by
  have draws := draws_expW s.cfg.expOutReg (selValue s.cfg.toConfig (some d)) true
  obtain ⟨hk, hw, hc⟩ := h.noteAll (k' := 0) (c' := 0) draws
  exact ⟨hk, hw, hc⟩

/-- An event whose draw, if it is one, is scripted. -/
theorem Alike.answersEvent {s t : State} (h : Alike s t) {e : Event} {k w c : Nat} (stock : s.Stocked k w c)
    (draws : Draws [e] k w c) : t.answersEvent e = s.answersEvent e := by
  obtain ⟨hk, hw, hc⟩ := stock
  obtain ⟨rfl, rfl, rfl, hr⟩ := draws
  cases e with
  | sample b =>
    obtain ⟨x, xs, hx⟩ := List.exists_cons_of_length_pos (l := s.samples) hk
    simp [State.answersEvent, State.sampleAnswer, h.samples, hx]
  | expW a v ok =>
    obtain ⟨x, xs, hx⟩ := List.exists_cons_of_length_pos (l := s.expAcks) hw
    simp [State.answersEvent, State.expAckAnswer, h.expAcks, hx]
  | pinCheck f =>
    obtain ⟨x, xs, hx⟩ := List.exists_cons_of_length_pos (l := s.pinFaults) hc
    simp [State.answersEvent, State.pinFaultAnswer, h.pinFaults, hx]
  | expR a r => simp [isExpR] at hr
  | _ => rfl

/-- Scripted answers do not depend on the responses (R14). -/
theorem Alike.answers {s t : State} (h : Alike s t) {es : List Event} {k w c : Nat} (stock : s.Stocked k w c)
    (draws : Draws es k w c) : t.answers es = s.answers es := by
  induction es generalizing s t k w c with
  | nil => rfl
  | cons e es ih =>
    obtain ⟨rfl, rfl, rfl, hr⟩ := draws
    rw [← List.singleton_append] at stock hr
    simp only [List.countP_append] at stock hr
    have first : Draws [e] _ _ _ := ⟨rfl, rfl, rfl, by omega⟩
    have rest : Draws es _ _ _ := ⟨rfl, rfl, rfl, by omega⟩
    have event := h.answersEvent (stock.mono (by omega) (by omega) (by omega)) first
    have later := ih (h.noteAll [e]) (State.Stocked.noteAll (stock.mono (by omega) (by omega) (by omega)) first) rest
    exact congrArg₂ (· && ·) event later

theorem draws_sentByte (cpol : Bool) (ord : BitOrder) (fault : Bool) (v : Byte) :
    Draws (sentByte cpol ord fault v) 0 0 1 := by
  constructor <;> simp [sentByte, txEvents, bitSlots, isSample, isExpW, isExpR, isPinCheck]

theorem draws_receivedByte (cpol : Bool) (ord : BitOrder) (fault : Bool) (v : Byte) :
    Draws (receivedByte cpol ord fault v) 8 0 1 := by
  constructor <;> simp [receivedByte, rxEvents, bitSlots, isSample, isExpW, isExpR, isPinCheck, List.countP_cons]

/-! ### Operations on states that agree -/

/-- Two results of a procedure are the same value, in states that agree on the wire. -/
structure SameOutcome (x y : Bool × State) : Prop where
  value : y.1 = x.1
  state : Alike x.2 y.2

theorem xferOut_alike {s t : State} (h : Alike s t) (v : Byte) (ord : BitOrder) {k w c : Nat}
    (stock : s.Stocked k w (c + 1)) :
    SameOutcome (xferOut v ord s) (xferOut v ord t) ∧ (xferOut v ord s).2.Stocked k w c := by
  obtain ⟨fault, ha, he⟩ := xferOut_eq v ord s
  have draws := draws_sentByte s.cfg.cpol ord fault v
  have he' : xferOut v ord t = (!fault, t.movedByte (sentByte s.cfg.cpol ord fault v) 0#8 (wireBit ord v 7)) := by
    rw [← h.answers (stock.mono (by omega) (by omega) (by omega)) draws, ← h.cfg] at ha
    rw [← h.cfg]
    exact xferOut_of_answers ha
  rw [he, he']
  exact ⟨⟨rfl, h.movedByte _ _ _⟩, stock.movedByte draws _ _⟩

theorem xferIn_movedByte_of_answers {v : Byte} {ord : BitOrder} {s : State} {fault : Bool}
    (h : s.answers (receivedByte s.cfg.cpol ord fault v) = true) :
    xferIn ord s = (!fault, s.movedByte (receivedByte s.cfg.cpol ord fault v) v s.dout) := by
  simp only [xferIn_of_answers h, State.movedByte, noteAll_eq]

theorem xferIn_alike {s t : State} (h : Alike s t) (ord : BitOrder) {k w c : Nat}
    (stock : s.Stocked (k + 8) w (c + 1)) :
    SameOutcome (xferIn ord s) (xferIn ord t) ∧ (xferIn ord s).2.Stocked k w c := by
  obtain ⟨fault, v, ha⟩ := receivedByte_answered s ord
  have draws := draws_receivedByte s.cfg.cpol ord fault v
  have he' : xferIn ord t = (!fault, t.movedByte (receivedByte s.cfg.cpol ord fault v) v s.dout) := by
    have ha' := (h.answers (stock.mono (by omega) (by omega) (by omega)) draws).trans ha
    rw [← h.cfg] at ha' ⊢
    rw [← h.dout]
    exact xferIn_movedByte_of_answers ha'
  rw [xferIn_movedByte_of_answers ha, he']
  exact ⟨⟨rfl, h.movedByte _ _ _⟩, stock.movedByte draws _ _⟩

/-- R145: a deselect attempt whose answer is scripted. -/
theorem doDeselect_alike {s t : State} (h : Alike s t) (stock : s.Stocked 0 1 0) :
    SameOutcome (doDeselect s) (doDeselect t) := by
  obtain ⟨ok, ha⟩ := deselectWrite_answered s
  have ha' := (h.answers stock (draws_expW _ _ ok)).trans ha
  rw [doDeselect_of_answers ha, doDeselect_of_answers (ok := ok) (by rw [h.cfg]; exact ha')]
  exact ⟨rfl, h.deselected ok⟩

theorem Alike.closed {s t : State} (h : Alike s t) : Alike { s with session := false } { t with session := false } := h

theorem cleanup_alike {s t : State} (h : Alike s t) (stock : s.Stocked 0 1 0) : Alike (cleanup s) (cleanup t) :=
  (doDeselect_alike h.closed { stock with }).state

/-! ### What the host is answered -/

/-- From `s` to `t` the engine has responded `n` times, and the bytes it returned one by one are `bs`. -/
structure Answered (s : State) (n : Nat) (bs : List Byte) (t : State) : Prop where
  grows : ∃ es, t.history = s.history ++ es ∧ es.countP isResp = n
  returned : ∃ rs, t.responses = s.responses ++ rs ∧ returnedBytes rs = bs

theorem Answered.refl (s : State) : Answered s 0 [] s := ⟨⟨[], by simp⟩, [], by simp [returnedBytes]⟩

theorem Answered.trans {s t u : State} {n m : Nat} {bs cs : List Byte} (h : Answered s n bs t)
    (k : Answered t m cs u) : Answered s (n + m) (bs ++ cs) u := by
  obtain ⟨⟨es, hh, rfl⟩, rs, hr, rfl⟩ := h
  obtain ⟨⟨fs, kh, rfl⟩, qs, kr, rfl⟩ := k
  exact ⟨⟨es ++ fs, by rw [kh, hh, List.append_assoc], List.countP_append⟩,
    rs ++ qs, by rw [kr, hr, List.append_assoc], List.filterMap_append⟩

/-- One command: events that are no responses, then its response. -/
theorem Silent.answered {s u : State} (h : Silent s u) (c : Code) (p : Option Payload) :
    Answered s 1 (returnedBytes [{ status := statusWord c u, payload := p }]) (u.respond c p) := by
  obtain ⟨⟨es, quiet, history⟩, responses⟩ := h
  have none : es.countP isResp = 0 := List.countP_eq_zero.2 fun e he => by simp [quiet e he]
  exact ⟨⟨es ++ [.resp c], by simp [history], by simp [List.countP_append, none, isResp]⟩,
    _, by rw [← responses]; rfl, rfl⟩

theorem silent_xferOut (v : Byte) (ord : BitOrder) (s : State) : Silent s (xferOut v ord s).2 := by
  obtain ⟨fault, es, dout, quiet, he⟩ := xferOut_moves v ord s
  rw [he]
  exact (Silent.refl s).movedByte quiet _ _

theorem silent_xferIn (ord : BitOrder) (s : State) : Silent s (xferIn ord s).2 := by
  obtain ⟨fault, es, v, quiet, he⟩ := xferIn_moves ord s
  rw [he]
  exact (Silent.refl s).movedByte quiet _ _

theorem silent_cleanup (s : State) : Silent s (cleanup s) := by
  obtain ⟨ok, he⟩ := cleanup_deselects s
  rw [he]
  exact (Silent.refl s).closed.deselected ok

/-! ### The raw frame beside the read sequence -/

/-- The host's state `t` in the session that sends the raw frame, beside the state `s` of the read sequence. -/
structure Follows (s t : State) : Prop where
  alike : Alike s t
  inSession : t.InSession
  order : t.order = .msbFirst

/-- What sending `cmds` in the session from `t` comes to, when the read sequence does its part of the work with the
result `r`, having had `rx` in its receive buffer: the host goes on beside it, with the bytes received returned to it
one by one, or both abort at the same byte. The scripts still hold `k` samples, one answer to a write and `c` pin
checks. -/
inductive Followed (rx : List Byte) (t : State) (cmds : List Instr) (r : Bool × State) (k c : Nat) : Prop
  | completed {t' : State} {bs : List Byte} (ok : r.1 = true)
      (sent : ∀ rest, sendUntil stopsAtAbort (cmds ++ rest) t = sendUntil stopsAtAbort rest t')
      (follows : Follows r.2 t') (answered : Answered t cmds.length bs t') (received : r.2.rxbuf = rx ++ bs)
      (stock : r.2.Stocked k 1 c)
  | aborted {t' : State} (fault : r.1 = false)
      (sent : ∀ rest, sendUntil stopsAtAbort (cmds ++ rest) t = .next ((cleanup t').respond .transferAborted none))
      (alike : Alike r.2 t') (stock : r.2.Stocked 0 1 0)

theorem Followed.nil {s t : State} (h : Follows s t) {k c : Nat} (stock : s.Stocked k 1 c) :
    Followed s.rxbuf t [] (true, s) k c :=
  .completed rfl (fun _ => rfl) h (.refl t) (by simp) stock

/-- The first command, and then the others if it went through. -/
theorem Followed.cons {rx : List Byte} {t : State} {i : Instr} {is : List Instr} {r r' : Bool × State} {k c k' c' : Nat}
    (h : Followed rx t [i] r k c) (stop : r.1 = false → r'.1 = false ∧ Alike r'.2 r.2)
    (next : r.1 = true → r.2.Stocked k 1 c → ∀ t', Follows r.2 t' → Followed r.2.rxbuf t' is r' k' c') :
    Followed rx t (i :: is) r' k' c' := by
  cases h with
  | @completed t' bs ok sent follows answered received stock =>
    have first := fun rest => sent (is ++ rest)
    cases next ok stock t' follows with
    | @completed t'' bs' ok' sent' follows' answered' received' stock' =>
      refine .completed (bs := bs ++ bs') ok' (fun rest => (first rest).trans (sent' rest)) follows' ?_ ?_ stock'
      · rw [List.length_cons, Nat.add_comm]
        exact answered.trans answered'
      · rw [received', received, List.append_assoc]
    | aborted fault' sent' alike' stock' =>
      exact .aborted fault' (fun rest => (first rest).trans (sent' rest)) alike' stock'
  | aborted fault sent alike stock =>
    obtain ⟨fault', same⟩ := stop fault
    exact .aborted fault' (fun rest => sent (is ++ rest)) (same.with_hidden alike) (stock.alike same.symm)

/-- One byte of the session, whose transfer gives the read sequence and the host the same outcome. -/
theorem followed_byte {rx bs : List Byte} {t : State} {i : Instr} {x y : Bool × State} {p : Option Payload} {k c : Nat}
    (runs : exec i t = .next (if y.1 then y.2.respond .ok p else abortTransfer y.2)) (same : SameOutcome x y)
    (inSession : y.2.InSession) (order : y.2.order = .msbFirst) (silent : Silent t y.2)
    (returns : returnedBytes [{ status := statusWord .ok y.2, payload := p }] = bs)
    (received : x.2.rxbuf = rx ++ bs) (stock : x.2.Stocked k 1 c) : Followed rx t [i] x k c := by
  cases ok : x.1 with
  | true =>
    rw [same.value, ok, if_pos rfl] at runs
    refine .completed ok (sendUntil_goes_on runs (by simp [stopsAtAbort])) ⟨?_, inSession.respond _ _, order⟩
      (returns ▸ silent.answered .ok p) received stock
    exact same.state.with_hidden (onWire_respond _ _ _)
  | false =>
    rw [same.value, ok, if_neg (by simp), abortTransfer_of_session inSession.session_open] at runs
    exact .aborted ok (sendUntil_stops runs (by simp [stopsAtAbort])) same.state
      (stock.mono (by omega) (by omega) (by omega))

/-! ### Frame and data -/

theorem xferOut_keeps (v : Byte) (ord : BitOrder) (s : State) :
    (xferOut v ord s).2.rxbuf = s.rxbuf ∧ (xferOut v ord s).2.order = s.order ∧
      (s.InSession → (xferOut v ord s).2.InSession) := by
  obtain ⟨fault, es, dout, -, he⟩ := xferOut_moves v ord s
  rw [he]
  exact ⟨by simp, by simp, fun h => h.movedByte es _ _⟩

theorem xferIn_keeps (ord : BitOrder) (s : State) :
    (xferIn ord s).2.rxbuf = s.rxbuf ∧ (xferIn ord s).2.order = s.order ∧
      (s.InSession → (xferIn ord s).2.InSession) := by
  obtain ⟨fault, es, v, -, he⟩ := xferIn_moves ord s
  rw [he]
  exact ⟨by simp, by simp, fun h => h.movedByte es _ _⟩

theorem writeByte_followed {s t : State} (h : Follows s t) (v : Byte) {k c : Nat} (stock : s.Stocked k 1 (c + 1)) :
    Followed s.rxbuf t [.writeByte v] (xferOut v .msbFirst s) k c := by
  have runs := exec_writeByte_of_ready h.inSession.toReady v
  rw [h.order] at runs
  obtain ⟨same, stock'⟩ := xferOut_alike h.alike v .msbFirst stock
  obtain ⟨-, order, inSession⟩ := xferOut_keeps v .msbFirst t
  refine followed_byte (bs := []) runs same (inSession h.inSession) (order.trans h.order) (silent_xferOut _ _ _) rfl ?_
    stock'
  rw [(xferOut_keeps v .msbFirst s).1, List.append_nil]

/-- A received byte with its place in `RXBUF` (R193). -/
def bufferByte (got : Bool × State) : Bool × State := (got.1, { got.2 with rxbuf := got.2.rxbuf ++ [got.2.sr] })

theorem SameOutcome.buffered {x y : Bool × State} (h : SameOutcome x y) : SameOutcome (bufferByte x) y :=
  ⟨h.value, h.state⟩

theorem State.Stocked.buffered {x : Bool × State} {k w c : Nat} (h : x.2.Stocked k w c) :
    (bufferByte x).2.Stocked k w c := ⟨h.samples, h.acks, h.checks⟩

theorem readByte_followed {s t : State} (h : Follows s t) {k c : Nat} (stock : s.Stocked (k + 8) 1 (c + 1)) :
    Followed s.rxbuf t [.readByte] (bufferByte (xferIn .msbFirst s)) k c := by
  have runs := exec_readByte_of_ready h.inSession.toReady
  rw [h.order] at runs
  obtain ⟨same, stock'⟩ := xferIn_alike h.alike .msbFirst stock
  obtain ⟨-, order, inSession⟩ := xferIn_keeps .msbFirst t
  refine followed_byte (bs := [(xferIn .msbFirst s).2.sr]) runs same.buffered (inSession h.inSession)
    (order.trans h.order) (silent_xferIn _ _) ?_ ?_ stock'.buffered
  · rw [same.state.sr]
    rfl
  · rw [← (xferIn_keeps .msbFirst s).1, bufferByte]

theorem Follows.with_phase {s t : State} (h : Follows s t) (ph : FramePhase) : Follows { s with phase := ph } t :=
  ⟨h.alike, h.inSession, h.order⟩

theorem State.Stocked.with_phase {s : State} {k w c : Nat} (h : s.Stocked k w c) (ph : FramePhase) :
    State.Stocked { s with phase := ph } k w c := ⟨h.samples, h.acks, h.checks⟩

theorem Follows.emptied {s t : State} (h : Follows s t) : Follows { s with rxbuf := [] } t :=
  ⟨h.alike, h.inSession, h.order⟩

theorem State.Stocked.emptied {s : State} {k w c : Nat} (h : s.Stocked k w c) :
    State.Stocked { s with rxbuf := [] } k w c := ⟨h.samples, h.acks, h.checks⟩

theorem sendFrame_followed (A : Nat) (bytes : List Byte) {s t : State} (h : Follows s t) {k c : Nat}
    (stock : s.Stocked k 1 (c + bytes.length)) :
    Followed s.rxbuf t (bytes.map .writeByte) (sendFrame A bytes s) k c := by
  induction bytes generalizing s t with
  | nil => exact .nil h stock
  | cons b bytes ih =>
    have byte := writeByte_followed (h.with_phase (framePhaseOf A bytes.length)) b
      (stock.with_phase (framePhaseOf A bytes.length))
    refine byte.cons (fun fault => ?_) fun ok stock' t' follows => ?_
    · rw [sendFrame, fault]
      exact ⟨rfl, rfl⟩
    · rw [sendFrame, ok]
      exact ih follows stock'

theorem receiveBytes_followed (n i : Nat) {s t : State} (h : Follows s t) {k c : Nat}
    (stock : s.Stocked (k + 8 * n) 1 (c + n)) :
    Followed s.rxbuf t (List.replicate n .readByte) (receiveBytes n i s) k c := by
  induction n generalizing i s t with
  | zero => exact .nil h stock
  | succ n ih =>
    have byte := readByte_followed (k := k + 8 * n) (c := c + n) (h.with_phase (.data i)) (stock.with_phase (.data i))
    rw [receiveBytes]
    revert byte
    generalize xferIn .msbFirst { s with phase := .data i } = got
    intro byte
    refine byte.cons (fun fault => ?_) fun ok stock' t' follows => ?_
    · rw [show got.1 = false from fault]
      exact ⟨rfl, rfl⟩
    · rw [show got.1 = true from ok]
      exact ih (i + 1) follows stock'

theorem sendFrame_rxbuf (A : Nat) (bytes : List Byte) (s : State) : (sendFrame A bytes s).2.rxbuf = s.rxbuf := by
  induction bytes generalizing s with
  | nil => rfl
  | cons b bytes ih =>
    have byte := (xferOut_keeps b .msbFirst { s with phase := framePhaseOf A bytes.length }).1
    rw [sendFrame]
    split
    · exact (ih _).trans byte
    · exact byte

/-! ### The whole read sequence -/

/-- What the raw frame leaves in `u`, beside the result `r` of the read sequence: the same on the wire, the same code,
and for a whole read `count` responses that return its bytes. -/
structure SameEnd (s : State) (count : Nat) (r : FrameResult) (u : State) : Prop where
  alike : Alike r.after u
  code : u.lastCode = some r.code
  answered : r.code = .ok → Answered s count r.rx u

theorem sameEnd_of_failure {s t u : State} {count : Nat} {c : Code} {rx : List Byte} (h : Alike t u)
    (failed : c ≠ .ok) : SameEnd s count (endFrame c rx t) (u.respond c none) :=
  ⟨h.with_hidden (onWire_respond _ _ _), lastCode_respond _ _ _, fun ok => absurd ok failed⟩

/-- `read_frame` when the select write fails. -/
theorem readFrame_unselected {s s' : State} {d : Device} (h : doSelect d s = (false, s')) (a n : Nat) :
    readFrame d a n s = endFrame .selectFailure [] s' := by
  rw [readFrame, openSession, h]
  rfl

/-- The read sequence once its bytes are in. -/
def closeFrame (s : State) : FrameResult :=
  if (closeSession s).1 ≠ .ok then endFrame .selectFailure [] (closeSession s).2
  else endFrame .ok (closeSession s).2.rxbuf (closeSession s).2

/-- `read_frame` once the device is selected: the frame, the data and the close, up to the first fault. -/
theorem readFrame_selected {s s' : State} {d : Device} (h : doSelect d s = (true, s')) (a n : Nat)
    {sent got : Bool × State}
    (hs : sendFrame (s.cfg.desc d).addrBytes (frame s.cfg.toConfig d a) s' = sent)
    (hg : receiveBytes n 0 { sent.2 with rxbuf := [] } = got) :
    readFrame d a n s =
      if sent.1 then if got.1 then closeFrame got.2 else endFrame .transferAborted [] (cleanup got.2)
      else endFrame .transferAborted [] (cleanup sent.2) := by
  rw [readFrame, openSession, h]
  simp only [hs, hg, closeFrame]
  cases sent.1 <;> cases got.1 <;> rfl

/-- The host closes the session as the read sequence does. -/
theorem sameEnd_of_close {s₀ s t : State} {count : Nat} (h : Follows s t) (stock : s.Stocked 0 1 0)
    (answered : Answered s₀ count s.rxbuf t) :
    ∃ u, sendUntil stopsAtAbort [.sessionClose] t = .next u ∧ SameEnd s₀ (count + 1) (closeFrame s) u := by
  have runs := exec_sessionClose_of_inSession h.inSession
  have same : SameOutcome (doDeselect s) (doDeselect { t with session := false }) := doDeselect_alike h.alike stock
  obtain ⟨ok, hd⟩ := doDeselect_deselects s
  rw [same.value] at runs
  rw [hd] at runs same
  refine ⟨_, sendUntil_goes_on runs ?_ [], ?_⟩
  · rw [lastCode_respond]
    split <;> rfl
  · rw [closeFrame, closeSession, hd]
    cases ok with
    | false => exact sameEnd_of_failure (t := s.deselected false) same.state (by simp)
    | true =>
      refine ⟨same.state.with_hidden (onWire_respond _ _ _), lastCode_respond _ _ _, fun _ => ?_⟩
      have closed := answered.trans ((silent_cleanup t).answered .ok none)
      simpa [returnedBytes, endFrame] using closed

theorem frame_length (c : Config) (d : Device) (a : Nat) : (frame c d a).length = (c.desc d).addrBytes + 1 := by
  simp [frame]

/-- The session just opened, beside the read sequence that has selected its device. -/
theorem follows_opened {s : State} (ready : s.Ready) (order : s.order = .msbFirst) (d : Device) :
    Follows (s.selected d) (State.respond { s.selected d with session := true } .ok none) where
  alike := Alike.with_hidden (t := s.selected d) rfl (onWire_respond _ _ _)
  inSession := (ready.opened d).respond _ _
  order := by simp [order]

/-- The body of the raw frame and the close, beside the read sequence from its first byte on. -/
theorem rawFrame_followed {s₀ s t : State} (h : Follows s t) (opened : Answered s₀ 1 [] t) (d : Device) (a n : Nat)
    (stock : s.Stocked (8 * n) 1 (1 + (s.cfg.desc d).addrBytes + n)) {sent got : Bool × State}
    (hs : sendFrame (s.cfg.desc d).addrBytes (frame s.cfg.toConfig d a) s = sent)
    (hg : receiveBytes n 0 { sent.2 with rxbuf := [] } = got) :
    ∃ u, sendUntil stopsAtAbort (rawFrameBody s.cfg.toConfig d a n ++ [.sessionClose]) t = .next u ∧
      SameEnd s₀ (n + (s.cfg.desc d).addrBytes + 3)
        (if sent.1 then if got.1 then closeFrame got.2 else endFrame .transferAborted [] (cleanup got.2)
          else endFrame .transferAborted [] (cleanup sent.2)) u := by
  have frameStock : s.Stocked (8 * n) 1 (n + (frame s.cfg.toConfig d a).length) :=
    stock.mono le_rfl le_rfl (by rw [frame_length]; omega)
  have framed := sendFrame_followed (s.cfg.desc d).addrBytes (frame s.cfg.toConfig d a) h frameStock
  have kept := sendFrame_rxbuf (s.cfg.desc d).addrBytes (frame s.cfg.toConfig d a) s
  rw [hs] at framed kept
  rw [rawFrameBody, List.append_assoc]
  cases framed with
  | aborted fault sends alike stock =>
    rw [fault]
    exact ⟨_, sends _, sameEnd_of_failure (cleanup_alike alike stock) (by simp)⟩
  | @completed t₁ bs ok sends follows answered received stock =>
    rw [ok, sends]
    obtain rfl : bs = [] := by simpa [kept] using received
    have data := receiveBytes_followed n 0 (k := 0) (c := 0) follows.emptied
      (stock.emptied.mono (by omega) le_rfl (by omega))
    rw [hg] at data
    cases data with
    | aborted fault sends' alike stock' =>
      rw [fault]
      exact ⟨_, sends' _, sameEnd_of_failure (cleanup_alike alike stock') (by simp)⟩
    | @completed t₂ bs ok' sends' follows' answered' received' stock' =>
      rw [ok', sends']
      have total := (opened.trans answered).trans answered'
      obtain rfl : got.2.rxbuf = bs := received'
      obtain ⟨u, hu, same⟩ := sameEnd_of_close follows' stock' total
      have count : 1 + ((frame s.cfg.toConfig d a).map Instr.writeByte).length +
          (List.replicate n Instr.readByte).length + 1 = n + (s.cfg.desc d).addrBytes + 3 := by
        rw [List.length_map, frame_length, List.length_replicate]
        omega
      rw [count] at same
      exact ⟨u, hu, same⟩

/-- R91: the raw frame beside the read sequence, from a free engine. -/
theorem rawRead_followed {s : State} (free : s.Free) (order : s.order = .msbFirst) (d : Device) (a n : Nat)
    (stock : s.Stocked (8 * n) 2 (1 + (s.cfg.desc d).addrBytes + n)) :
    ∃ u, rawRead d a n s = .next u ∧
      SameEnd s (n + (s.cfg.desc d).addrBytes + 3) (readFrame d a n s) u := by
  have opens := exec_sessionOpen_of_free free d
  rcases doSelect_selects d s with hs | ⟨ok, hs⟩ <;> rw [hs] at opens
  · have selected : Silent s { s.selected d with session := true } := ((Silent.refl s).selected d).of_same rfl rfl
    have opened := selected.answered .ok none
    have cfg : (s.selected d).cfg = s.cfg := noteAll_cfg _ _
    rw [← cfg] at stock
    obtain ⟨u, hu, same⟩ :=
      rawFrame_followed (follows_opened free.toReady order d) opened d a n (stock.selected d) rfl rfl
    rw [cfg] at hu same
    rw [← readFrame_selected hs a n rfl rfl] at same
    exact ⟨u, (withDevice_of_opened opens (lastCode_respond _ _ _) _).trans hu, same⟩
  · rw [readFrame_unselected hs]
    exact ⟨_, withDevice_of_not_opened opens (by simp) _, sameEnd_of_failure rfl (by simp)⟩

theorem exec_read_of_free {s : State} (free : s.Free) {d : Device} {a n : Word}
    (ha : a.toNat < 2 ^ (8 * (s.cfg.desc d).addrBytes)) (hn : n.toNat ≤ s.cfg.maxLen) {r : FrameResult}
    (hr : readFrame d a.toNat n.toNat s = r) :
    exec (.read d a n) s = .next (r.after.respond r.code (if r.code = .ok then some (.bytes r.rx) else none)) := by
  refine congrArg Host.Outcome.next ((gated_of_pass (gate_of_ready free.toReady (by simp))).trans ?_)
  simp only [busClaimed_of_free free, readArgs_good ha hn, Bool.false_eq_true, if_false, hr]

theorem rawFrameBody_isBody (c : Config) (d : Device) (a n : Nat) :
    ∀ i ∈ rawFrameBody c d a n, isBodyCommand i = true := by
  intro i hi
  rcases List.mem_append.1 hi with hi | hi
  · obtain ⟨v, -, rfl⟩ := List.mem_map.1 hi
    rfl
  · rw [List.eq_of_mem_replicate hi]
    rfl

/-- Settles O37: the raw frame follows the read sequence, and both end with no session. -/
theorem readEqualsRawFrame : Obligations.ReadEqualsRawFrame := by
  intro d a n s free order ha hn hsamples hacks hchecks
  obtain ⟨u, hu, alike, code, answered⟩ := rawRead_followed free order d a.toNat n.toNat ⟨hsamples, hacks, hchecks⟩
  obtain ⟨es₀, run⟩ := readFrame_run s d a.toNat n.toNat
  have reads := exec_read_of_free free ha hn rfl
  revert alike code answered run reads
  generalize readFrame d a.toNat n.toNat s = r
  intro alike code answered run reads
  obtain ⟨v, hv, closed, -, fs, history, -⟩ :=
    withDevice_closes d free (rawFrameBody_isBody s.cfg.toConfig d a.toNat n.toNat)
  obtain rfl : v = u := Host.Outcome.next.inj (hv.symm.trans hu)
  generalize hp : (if r.code = .ok then some (Payload.bytes r.rx) else none) = p at reads
  have silent := run.ran.silent run.quiet
  obtain ⟨⟨es, grows, one⟩, -⟩ := silent.answered r.code p
  have same : Alike v (r.after.respond r.code p) := (onWire_respond _ _ _).trans alike.symm
  refine ⟨_, v, es, fs, reads, hu, grows, history, ?_, same.sck, same.dout, same.sr, same.bitcnt, same.order, same.bus,
    same.seldev, ?_, same.handle, same.halted, same.outShadow, same.samples, same.expAcks, same.pinFaults, ?_, ?_⟩
  · have events := same.history
    rw [grows, history, withoutResponses_append, withoutResponses_append] at events
    exact List.append_cancel_left events
  · exact (run.session free.no_session).trans closed.no_session.symm
  · rw [lastCode_respond, code]
  · intro ok
    rw [lastCode_respond, Option.some.injEq] at ok
    obtain ⟨⟨fs', history', count⟩, rs, responses, bytes⟩ := answered ok
    obtain rfl : fs' = fs := List.append_cancel_left (history'.symm.trans history)
    refine ⟨one, count, r.rx, { status := statusWord r.code r.after, payload := p }, ?_, ?_, ?_⟩
    · rw [respond_responses, silent.responses]
    · rw [← hp, if_pos ok]
    · rw [responses, List.drop_left, bytes]

end Sys2Proof.Machine
end

section
/-!
The byte commands and the bit order (spec/40_bit_engine.md R112 to R121). A scripted byte determines what `shift_in`
leaves, so that the shift registers, `WRITE_BYTE` and `READ_BYTE` are settled by the rules of a moved byte.
-/

namespace Sys2Proof.Machine

/-! ### A byte that the target's script holds -/

theorem answers_rxBits_of_samples {s : State} {ds : List Bool} (h : ds <+: s.samples) (cpol : Bool) :
    s.answers (rxBits cpol ds) = true := by
  induction ds generalizing s with
  | nil => rfl
  | cons d ds ih =>
    obtain ⟨later, hl⟩ := h
    rw [List.cons_append] at hl
    have next : d = (s.note (.pin .sck (!cpol))).sampleAnswer := by simp [State.sampleAnswer, State.note, ← hl]
    have rest : ds <+: s.samples.tail := ⟨later, by rw [← hl, List.tail_cons]⟩
    simp only [rxBits, List.flatMap_cons, List.cons_append, List.nil_append, answers_cons]
    exact ⟨rfl, beq_iff_eq.2 next, rfl, ih rest⟩

/-- `shift_in(ord)` when the samples give `v`. -/
theorem shiftIn_of_answers {v : Byte} {ord : BitOrder} {s : State}
    (h : s.answers (rxEvents s.cfg.cpol ord v) = true) :
    shiftIn ord s = { s.noteAll (rxEvents s.cfg.cpol ord v) with sr := v, sck := s.cfg.cpol, bitcnt := 0 } := by
  obtain ⟨w, hw, he⟩ := shiftIn_eq ord s
  rwa [answers_rxEvents_unique hw h] at he

theorem shiftIn_of_samples {v : Byte} {ord : BitOrder} {s : State} (h : bitSlots.map (wireBit ord v) <+: s.samples) :
    shiftIn ord s = { s.noteAll (rxEvents s.cfg.cpol ord v) with sr := v, sck := s.cfg.cpol, bitcnt := 0 } :=
  shiftIn_of_answers (by rw [rxEvents_eq_rxBits]; exact answers_rxBits_of_samples h _)

theorem countP_isSample_rxEvents (cpol : Bool) (ord : BitOrder) (v : Byte) :
    (rxEvents cpol ord v).countP isSample = 8 := rfl

/-- R119: bit `k` from the low end is bit `7 - k` from the low end of the reversed byte. -/
theorem wireBit_rev8 (v : Byte) (k : Fin 8) : wireBit .msbFirst (rev8 v) k = wireBit .lsbFirst v k := by
  simp only [wireBit, rev8, BitVec.getLsbD_reverse, BitVec.getMsbD]
  have place : 8 - 1 - (7 - k.val) = k.val := by omega
  simp [place, show 7 - k.val < 8 by omega]

/-- Settles O22: `shift_in` holds the byte that the samples give, and `shift_out` drives the bits of `txEvents`. -/
theorem shiftRegisterLaws : Obligations.ShiftRegisterLaws := by
  refine ⟨fun ord v s later h => ?_, fun ord v s => ⟨txEvents s.cfg.cpol ord v, ?_, rfl⟩, fun v => ?_, fun _ _ => rfl⟩
  · rw [shiftIn_of_samples ⟨later, h.symm⟩]
    refine ⟨rfl, ?_⟩
    rw [noteAll_eq, countP_isSample_rxEvents, h]
    rfl
  · rw [shiftOut_eq, noteAll_history]
  · exact List.map_congr_left fun k _ => (wireBit_rev8 v k).symm

/-- Settles O23: the events of a byte name the byte, the order and `CPOL` only, and a shift writes no other register. -/
theorem bitEngineIgnoresSelection : Obligations.BitEngineIgnoresSelection := by
  intro ord v s t cpol
  obtain ⟨w, -, received⟩ := shiftIn_eq ord s
  refine ⟨⟨txEvents s.cfg.cpol ord v, ?_, ?_⟩, ?_, ?_⟩
  · rw [shiftOut_eq, noteAll_history]
  · rw [shiftOut_eq, noteAll_history, cpol]
  · rintro _ rfl hs ht
    rw [shiftIn_of_samples hs, shiftIn_of_samples ht]
    exact ⟨rfl, rxEvents s.cfg.cpol ord v, noteAll_history _ _, by rw [noteAll_history, cpol]⟩
  · simp [shiftOut_eq, received]

/-! ### The byte commands -/

theorem busAfterByte_eq_ite (b : BusState) : busAfterByte b = if b = .selected then .transferring else b := by
  cases b <;> rfl

/-- The last bit on the wire (R112). -/
theorem wireBit_last (ord : BitOrder) (v : Byte) :
    wireBit ord v 7 = if ord = .msbFirst then v.getLsbD 0 else v.getLsbD 7 := by cases ord <;> rfl

theorem exec_writeByte_of_answers {v : Byte} {s : State} {fault : Bool} (ready : s.Ready)
    (h : s.answers (sentByte s.cfg.cpol s.order fault v) = true) :
    exec (.writeByte v) s = .next
      (if fault then abortTransfer (s.movedByte (sentByte s.cfg.cpol s.order fault v) 0#8 (wireBit s.order v 7))
        else (s.movedByte (sentByte s.cfg.cpol s.order fault v) 0#8 (wireBit s.order v 7)).respond .ok none) := by
  rw [exec_writeByte_of_ready ready, xferOut_of_answers h]
  cases fault <;> rfl

theorem exec_readByte_of_answers {v : Byte} {s : State} {fault : Bool} (ready : s.Ready)
    (h : s.answers (receivedByte s.cfg.cpol s.order fault v) = true) :
    exec .readByte s = .next
      (if fault then abortTransfer (s.movedByte (receivedByte s.cfg.cpol s.order fault v) v s.dout)
        else (s.movedByte (receivedByte s.cfg.cpol s.order fault v) v s.dout).respond .ok (some (.byte v))) := by
  rw [exec_readByte_of_ready ready, xferIn_movedByte_of_answers h]
  cases fault <;> rfl

/-- Settles O18: the byte sent, and the response. -/
theorem writeByteCompletes : Obligations.WriteByteCompletes := by
  intro v s ready h
  rw [exec_writeByte_of_answers ready h, ← busAfterByte_eq_ite, ← wireBit_last]
  rfl

/-- Settles O19: the byte received, and the response; the data line is as it was. -/
theorem readByteCompletes : Obligations.ReadByteCompletes := by
  intro v s ready h
  rw [exec_readByte_of_answers ready h, ← busAfterByte_eq_ite, noteAll_eq, State.movedByte, noteAll_eq]
  rfl

/-- R244 in a session: the cleanup deselects once and closes the session. -/
theorem abortTransfer_inside {s : State} {es : List Event} {ok : Bool} (running : s.halted = false)
    (inside : s.session = true) (h : s.answers (es ++ [deselectWrite s.cfg.toConfig ok]) = true) (sr : Byte)
    (dout : Bool) :
    abortTransfer (s.movedByte es sr dout) = State.respond
      { s.noteAll (es ++ [deselectWrite s.cfg.toConfig ok]) with
        sr := sr, dout := dout, sck := s.cfg.cpol, bitcnt := 0
        session := false, bus := .idle, seldev := none, halted := !ok
        outShadow := if ok = true then some (selValue s.cfg.toConfig none) else none }
      .transferAborted none := by
  have cfg : (s.movedByte es sr dout).cfg = s.cfg := noteAll_cfg s es
  have written : (s.movedByte es sr dout).answers [deselectWrite (s.movedByte es sr dout).cfg.toConfig ok] = true := by
    rw [cfg]
    exact answers_after h rfl
  rw [abortTransfer_of_session (by simpa using inside), cleanup_of_answers written, cfg, noteAll_append]
  simp [noteAll_eq, running]

/-- R244 outside a session: the response alone. -/
theorem abortTransfer_outside {s : State} (outside : s.session = false) :
    abortTransfer s = s.respond .transferAborted none := by simp [abortTransfer, outside]

/-- Settles O20: the byte moved, then the cleanup of a session, if there is one. -/
theorem rawByteAborts : Obligations.RawByteAborts := by
  intro v s ok ready
  refine ⟨fun inside => ⟨fun h => ?_, fun h => ?_⟩, fun outside => ⟨fun h => ?_, fun h => ?_⟩⟩
  · rw [exec_writeByte_of_answers ready (answers_before h), if_pos rfl, abortTransfer_inside ready.running inside h]
  · rw [exec_readByte_of_answers ready (answers_before h), if_pos rfl, abortTransfer_inside ready.running inside h,
      noteAll_eq]
  · rw [exec_writeByte_of_answers ready h, if_pos rfl, abortTransfer_outside (by simpa using outside)]
    rfl
  · rw [exec_readByte_of_answers ready h, if_pos rfl, abortTransfer_outside (by simpa using outside),
      State.movedByte, noteAll_eq]

/-- Settles O21: the gate lets `SET_BIT_ORDER` pass with every handle (R243). -/
theorem setBitOrderCompletes : Obligations.SetBitOrderCompletes := by
  refine fun o s => ⟨fun running => ?_, fun halted => exec_of_reject (by simp [gate, halted])⟩
  have pass : gate .setBitOrder s = none := by simp [gate, running]
  exact congrArg Host.Outcome.next (gated_of_pass pass)

end Sys2Proof.Machine
end

section
/-!
Events counted: the drives of the two lines, the samples and the pin checks of a read sequence
(spec/43_read_protocol.md R196), and the least times that the drives make (spec/40_bit_engine.md R111, R286).
-/

namespace Sys2Proof.Machine

/-! ### Counting the events of a trace -/

/-- How many drives of `SCK`, drives of `DOUT`, samples and pin checks a trace holds. -/
structure Counts (es : List Event) (clocks data samples checks : Nat) : Prop where
  clocks : es.countP isSck = clocks
  data : es.countP isDout = data
  samples : es.countP isSample = samples
  checks : es.countP isPinCheck = checks

theorem Counts.append {es fs : List Event} {k d n c k' d' n' c' : Nat} (h : Counts es k d n c)
    (h' : Counts fs k' d' n' c') : Counts (es ++ fs) (k + k') (d + d') (n + n') (c + c') where
  clocks := by rw [List.countP_append, h.clocks, h'.clocks]
  data := by rw [List.countP_append, h.data, h'.data]
  samples := by rw [List.countP_append, h.samples, h'.samples]
  checks := by rw [List.countP_append, h.checks, h'.checks]

/-- Bytes that count alike. -/
theorem Counts.flatMap {f : Byte → List Event} {k d n c : Nat} (h : ∀ b, Counts (f b) k d n c) (bytes : List Byte) :
    Counts (bytes.flatMap f) (k * bytes.length) (d * bytes.length) (n * bytes.length) (c * bytes.length) := by
  induction bytes with
  | nil => exact ⟨rfl, rfl, rfl, rfl⟩
  | cons b bytes ih =>
    have both := (h b).append ih
    refine ⟨both.clocks.trans ?_, both.data.trans ?_, both.samples.trans ?_, both.checks.trans ?_⟩ <;>
      rw [List.length_cons, Nat.mul_succ, Nat.add_comm]

theorem counts_expW (a : RegAddr) (v : RegValue) (ok : Bool) : Counts [.expW a v ok] 0 0 0 0 := ⟨rfl, rfl, rfl, rfl⟩

theorem counts_resp (c : Code) : Counts [.resp c] 0 0 0 0 := ⟨rfl, rfl, rfl, rfl⟩

theorem counts_sentByte (cpol : Bool) (ord : BitOrder) (fault : Bool) (v : Byte) :
    Counts (sentByte cpol ord fault v) 16 8 0 1 := ⟨rfl, rfl, rfl, rfl⟩

theorem counts_receivedByte (cpol : Bool) (ord : BitOrder) (fault : Bool) (v : Byte) :
    Counts (receivedByte cpol ord fault v) 16 0 8 1 := ⟨rfl, rfl, rfl, rfl⟩

theorem counts_readEvents (c : Config) (d : Device) (a : Nat) (rx : List Byte) :
    Counts (readEvents c d a rx) (16 * (1 + (c.desc d).addrBytes + rx.length)) (8 * (1 + (c.desc d).addrBytes))
      (8 * rx.length) (1 + (c.desc d).addrBytes + rx.length) := by
  have frame : Counts (frameEvents c (frame c d a)) _ _ _ _ := .flatMap (counts_sentByte c.cpol .msbFirst false) _
  have data : Counts (dataEvents c rx) _ _ _ _ := .flatMap (counts_receivedByte c.cpol .msbFirst false) _
  have whole := (counts_expW c.expOutReg (selValue c (some d)) true).append
    ((frame.append data).append (counts_expW c.expOutReg (selValue c none) true))
  rw [frame_length] at whole
  refine ⟨whole.clocks.trans ?_, whole.data.trans ?_, whole.samples.trans ?_, whole.checks.trans ?_⟩ <;> omega

/-- A trace of a `READ` that responds `OK` (R193). -/
theorem read_ok_history {d : Device} {a n : Word} {s t : State} (h : exec (.read d a n) s = .next t)
    (ok : t.lastCode = some .ok) :
    ∃ rx, rx.length = n.toNat ∧ t.history = s.history ++ (readEvents s.cfg.toConfig d a.toNat rx ++ [.resp .ok]) := by
  obtain ⟨c, p, u, run, rfl⟩ := exec_inversion h
  obtain rfl : c = .ok := by simpa using ok
  generalize hc : Code.ok = c at run
  cases run with
  | rejected failed => exact absurd hc.symm failed
  | byteAborted => cases hc
  | sessionAborted => cases hc
  | selectFailed => cases hc
  | @readRun es _ _ _ r _ run =>
    obtain ⟨full, rfl⟩ := run.all hc.symm
    exact ⟨r.rx, full, by rw [respond_history, run.ran.history, List.append_assoc]⟩

theorem counts_read_ok {d : Device} {a n : Word} {s t : State} (h : exec (.read d a n) s = .next t)
    (ok : t.lastCode = some .ok) :
    ∃ es, t.history = s.history ++ es ∧
      Counts es (16 * (1 + (s.cfg.desc d).addrBytes + n.toNat)) (8 * (1 + (s.cfg.desc d).addrBytes)) (8 * n.toNat)
        (1 + (s.cfg.desc d).addrBytes + n.toNat) := by
  obtain ⟨rx, full, history⟩ := read_ok_history h ok
  exact ⟨_, history, full ▸ (counts_readEvents s.cfg.toConfig d a.toNat rx).append (counts_resp .ok)⟩

/-- Settles O36: the counts of one byte, taken over the frame and the data. -/
theorem readEventCounts : Obligations.ReadEventCounts := by
  rintro d a n s t _ h ok rfl
  obtain ⟨es, history, clocks, data, samples, checks⟩ := counts_read_ok h ok
  exact ⟨es, history, clocks, data, samples, checks⟩

/-! ### Drives of the lines along a run -/

/-- Whether an event drives a line, and so takes one `T_HALF` (R111). -/
def isDrive (e : Event) : Bool := isSck e || isDout e

/-- No drive drives both lines. -/
theorem Counts.drives {es : List Event} {k d n c : Nat} (h : Counts es k d n c) : es.countP isDrive = k + d := by
  rw [← h.clocks, ← h.data]
  clear h
  induction es with
  | nil => rfl
  | cons e es ih =>
    rw [List.countP_cons, List.countP_cons, List.countP_cons, ih]
    rcases e with ⟨_ | _, _⟩ | _ | _ | _ | _ | _ | _ <;> simp [isDrive, isSck, isDout] <;> omega

/-- The state `t` has come from `s`, and `k` of the events on the way drove a line. -/
def Drove (s : State) (k : Nat) (t : State) : Prop := ∃ es, t.history = s.history ++ es ∧ es.countP isDrive = k

theorem Drove.trans {s t u : State} {k m : Nat} (h : Drove s k t) (h' : Drove t m u) : Drove s (k + m) u := by
  obtain ⟨es, hes, hk⟩ := h
  obtain ⟨fs, hfs, hm⟩ := h'
  exact ⟨es ++ fs, by rw [hfs, hes, List.append_assoc], by rw [List.countP_append, hk, hm]⟩

/-- The registers may change freely. -/
theorem Drove.with_registers {s t u : State} {k : Nat} (h : Drove s k t) (hh : u.history = t.history) : Drove s k u := by
  rwa [Drove, hh]

theorem drove_noteAll (s : State) (es : List Event) : Drove s (es.countP isDrive) (s.noteAll es) :=
  ⟨es, noteAll_history s es, rfl⟩

theorem Drove.respond {s t : State} {k : Nat} (h : Drove s k t) (c : Code) (p : Option Payload) :
    Drove s k (t.respond c p) := h.trans (m := 0) ⟨[.resp c], rfl, rfl⟩

/-- The lifecycle commands end with another handle and a response. -/
theorem Drove.respond_with_handle {s t : State} {k : Nat} (h : Drove s k t) (x : Handle) (c : Code)
    (p : Option Payload) : Drove s k (State.respond { t with handle := x } c p) :=
  Drove.respond (t := { t with handle := x }) (h.with_registers rfl) c p

/-- R286: the least time of a run is the count of its drives, in the unit of `T_HALF`. -/
theorem Drove.leastTime {s t : State} {k : Nat} (h : Drove s k t) {es : List Event}
    (history : t.history = s.history ++ es) (c : Config) : leastTime c es = k * c.tHalf := by
  obtain ⟨fs, hfs, hk⟩ := h
  obtain rfl : fs = es := List.append_cancel_left (hfs.symm.trans history)
  rw [Machine.leastTime, Nat.mul_comm]
  exact congrArg (· * c.tHalf) hk

/-! ### The procedures of the expander drive nothing -/

theorem drove_doDeselect (s : State) : Drove s 0 (doDeselect s).2 := by
  obtain ⟨ok, h⟩ := doDeselect_deselects s
  rw [h]
  exact (drove_noteAll s [deselectWrite s.cfg.toConfig ok]).with_registers rfl

theorem drove_validate (s : State) : Drove s 0 (validate s).2 := by
  rcases scratchWrite_answered s with h | ⟨r, h⟩
  · rw [validate_of_failed h]
    exact drove_noteAll s _
  · rw [validate_of_read h]
    exact drove_noteAll s _

theorem drove_setupWrites (ws : List (RegAddr × RegValue)) (s : State) : Drove s 0 (setupWrites ws s).2 := by
  induction ws generalizing s with
  | nil => exact drove_noteAll s []
  | cons w ws ih =>
    have written : Drove s 0 (s.expWrite w.1 w.2).2 := drove_noteAll s [.expW w.1 w.2 _]
    rw [setupWrites]
    split
    · exact written.trans (ih _)
    · exact written

theorem drove_abortTransfer (s : State) : Drove s 0 (abortTransfer s) := by
  refine Drove.respond ?_ _ _
  split
  · exact drove_doDeselect { s with session := false }
  · exact drove_noteAll s []

/-! ### The commands that drive the lines -/

theorem drove_writeByte {v : Byte} {s t : State} (ready : s.Ready) (h : exec (.writeByte v) s = .next t) :
    Drove s 24 t := by
  obtain ⟨fault, -, he⟩ := xferOut_eq v s.order s
  have sent : Drove s 24 (xferOut v s.order s).2 := by
    rw [he]
    exact ⟨_, noteAll_history _ _, (counts_sentByte s.cfg.cpol s.order fault v).drives⟩
  obtain rfl := Host.Outcome.next.inj ((exec_writeByte_of_ready ready v).symm.trans h)
  split
  · exact sent.respond _ _
  · exact sent.trans (drove_abortTransfer _)

theorem drove_readByte {s t : State} (ready : s.Ready) (h : exec .readByte s = .next t) : Drove s 16 t := by
  obtain ⟨fault, v, -, he⟩ := xferIn_eq s.order s
  have received : Drove s 16 (xferIn s.order s).2 := by
    rw [he]
    exact ⟨_, noteAll_history _ _, (counts_receivedByte s.cfg.cpol s.order fault v).drives⟩
  obtain rfl := Host.Outcome.next.inj ((exec_readByte_of_ready ready).symm.trans h)
  split
  · exact received.respond _ _
  · exact received.trans (drove_abortTransfer _)

theorem drove_read {d : Device} {a n : Word} {s t : State} (h : exec (.read d a n) s = .next t)
    (ok : t.lastCode = some .ok) : Drove s (24 * (1 + (s.cfg.desc d).addrBytes) + 16 * n.toNat) t := by
  obtain ⟨es, history, counts⟩ := counts_read_ok h ok
  exact ⟨es, history, counts.drives.trans (by omega)⟩

/-- A command that responds `OK` has passed the gate. -/
theorem gate_pass_of_ok {g : GateCase} {s : State} {body : State → State}
    (ok : (gated g s body).lastCode = some .ok) : gate g s = none := by
  cases hg : gate g s with
  | none => rfl
  | some c =>
    rw [gated_of_reject hg, lastCode_respond, Option.some.injEq] at ok
    simpa [hg, ok] using gate_cases g s

theorem drove_idlePins (s : State) : Drove s 2 (idlePins s) :=
  (drove_noteAll s [.pin .sck s.cfg.cpol, .pin .dout false]).with_registers rfl

/-- R220: the pins go idle once, whatever the expander answers. -/
theorem drove_init {s t : State} (h : exec .init s = .next t) (ok : t.lastCode = some .ok) : Drove s 2 t := by
  obtain rfl := Host.Outcome.next.inj h
  rw [gated_of_pass (gate_pass_of_ok ok)]
  have setUp := (drove_idlePins s).trans (drove_setupWrites s.cfg.initWrites (idlePins s))
  have off := setUp.trans (drove_doDeselect _)
  have checked := off.trans (drove_validate _)
  dsimp only
  split
  · exact setUp.respond_with_handle _ _ _
  · split
    · exact off.respond_with_handle _ _ _
    · split
      · exact checked.respond_with_handle _ _ _
      · exact checked.respond_with_handle _ _ _

/-- R225: the pins go idle unless a session is open. -/
theorem drove_release {s t : State} (h : exec .release s = .next t) (ok : t.lastCode = some .ok) : Drove s 2 t := by
  obtain rfl := Host.Outcome.next.inj h
  have pass := gate_pass_of_ok ok
  rw [gated_of_pass pass] at ok ⊢
  have off : Drove s 0 (if s.handle = .valid then doDeselect s else (true, s)).2 := by
    split
    · exact drove_doDeselect s
    · exact drove_noteAll s []
  dsimp only at ok ⊢
  split at ok
  · simp at ok
  next outside =>
    rw [if_neg outside]
    exact (off.trans (drove_idlePins _)).respond_with_handle _ _ _

/-- Settles O55: the drives of each command, each held for one `T_HALF`. -/
theorem leastTimes : Obligations.LeastTimes := by
  intro i s t h
  obtain ⟨c, p, u, run, rfl⟩ := exec_inversion h
  obtain ⟨⟨es, -, grows⟩, -⟩ := run.silent
  have history : (u.respond c p).history = s.history ++ (es ++ [.resp c]) := by
    rw [respond_history, grows, List.append_assoc]
  refine ⟨_, history, ?_, ?_, ?_, ?_⟩
  · rintro ready ⟨v, rfl⟩
    exact (drove_writeByte ready h).leastTime history _
  · rintro ready rfl
    exact (drove_readByte ready h).leastTime history _
  · rintro d a n rfl ok
    exact (drove_read h ok).leastTime history _
  · rintro (rfl | rfl) ok
    · exact (drove_init h ok).leastTime history _
    · exact (drove_release h ok).leastTime history _

end Sys2Proof.Machine
end

section
/-!
The halt (spec/60_exceptions.md R247) and the closing of selections (spec/42_session.md R174). One relation,
`Accounted`, says what every operation of the model keeps: the engine halts exactly with a failed deselect write, and no
selecting write follows another. It holds of every procedure and command, and both statements of this part follow from
it.
-/

namespace Sys2Proof.Machine

/-! ### Lists of writes of the output register -/

/-- Of two neighbouring writes one deselects. -/
def Alternates (c : Config) (vs : List RegValue) : Prop :=
  vs.IsChain fun v w => v = selValue c none ∨ w = selValue c none

/-- Of two neighbouring writes one deselects, and so does the last, if there is one. -/
structure Closing (c : Config) (vs : List RegValue) : Prop where
  alternates : Alternates c vs
  last : ∀ v ∈ vs.getLast?, v = selValue c none

theorem selectionsAreClosed_iff (s : State) :
    s.SelectionsAreClosed ↔
      Alternates s.cfg.toConfig (outWrites s.cfg.toConfig s.history) ∧
        (s.bus = .idle → Closing s.cfg.toConfig (outWrites s.cfg.toConfig s.history)) :=
  ⟨fun ⟨chain, last⟩ => ⟨chain, fun idle => ⟨chain, last idle⟩⟩,
    fun ⟨chain, closing⟩ => ⟨chain, fun idle => (closing idle).last⟩⟩

section Lists

variable {c : Config} {vs ws : List RegValue}

theorem closing_nil : Closing c [] := ⟨.nil, by simp⟩

/-- Anything may follow a deselecting write. -/
theorem Closing.alternates_append (h : Closing c vs) (k : Alternates c ws) : Alternates c (vs ++ ws) :=
  List.isChain_append.2 ⟨h.alternates, k, fun v hv _ _ => .inl (h.last v hv)⟩

theorem Closing.append (h : Closing c vs) (k : Closing c ws) : Closing c (vs ++ ws) where
  alternates := h.alternates_append k.alternates
  last v hv := by
    rw [List.getLast?_append, Option.mem_def, Option.or_eq_some_iff] at hv
    exact hv.elim (k.last v) fun ⟨_, hv⟩ => h.last v hv

/-- A deselecting write may follow anything. -/
theorem Alternates.deselect (h : Alternates c vs) : Closing c (vs ++ [selValue c none]) where
  alternates := List.isChain_append.2 ⟨h, .singleton _, fun _ _ w hw => .inr (by simpa using hw.symm)⟩
  last v hv := by simpa using hv.symm

/-- The pair of writes that a read sequence makes (R193), as often as it is made. -/
theorem closing_pairs (d : Device) (k : Nat) :
    Closing c (List.replicate k [selValue c (some d), selValue c none]).flatten := by
  induction k with
  | zero => exact closing_nil
  | succ k ih =>
    rw [List.replicate_succ, List.flatten_cons]
    exact (Alternates.deselect (vs := [_]) (.singleton _)).append ih

end Lists

/-! ### What every operation keeps -/

/-- The state `t` has come from `s`, and has halted on the way exactly if a deselect write failed. -/
structure HaltsByDeselect (s t : State) : Prop where
  cfg : t.cfg = s.cfg
  halts : ∃ es, t.history = s.history ++ es ∧
    (t.halted = true ↔ s.halted = true ∨ deselectWrite s.cfg.toConfig false ∈ es)

/-- The halt is accounted for, and the selections stay closed. -/
structure Accounted (s t : State) : Prop extends HaltsByDeselect s t where
  closed : s.SelectionsAreClosed → t.SelectionsAreClosed

section Relations

variable {s t u : State} {vs : List RegValue}

theorem HaltsByDeselect.trans (h : HaltsByDeselect s t) (k : HaltsByDeselect t u) : HaltsByDeselect s u := by
  obtain ⟨hc, es, hh, hi⟩ := h
  obtain ⟨kc, fs, kh, ki⟩ := k
  refine ⟨kc.trans hc, es ++ fs, by rw [kh, hh, List.append_assoc], ?_⟩
  rw [ki, hi, hc, List.mem_append, or_assoc]

theorem Accounted.trans (h : Accounted s t) (k : Accounted t u) : Accounted s u :=
  ⟨h.toHaltsByDeselect.trans k.toHaltsByDeselect, k.closed ∘ h.closed⟩

theorem Wrote.outWrites_eq (h : Wrote s vs t) :
    outWrites t.cfg.toConfig t.history = outWrites s.cfg.toConfig s.history ++ vs := by
  obtain ⟨hc, es, hh, hw⟩ := h
  rw [hc, hh, outWrites_append, hw]

theorem selValue_mem_outWrites {c : Config} {ok : Bool} {es : List Event} (h : deselectWrite c ok ∈ es) :
    selValue c none ∈ outWrites c es :=
  List.mem_filterMap.2 ⟨_, h, by simp [deselectWrite]⟩

/-- With no deselect write there is no halt. -/
theorem Wrote.haltsByDeselect (h : Wrote s vs t) (noDeselect : selValue s.cfg.toConfig none ∉ vs)
    (kept : t.halted = s.halted) : HaltsByDeselect s t := by
  obtain ⟨hc, es, hh, rfl⟩ := h
  exact ⟨hc, es, hh, by rw [kept, or_iff_left fun hm => noDeselect (selValue_mem_outWrites hm)]⟩

/-- From an Idle bus, writes that close keep the selections closed, whatever the bus is then. -/
theorem Wrote.closed (h : Wrote s vs t) (idle : s.bus = .idle) (closing : Closing s.cfg.toConfig vs)
    (hs : s.SelectionsAreClosed) : t.SelectionsAreClosed := by
  have whole := (((selectionsAreClosed_iff s).1 hs).2 idle).append closing
  rw [selectionsAreClosed_iff, h.outWrites_eq, h.cfg]
  exact ⟨whole.alternates, fun _ => whole⟩

/-- A run that writes no selection, does not halt and does not make the bus Idle. -/
theorem Wrote.accounted (h : Wrote s [] t) (halted : t.halted = s.halted) (bus : t.bus = .idle → s.bus = .idle) :
    Accounted s t where
  __ := h.haltsByDeselect (by simp) halted
  closed hs := by
    obtain ⟨chain, closing⟩ := (selectionsAreClosed_iff s).1 hs
    rw [selectionsAreClosed_iff, h.outWrites_eq, h.cfg, List.append_nil]
    exact ⟨chain, closing ∘ bus⟩

/-- The registers but `HALTED` and `BUS` may change freely. -/
theorem accounted_of_registers (cfg : t.cfg = s.cfg) (history : t.history = s.history) (halted : t.halted = s.halted)
    (bus : t.bus = s.bus) : Accounted s t :=
  (wrote_of_history (es := []) cfg (by rw [history, List.append_nil])).accounted halted (bus ▸ id)

theorem Accounted.refl (s : State) : Accounted s s := accounted_of_registers rfl rfl rfl rfl

theorem Accounted.with_registers (h : Accounted s t) (cfg : u.cfg = t.cfg) (history : u.history = t.history)
    (halted : u.halted = t.halted) (bus : u.bus = t.bus) : Accounted s u :=
  h.trans (accounted_of_registers cfg history halted bus)

theorem Accounted.respond (h : Accounted s t) (c : Code) (p : Option Payload) : Accounted s (t.respond c p) :=
  have answered : Wrote t [] (t.respond c p) := wrote_of_history (es := [.resp c]) rfl rfl
  h.trans (answered.accounted rfl id)

/-- A lifecycle command ends with another handle and a response. -/
theorem Accounted.respond_with_handle (h : Accounted s t) (x : Handle) (c : Code) (p : Option Payload) :
    Accounted s (State.respond { t with handle := x } c p) :=
  (h.with_registers (u := { t with handle := x }) rfl rfl rfl rfl).respond c p

end Relations

/-! ### The procedures -/

theorem haltsByDeselect_deselected (s : State) (ok : Bool) : HaltsByDeselect s (s.deselected ok) := by
  refine ⟨by simp, [deselectWrite s.cfg.toConfig ok], by simp, ?_⟩
  cases ok <;> simp [deselectWrite]

/-- R145: a deselect attempt closes whatever was selected. -/
theorem accounted_doDeselect (s : State) : Accounted s (doDeselect s).2 := by
  obtain ⟨ok, h⟩ := doDeselect_deselects s
  rw [h]
  refine ⟨haltsByDeselect_deselected s ok, fun hs => ?_⟩
  have wrote := wrote_deselected s ok
  have whole := ((selectionsAreClosed_iff s).1 hs).1.deselect
  rw [selectionsAreClosed_iff, wrote.outWrites_eq, wrote.cfg]
  exact ⟨whole.alternates, fun _ => whole⟩

/-- R143 from an Idle bus: a select that succeeds leaves the bus busy, one that fails is closed at once. -/
theorem accounted_doSelect (d : Device) {s : State} (idle : s.bus = .idle) : Accounted s (doSelect d s).2 := by
  have alone : ∀ ok, HaltsByDeselect s (s.noteAll [selectWrite s.cfg.toConfig d ok]) := fun ok =>
    (wrote_selectWrite s d ok).haltsByDeselect
      (by simpa using (selValue_some_ne_none s.cfg d).symm) (noteAll_halted _ _)
  rcases doSelect_selects d s with h | ⟨ok, h⟩ <;> rw [h]
  · have wrote : Wrote s _ (s.selected d) := (wrote_selectWrite s d true).with_registers rfl rfl
    refine ⟨⟨(alone true).cfg, (alone true).halts⟩, fun hs => ?_⟩
    have before := ((selectionsAreClosed_iff s).1 hs).2 idle
    rw [selectionsAreClosed_iff, wrote.outWrites_eq, wrote.cfg]
    exact ⟨before.alternates_append (.singleton _), fun busy => by simp at busy⟩
  · refine ⟨(alone false).trans (haltsByDeselect_deselected _ ok), ?_⟩
    have wrote := (wrote_selectWrite s d false).trans (wrote_deselected _ ok)
    rw [noteAll_cfg] at wrote
    exact wrote.closed idle (Alternates.deselect (vs := [_]) (.singleton _))

theorem accounted_cleanup (s : State) : Accounted s (cleanup s) :=
  Accounted.trans (t := { s with session := false }) (accounted_of_registers rfl rfl rfl rfl) (accounted_doDeselect _)

theorem accounted_abortTransfer (s : State) : Accounted s (abortTransfer s) := by
  refine Accounted.respond ?_ _ _
  split
  · exact accounted_cleanup s
  · exact .refl s

theorem accounted_validate (s : State) : Accounted s (validate s).2 := by
  obtain ⟨ok, es, he, wrote⟩ := validate_wrote s
  rw [he]
  exact wrote.accounted (noteAll_halted _ _) (by simp)

/-- R114: a byte never makes a busy bus Idle. -/
theorem accounted_movedByte {s : State} {es : List Event} {sr : Byte} {dout : Bool}
    (wrote : Wrote s [] (s.movedByte es sr dout)) : Accounted s (s.movedByte es sr dout) :=
  wrote.accounted (by simp) (by simp [busAfterByte_eq_idle])

theorem accounted_xferOut (v : Byte) (ord : BitOrder) (s : State) : Accounted s (xferOut v ord s).2 := by
  obtain ⟨fault, es, dout, he, wrote⟩ := xferOut_wrote v ord s
  rw [he]
  exact accounted_movedByte wrote

theorem accounted_xferIn (ord : BitOrder) (s : State) : Accounted s (xferIn ord s).2 := by
  obtain ⟨fault, es, v, he, wrote⟩ := xferIn_wrote ord s
  rw [he]
  exact accounted_movedByte wrote

theorem accounted_idlePins (s : State) : Accounted s (idlePins s) :=
  Wrote.accounted (wrote_of_history (es := [.pin .sck s.cfg.cpol, .pin .dout false]) rfl (by simp [idlePins])) rfl id

/-- R220. `INIT_WRITES` holds no write of the output register (R11). -/
theorem accounted_setupWrites (ws : List (RegAddr × RegValue)) (s : State) (apart : ∀ w ∈ ws, w.1 ≠ s.cfg.expOutReg) :
    Accounted s (setupWrites ws s).2 := by
  induction ws generalizing s with
  | nil => exact .refl s
  | cons w ws ih =>
    obtain ⟨hw, hws⟩ := List.forall_mem_cons.1 apart
    have written : Accounted s (s.expWrite w.1 w.2).2 :=
      Wrote.accounted ⟨rfl, _, rfl, by simp [outWrites, hw]⟩ rfl id
    rw [setupWrites]
    split
    · exact written.trans (ih _ hws)
    · exact written

/-- R193: one pair of writes, and the halt that the second may cause. -/
theorem accounted_readFrame (d : Device) (a n : Nat) {s : State} (idle : s.bus = .idle) :
    Accounted s (readFrame d a n s).after := by
  obtain ⟨es, run⟩ := readFrame_run s d a n
  have wrote := wrote_of_history run.ran.cfg run.ran.history
  refine ⟨⟨run.ran.cfg, es, run.ran.history, run.halts⟩, wrote.closed idle ?_⟩
  rw [run.writes]
  exact closing_pairs d 1

/-- R200: one pair for each chunk. -/
theorem accounted_dumpLoop (d : Device) (chunks : List Chunk) {s : State} (idle : s.bus = .idle) :
    Accounted s (dumpLoop d chunks s).2 := by
  obtain ⟨es, run⟩ := dumpLoop_run d chunks s
  have wrote := wrote_of_history run.ran.cfg run.ran.history
  refine ⟨⟨run.ran.cfg, es, run.ran.history, run.halts⟩, wrote.closed idle ?_⟩
  rw [run.writes]
  exact closing_pairs d _

/-! ### The commands -/

/-- A command behind the gate: a rejection is a response, and a body that passes answers for itself. -/
theorem accounted_gated {g : GateCase} {s : State} {body : State → State} (h : Accounted s (body s)) :
    Accounted s (gated g s body) := by
  cases hg : gate g s with
  | some code => rw [gated_of_reject hg]; exact (Accounted.refl s).respond code none
  | none => rwa [gated_of_pass hg]

theorem bus_idle_of_not_claimed {s : State} (h : ¬ s.busClaimed = true) : s.bus = .idle :=
  (not_busClaimed (Bool.eq_false_of_not_eq_true h)).2

theorem execInit_accounted (s : State) : ∃ t, execInit s = .next t ∧ Accounted s t := by
  obtain ⟨-, -, -, -, -, -, apart, -⟩ := AdmittedConfig_facts s.cfg
  have setUp := (accounted_idlePins s).trans (accounted_setupWrites s.cfg.initWrites _ apart)
  have off := setUp.trans (accounted_doDeselect _)
  have checked := off.trans (accounted_validate _)
  refine ⟨_, rfl, accounted_gated ?_⟩
  dsimp only
  split
  · exact setUp.respond_with_handle _ _ _
  · split
    · exact off.respond_with_handle _ _ _
    · split
      · exact checked.respond_with_handle _ _ _
      · exact checked.respond_with_handle _ _ _

theorem execValidateConfig_accounted (s : State) : ∃ t, execValidateConfig s = .next t ∧ Accounted s t := by
  refine ⟨_, rfl, accounted_gated ?_⟩
  dsimp only
  split
  · exact (Accounted.refl s).respond _ _
  · split
    · exact (accounted_validate s).respond _ _
    · exact (accounted_validate s).respond_with_handle _ _ _

theorem execRelease_accounted (s : State) : ∃ t, execRelease s = .next t ∧ Accounted s t := by
  have off : Accounted s (if s.handle = .valid then doDeselect s else (true, s)).2 := by
    split
    · exact accounted_doDeselect s
    · exact .refl s
  refine ⟨_, rfl, accounted_gated ?_⟩
  dsimp only
  split
  · exact (Accounted.refl s).respond _ _
  · exact (off.trans (accounted_idlePins _)).respond_with_handle _ _ _

theorem execWriteByte_accounted (v : Byte) (s : State) : ∃ t, execWriteByte v s = .next t ∧ Accounted s t := by
  have sent := accounted_xferOut v s.order s
  refine ⟨_, rfl, accounted_gated ?_⟩
  dsimp only
  split
  · exact sent.respond _ _
  · exact sent.trans (accounted_abortTransfer _)

theorem execReadByte_accounted (s : State) : ∃ t, execReadByte s = .next t ∧ Accounted s t := by
  have got := accounted_xferIn s.order s
  refine ⟨_, rfl, accounted_gated ?_⟩
  dsimp only
  split
  · exact got.respond _ _
  · exact got.trans (accounted_abortTransfer _)

theorem execExpValidate_accounted (s : State) : ∃ t, execExpValidate s = .next t ∧ Accounted s t :=
  ⟨_, rfl, accounted_gated ((accounted_validate s).respond _ _)⟩

theorem execSelect_accounted (d : Device) (s : State) : ∃ t, execSelect d s = .next t ∧ Accounted s t := by
  refine ⟨_, rfl, accounted_gated ?_⟩
  dsimp only
  split
  · exact (Accounted.refl s).respond _ _
  next unclaimed => exact (accounted_doSelect d (bus_idle_of_not_claimed unclaimed)).respond _ _

theorem execDeselectAll_accounted (s : State) : ∃ t, execDeselectAll s = .next t ∧ Accounted s t := by
  refine ⟨_, rfl, accounted_gated ?_⟩
  dsimp only
  split
  · exact (Accounted.refl s).respond _ _
  · exact (accounted_doDeselect s).respond _ _

theorem execSessionOpen_accounted (d : Device) (s : State) : ∃ t, execSessionOpen d s = .next t ∧ Accounted s t := by
  refine ⟨_, rfl, accounted_gated ?_⟩
  dsimp only
  split
  · exact (Accounted.refl s).respond _ _
  next unclaimed =>
    have done := accounted_doSelect d (bus_idle_of_not_claimed unclaimed)
    have opened : Accounted s { (doSelect d s).2 with session := true } := done.with_registers rfl rfl rfl rfl
    split
    · exact opened.respond _ _
    · exact done.respond _ _

/-- R173 closes as the cleanup of R244 does: no session, and one deselect attempt. -/
theorem execSessionClose_accounted (s : State) : ∃ t, execSessionClose s = .next t ∧ Accounted s t := by
  refine ⟨_, rfl, accounted_gated ?_⟩
  dsimp only
  split
  · exact (Accounted.refl s).respond _ _
  · exact (accounted_cleanup s).respond _ _

theorem execRead_accounted (d : Device) (a n : Word) (s : State) : ∃ t, execRead d a n s = .next t ∧ Accounted s t := by
  refine ⟨_, rfl, accounted_gated ?_⟩
  dsimp only
  split
  · exact (Accounted.refl s).respond _ _
  next unclaimed =>
    split
    · exact (Accounted.refl s).respond _ _
    · exact (accounted_readFrame d a.toNat n.toNat (bus_idle_of_not_claimed unclaimed)).respond _ _

theorem execDump_accounted (d : Device) (a len : Word) (s : State) :
    ∃ t, execDump d a len s = .next t ∧ Accounted s t := by
  refine ⟨_, rfl, accounted_gated ?_⟩
  dsimp only
  split
  · exact (Accounted.refl s).respond _ _
  next unclaimed =>
    split
    · exact (Accounted.refl s).respond _ _
    · have idle := bus_idle_of_not_claimed unclaimed
      have done := accounted_dumpLoop d (dumpChunks s.cfg.toConfig a.toNat len.toNat) idle
      exact (done.with_registers (u := { (dumpLoop d _ s).2 with dumpPos := none }) rfl rfl rfl rfl).respond _ _

theorem execSetBitOrder_accounted (o : BitOrder) (s : State) : ∃ t, execSetBitOrder o s = .next t ∧ Accounted s t := by
  have ordered : Accounted s { s with order := o } := accounted_of_registers rfl rfl rfl rfl
  exact ⟨_, rfl, accounted_gated (ordered.respond _ _)⟩

theorem exec_accounted (i : Instr) (s : State) : ∃ t, exec i s = .next t ∧ Accounted s t := by
  cases i with
  | init => exact execInit_accounted s
  | validateConfig => exact execValidateConfig_accounted s
  | release => exact execRelease_accounted s
  | writeByte v => exact execWriteByte_accounted v s
  | readByte => exact execReadByte_accounted s
  | expValidate => exact execExpValidate_accounted s
  | select d => exact execSelect_accounted d s
  | deselectAll => exact execDeselectAll_accounted s
  | sessionOpen d => exact execSessionOpen_accounted d s
  | sessionClose => exact execSessionClose_accounted s
  | read d a n => exact execRead_accounted d a n s
  | dump d a len => exact execDump_accounted d a len s
  | setBitOrder o => exact execSetBitOrder_accounted o s

/-! ### The step -/

theorem takeReset_eq_none_iff (s : State) : s.takeReset = none ↔ s.resetInput = .none := by
  rw [State.takeReset]
  cases s.resetInput <;> simp

/-- R270: a reset clears the halt. -/
theorem takeReset_running {s t : State} (h : s.takeReset = some t) : t.halted = false := by
  rw [State.takeReset] at h
  split at h <;> cases h <;> rfl

/-- Everything a step can be: a reset, or else a wait, an illegal header answered, or a command run. -/
theorem step_inversion {s t : State} (h : step s = .next t) :
    s.takeReset = some t ∨
      s.resetInput = .none ∧
        (t = s ∨ (∃ rest, t = (s.withPort rest).respond .illegalCommand none) ∨
          ∃ i rest, exec i (s.withPort rest) = .next t) := by
  unfold step at h
  split at h
  next _ hr => cases h; exact .inl hr
  next hr =>
    refine .inr ⟨(takeReset_eq_none_iff s).1 hr, ?_⟩
    split at h
    next => cases h; exact .inl rfl
    next _ rest _ => cases h; exact .inr (.inl ⟨rest, rfl⟩)
    next i rest _ => exact .inr (.inr ⟨i, rest, h⟩)

/-- The invariant of R174 holds of an empty history. -/
theorem selectionsAreClosed_of_empty {s : State} (h : s.history = []) : s.SelectionsAreClosed := by
  rw [selectionsAreClosed_iff, h]
  exact ⟨closing_nil.alternates, fun _ => closing_nil⟩

/-! ### The obligations -/

/-- Settles O53: a reset empties the history, and every command keeps its selections closed. -/
theorem selectionsAreAlwaysClosed : Obligations.SelectionsAreAlwaysClosed := by
  intro s t hs h
  have taken : ∀ rest, Accounted s (s.withPort rest) := fun _ => accounted_of_registers rfl rfl rfl rfl
  rcases step_inversion h with reset | ⟨-, rfl | ⟨rest, rfl⟩ | ⟨i, rest, hi⟩⟩
  · exact selectionsAreClosed_of_empty (takeReset_history reset)
  · exact hs
  · exact ((taken rest).respond _ _).closed hs
  · obtain ⟨u, hu, run⟩ := exec_accounted i (s.withPort rest)
    obtain rfl : u = t := Host.Outcome.next.inj (hu.symm.trans hi)
    exact ((taken rest).trans run).closed hs

/-- The gate's first row (R243). -/
theorem gate_of_halted {s : State} (halted : s.halted = true) (g : GateCase) : gate g s = some .engineHalted := by
  unfold gate
  exact if_pos halted

theorem step_keeps_halt {s t : State} (halted : s.halted = true) (noReset : s.resetInput = .none)
    (h : step s = .next t) : t.halted = true := by
  rcases step_inversion h with reset | ⟨-, rfl | ⟨rest, rfl⟩ | ⟨i, rest, hi⟩⟩
  · rw [(takeReset_eq_none_iff s).2 noReset] at reset
    cases reset
  · exact halted
  · exact halted
  · rw [exec_of_reject (gate_of_halted (s := s.withPort rest) halted _)] at hi
    cases hi
    exact halted

/-- Settles O54: the halt of each command is accounted for, the gate and the step keep it, a reset clears it, and what
a halted state is like is part of the invariant between commands. -/
theorem haltedExactlyOnFailedDeselect : Obligations.HaltedExactlyOnFailedDeselect := by
  refine ⟨fun i s running => ?_, fun i s halted => exec_of_reject (gate_of_halted halted _),
    fun s t => step_keeps_halt, fun s t reset h => ?_, fun s t hs h => (steadyIsKept s t hs h).halted_unknown⟩
  · obtain ⟨t, ht, run⟩ := exec_accounted i s
    obtain ⟨es, history, halts⟩ := run.halts
    exact ⟨t, es, ht, history, by simpa [running] using halts⟩
  · rcases step_inversion h with hr | ⟨noReset, -⟩
    · exact takeReset_running hr
    · exact absurd noReset reset

end Sys2Proof.Machine
end

section
/-!
The expander adapter and the sessions (spec/41_expander_select.md, spec/42_session.md): the conditions on session and
bus (R245), the commands that the gate and these conditions let pass, for the answers they get, and what a `READ` and a
`DUMP` that pass their checks record (R174, R193).
-/

namespace Sys2Proof.Machine

/-! ### Commands that pass the gate -/

/-- A ready engine runs the body of every command but `INIT`. -/
theorem next_gated_of_ready {g : GateCase} {s u : State} {body : State → State} (ready : s.Ready) (pass : g ≠ .init)
    (h : body s = u) : (.next (gated g s body) : Host.Outcome State Fault Refusal) = .next u :=
  congrArg Host.Outcome.next ((gated_of_pass (gate_of_ready ready pass)).trans h)

theorem busClaimed_iff (s : State) : s.busClaimed = true ↔ s.session = true ∨ s.bus ≠ .idle := by
  simp [State.busClaimed]

/-- `INIT`, which needs a handle that is closed. -/
theorem gate_init_of_ready {s : State} (ready : s.Ready) : gate .init s = some .usageError := by
  unfold gate
  rw [ready.running, ready.valid]
  rfl

/-- Settles O14: a ready engine passes the gate, and the command's own check refuses. -/
theorem sessionAndBusRejections : Obligations.SessionAndBusRejections := by
  refine fun s ready => ⟨fun claimed => ?_, fun inside => ⟨?_, ?_⟩, fun outside => ?_, ?_⟩
  · have claimed := (busClaimed_iff s).2 claimed
    refine ⟨fun d => ?_, fun d => ?_, fun d a n => ?_, fun d a n => ?_, ?_⟩ <;>
      exact next_gated_of_ready ready (by simp) (if_pos claimed)
  · exact next_gated_of_ready ready (by simp) (if_pos inside)
  · exact next_gated_of_ready ready (by simp) (if_pos inside)
  · exact next_gated_of_ready ready (by simp) (if_pos (by simp [outside]))
  · exact exec_of_reject (gate_init_of_ready ready)

theorem exec_select_of_free {s : State} (free : s.Free) (d : Device) :
    exec (.select d) s = .next
      ((doSelect d s).2.respond (if (doSelect d s).1 then .ok else .selectFailure) none) :=
  next_gated_of_ready free.toReady (by simp) (if_neg (by simp [busClaimed_of_free free]))

theorem exec_deselectAll_of_ready {s : State} (ready : s.Ready) (outside : s.session = false) :
    exec .deselectAll s = .next
      ((doDeselect s).2.respond (if (doDeselect s).1 then .ok else .selectFailure) none) :=
  next_gated_of_ready ready (by simp) (if_neg (by simp [outside]))

theorem exec_validateConfig_of_free {s : State} (free : s.Free) :
    exec .validateConfig s = .next
      (if (validate s).1 then (validate s).2.respond .ok none
        else failHandle .expanderNotPresent (validate s).2) :=
  next_gated_of_ready free.toReady (by simp) (if_neg (by simp [busClaimed_of_free free]))

theorem exec_dump_of_free {s : State} (free : s.Free) {d : Device} {a len : Word}
    (ha : a.toNat < 2 ^ (8 * (s.cfg.desc d).addrBytes))
    (hlen : a.toNat + len.toNat ≤ 2 ^ (8 * (s.cfg.desc d).addrBytes)) {code : Code} {u : State}
    (hu : dumpLoop d (dumpChunks s.cfg.toConfig a.toNat len.toNat) s = (code, u)) :
    exec (.dump d a len) s = .next (State.respond { u with dumpPos := none } code none) := by
  refine next_gated_of_ready free.toReady (by simp) ?_
  simp only [busClaimed_of_free free, dumpArgs_good ha hlen, Bool.false_eq_true, if_false, hu]

/-! ### The expander adapter -/

/-- Settles O24: each line is written once, and no bit but the lines is written. -/
theorem selValueAssertsExactlyTheSelected : Obligations.SelValueAssertsExactlyTheSelected := by
  intro c t
  obtain ⟨apart, -⟩ := AdmittedConfig_facts c
  refine ⟨fun d => ?_, fun j other => ?_⟩
  · rw [getLsbD_selValue]
    cases d with
    | flash => simp [Config.desc, apart, selLevel]
    | eeprom => simp [Config.desc, selLevel]
  · exact (getLsbD_selValue c t j).trans ((if_neg (other .eeprom)).trans (if_neg (other .flash)))

/-- Settles O25: the two ways that the check can be answered (R142). -/
theorem expValidateCompletes : Obligations.ExpValidateCompletes := by
  refine fun s ready => ⟨fun h => ?_, fun r h => ?_⟩
  · rw [exec_expValidate_of_ready ready, validate_of_failed h]
  · rw [exec_expValidate_of_ready ready, validate_of_read h, Bool.beq_eq_decide_eq]

/-- Settles O26. -/
theorem selectCompletes : Obligations.SelectCompletes := by
  intro d s free h
  rw [exec_select_of_free free, doSelect_of_ok h]
  rfl

/-- Settles O27: both commands answer a failed select alike. -/
theorem failedSelectIsUndone : Obligations.FailedSelectIsUndone := by
  intro d s deselected free h i hi
  have failed := doSelect_of_failed h
  rw [free.running, Bool.false_or] at failed
  rcases hi with rfl | rfl
  · rw [exec_select_of_free free, failed]
    rfl
  · rw [exec_sessionOpen_of_free free, failed]
    rfl

/-- Settles O28. -/
theorem deselectAllCompletes : Obligations.DeselectAllCompletes := by
  intro s deselected ready outside h
  rw [exec_deselectAll_of_ready ready outside, doDeselect_of_answers h, ready.running, Bool.false_or]

/-- Settles O45: the two ways that the check can fail leave the handle `NotPresent`. -/
theorem validateConfigCompletes : Obligations.ValidateConfigCompletes := by
  refine fun s free => ⟨?_, ?_⟩
  · rintro _ rfl h
    rw [exec_validateConfig_of_free free, validate_of_read h]
    simp only [beq_self_eq_true, if_true]
  · rintro _ (rfl | ⟨r, other, rfl⟩) h
    · rw [exec_validateConfig_of_free free, validate_of_failed h]
      rfl
    · rw [exec_validateConfig_of_free free, validate_of_read h, if_neg (by simpa using other)]
      rfl

/-! ### Sessions -/

/-- Settles O29. -/
theorem sessionOpenCompletes : Obligations.SessionOpenCompletes := by
  intro d s free h
  rw [exec_sessionOpen_of_free free, doSelect_of_ok h]
  rfl

/-- Settles O30: closing deselects as outside a session, with `SESSION` cleared first. -/
theorem sessionCloseCompletes : Obligations.SessionCloseCompletes := by
  intro s deselected ready inside h
  have off := doDeselect_of_answers (s := { s with session := false }) (answers_of_outside h rfl)
  rw [exec_sessionClose_of_inSession ⟨ready, inside⟩, off, cleanup_of_answers h, ready.running, Bool.false_or]

/-! ### Reads and dumps -/

section Transfers

variable {s : State} {d : Device} {a n : Word}

/-- A `READ` that passes its checks is a read sequence and its response. -/
theorem exec_read_run (free : s.Free) (ha : a.toNat < 2 ^ (8 * (s.cfg.desc d).addrBytes))
    (hn : n.toNat ≤ s.cfg.maxLen) :
    ∃ es r, ReadRun s d a.toNat n.toNat es r ∧
      exec (.read d a n) s =
        .next (r.after.respond r.code (if r.code = .ok then some (.bytes r.rx) else none)) := by
  obtain ⟨es, run⟩ := readFrame_run s d a.toNat n.toNat
  exact ⟨es, _, run, exec_read_of_free free ha hn rfl⟩

/-- A `DUMP` that passes its checks is a run of the dump loop and its response. -/
theorem exec_dump_run (free : s.Free) (ha : a.toNat < 2 ^ (8 * (s.cfg.desc d).addrBytes))
    (hn : a.toNat + n.toNat ≤ 2 ^ (8 * (s.cfg.desc d).addrBytes)) :
    ∃ es code u, DumpRun s d (dumpChunks s.cfg.toConfig a.toNat n.toNat) es code u ∧
      exec (.dump d a n) s = .next (State.respond { u with dumpPos := none } code none) := by
  obtain ⟨es, run⟩ := dumpLoop_run d (dumpChunks s.cfg.toConfig a.toNat n.toNat) s
  exact ⟨es, _, _, run, exec_dump_of_free free ha hn rfl⟩

end Transfers

/-- Settles O56: the trace of the read sequence, which its code stands for, and the registers it leaves. -/
theorem readAnswersAsItsTraceSays : Obligations.ReadAnswersAsItsTraceSays := by
  intro d a n s free ha hn
  obtain ⟨es, r, run, he⟩ := exec_read_run free ha hn
  refine ⟨_, es, r.code, if r.code = .ok then some (.bytes r.rx) else none, he, ?_, ?_, ?_, run.bus, run.seldev,
    run.session free.no_session, ?_, ?_⟩
  · rw [respond_history, run.ran.history]
  · rw [respond_responses, run.ran.responses]
    rfl
  · rcases run.trace with ⟨ok, full, trace⟩ | failed
    · exact .inl ⟨ok, r.rx, full, trace, if_pos ok⟩
    · exact .inr ⟨failed, if_neg failed.code_ne_ok⟩
  · have halts := run.halts
    rw [or_iff_right (by simp [free.running])] at halts
    rw [respond_halted, Bool.eq_iff_iff, halts, decide_eq_true_iff]
  · rw [respond_outShadow, respond_halted]
    split
    next halted => exact run.shadow_unknown free.running halted
    next running => exact run.shadow_known (Bool.eq_false_of_not_eq_true running)

theorem dumpChunks_ne_nil (c : Config) (a : Nat) {len : Nat} (h : 0 < len) : dumpChunks c a len ≠ [] := by
  cases len with
  | zero => simp at h
  | succ len => simp [dumpChunks, chunksFrom]

/-- A response writes nothing. -/
theorem outWrites_append_resp (c : Config) (es : List Event) (code : Code) :
    outWrites c (es ++ [.resp code]) = outWrites c es := by simp [outWrites]

/-- A response hands nothing over. -/
theorem presented_append_resp (es : List Event) (code : Code) : presented (es ++ [.resp code]) = presented es := by
  simp [presented]

/-- Settles O42: a read sequence writes the pair (R143, R145, R244), and the dump loop repeats it for each chunk. -/
theorem readsDeselectExactlyOnce : Obligations.ReadsDeselectExactlyOnce := by
  rintro d a n s _ free ha rfl
  refine ⟨fun hn => ?_, fun hn => ?_⟩
  · obtain ⟨es, r, run, he⟩ := exec_read_run free ha hn
    refine ⟨_, es ++ [.resp r.code], he, ?_, ?_, run.bus, run.seldev⟩
    · rw [respond_history, run.ran.history, List.append_assoc]
    · rw [outWrites_append_resp, run.writes]
  · obtain ⟨es, code, u, run, he⟩ := exec_dump_run free ha hn
    refine ⟨_, es ++ [.resp code], he, ?_, ?_, run.bus (.inl free.bus_idle),
      fun nonempty => run.seldev (.inr (dumpChunks_ne_nil _ _ nonempty))⟩
    · rw [respond_history, run.ran.history, List.append_assoc]
    · rw [outWrites_append_resp, presented_append_resp, lastCode_respond, run.writes]
      simp only [Option.some.injEq]

end Sys2Proof.Machine
end

section
/-!
Reads and dumps (spec/43_read_protocol.md R190 to R204): the chunks of a dump in arithmetic, the argument checks, the
state that read sequences leave when every byte goes through, alone and one after another in a dump, and what a `READ`
and a `DUMP` answer.
-/

namespace Sys2Proof.Machine

/-! ### The argument checks -/

/-- Settles O15: a free engine runs the body, and its second check refuses. -/
theorem argumentRejections : Obligations.ArgumentRejections := by
  refine fun s d a n free => ⟨fun bad => ?_, fun bad => ?_⟩
  · refine next_gated_of_ready free.toReady (by simp) ?_
    simp only [busClaimed_of_free free, readArgsBad_iff.2 bad, Bool.false_eq_true, if_false, if_true]
  · refine next_gated_of_ready free.toReady (by simp) ?_
    simp only [busClaimed_of_free free, dumpArgsBad_iff.2 bad, Bool.false_eq_true, if_false, if_true]

/-- Settles O40: no bytes make no chunks. -/
theorem emptyDumpDoesNothing : Obligations.EmptyDumpDoesNothing := by
  intro d a s free none_held ha
  have in_range : a.toNat + (0#32 : Word).toNat ≤ 2 ^ (8 * (s.cfg.desc d).addrBytes) := ha.le
  have no_chunks : dumpLoop d (dumpChunks s.cfg.toConfig a.toNat (0#32 : Word).toNat) s = (.ok, s) := rfl
  rw [exec_dump_of_free free ha in_range no_chunks, ← none_held]

/-! ### The chunks of a dump (R200, R201) -/

theorem chunksFrom_of_pos {size rem : Nat} (fuel pos : Nat) (h : 0 < rem) :
    chunksFrom size (fuel + 1) pos rem =
      { pos := pos, len := min size rem, rem := rem } ::
        chunksFrom size fuel (pos + min size rem) (rem - min size rem) :=
  if_neg h.ne'

theorem chunksFrom_nothing (size fuel pos : Nat) : chunksFrom size fuel pos 0 = [] := by
  cases fuel <;> rfl

/-- Chunk `j` begins `j` chunk sizes after the start; only the last chunk may be shorter. -/
theorem chunksFrom_getElem {size fuel pos rem j : Nat} {k : Chunk} (hsize : 0 < rem → 0 < size)
    (hk : (chunksFrom size fuel pos rem)[j]? = some k) :
    k.pos = pos + j * size ∧ k.len = min size (rem - j * size) ∧ 0 < k.len := by
  induction fuel generalizing pos rem j with
  | zero => simp [chunksFrom] at hk
  | succ fuel ih =>
    rcases Nat.eq_zero_or_pos rem with rfl | hrem
    · simp [chunksFrom] at hk
    have hsize := hsize hrem
    rw [chunksFrom_of_pos fuel pos hrem] at hk
    cases j with
    | zero =>
      obtain rfl := Option.some.inj hk
      simp [hsize, hrem]
    | succ j =>
      rw [List.getElem?_cons_succ] at hk
      have full : min size rem = size := by
        by_contra hne
        have done : rem - min size rem = 0 := by omega
        simp [done, chunksFrom_nothing] at hk
      rw [full] at hk
      obtain ⟨hpos, hlen, hne⟩ := ih (fun _ => hsize) hk
      have next : (j + 1) * size = j * size + size := Nat.succ_mul j size
      exact ⟨by omega, by rw [hlen]; congr 1; omega, hne⟩

/-- The chunks, one after another, are the bytes from the start on. -/
theorem chunksFrom_cover {size fuel pos rem : Nat} (hsize : 0 < rem → 0 < size) (enough : rem ≤ fuel) :
    ((chunksFrom size fuel pos rem).flatMap fun k => List.range' k.pos k.len) = List.range' pos rem := by
  induction fuel generalizing pos rem with
  | zero => simp [chunksFrom, Nat.le_zero.1 enough]
  | succ fuel ih =>
    rcases Nat.eq_zero_or_pos rem with rfl | hrem
    · simp [chunksFrom]
    have hsize := hsize hrem
    rw [chunksFrom_of_pos fuel pos hrem, List.flatMap_cons, ih (fun _ => hsize) (by omega), List.range'_append_1]
    exact congrArg (List.range' pos) (Nat.add_sub_of_le (Nat.min_le_right size rem))

theorem chunkSize_pos (c : Config) {len : Nat} (h : 0 < len) : 0 < chunkSize c len := by
  unfold chunkSize
  split <;> omega

/-- R201: what each chunk of a dump is. -/
theorem dumpChunks_getElem {c : Config} {a len j : Nat} {k : Chunk} (hk : (dumpChunks c a len)[j]? = some k) :
    k.pos = a + j * chunkSize c len ∧ k.len = min (chunkSize c len) (len - j * chunkSize c len) ∧ 0 < k.len :=
  chunksFrom_getElem (chunkSize_pos c) hk

/-- Settles O38. -/
theorem dumpChunksCoverTheRange : Obligations.DumpChunksCoverTheRange := by
  rintro c a len _ rfl
  exact ⟨fun j k => dumpChunks_getElem, chunksFrom_cover (chunkSize_pos c.toConfig) le_rfl⟩

/-- R201: no chunk is empty. -/
theorem dumpChunks_len_pos {c : Config} {a len : Nat} {k : Chunk} (hk : k ∈ dumpChunks c a len) : 0 < k.len := by
  obtain ⟨j, hj⟩ := List.mem_iff_getElem?.1 hk
  exact (dumpChunks_getElem hj).2.2

/-! ### Reads -/

/-- `s` after the trace `es` of one or more read sequences that went through (R193): the registers of the last byte
received and of the last bit sent, on a deselected engine at rest. -/
@[simp] def State.readThrough (s : State) (es : List Event) (sr : Byte) (dout : Bool) : State :=
  { s.noteAll es with
    sr := sr, dout := dout, sck := s.cfg.cpol, bitcnt := 0, bus := .idle, seldev := none
    outShadow := some (selValue s.cfg.toConfig none), phase := .idle, rxbuf := [] }

/-- A read sequence that goes through. -/
theorem readFrame_completes {s : State} {d : Device} {a n : Nat} {rx : List Byte} (full : rx.length = n)
    (h : s.answers (readEvents s.cfg.toConfig d a rx) = true) :
    readFrame d a n s =
      { code := .ok, rx := rx
        after := s.readThrough (readEvents s.cfg.toConfig d a rx) (rx.getLast?.getD 0x00#8) (a.testBit 0) } := by
  rw [readFrame_of_answers (ok := true) full h]
  simp [readEvents, noteAll_eq]

/-- Settles O33: the read sequence goes through, and its bytes are the payload. -/
theorem readCompletes : Obligations.ReadCompletes := by
  intro d a n rx s free ha hn full h
  rw [exec_read_of_free free ha hn (readFrame_completes full h)]
  rfl

/-- Settles O34: a `READ` responds once, and its payload fits the code (R51). -/
theorem readReturnsAllOrNothing : Obligations.ReadReturnsAllOrNothing := by
  intro d a n s
  obtain ⟨t, es, c, p, ht, history, -, responses, whole, withheld⟩ := oneResponsePerCommand (.read d a n) s
  exact ⟨t, c, _, ht, by simp [State.lastCode, history], responses, withheld, whole⟩

/-- What a read sequence that met a pin fault leaves (R244). -/
structure Aborted (s : State) (es : List Event) (deselected : Bool) (r : FrameResult) : Prop where
  code : r.code = .transferAborted
  history : r.after.history = s.history ++ es
  responses : r.after.responses = s.responses
  closed : r.after.Closed
  halted : r.after.halted = (s.halted || !deselected)

theorem readFrame_aborts_in_frame {s : State} {d : Device} {a n : Nat} {pre : List Byte} {b : Byte}
    {post : List Byte} {ok : Bool} (hf : frame s.cfg.toConfig d a = pre ++ b :: post) {es : List Event}
    (hes : es = selectWrite s.cfg.toConfig d true :: (frameEvents s.cfg.toConfig pre ++
      sentByte s.cfg.cpol .msbFirst true b ++ [deselectWrite s.cfg.toConfig ok]))
    (h : s.answers es = true) : Aborted s es ok (readFrame d a n s) := by
  subst hes
  rw [readFrame_of_frame_fault hf h]
  exact ⟨rfl, noteAll_history _ _, noteAll_responses _ _, ⟨rfl, rfl, rfl⟩, rfl⟩

theorem readFrame_aborts_in_data {s : State} {d : Device} {a n : Nat} {pre : List Byte} {b : Byte} {ok : Bool}
    (short : pre.length < n) {es : List Event}
    (hes : es = selectWrite s.cfg.toConfig d true :: (frameEvents s.cfg.toConfig (frame s.cfg.toConfig d a) ++
      dataEvents s.cfg.toConfig pre ++ receivedByte s.cfg.cpol .msbFirst true b ++
      [deselectWrite s.cfg.toConfig ok]))
    (h : s.answers es = true) : Aborted s es ok (readFrame d a n s) := by
  rw [List.append_assoc (frameEvents _ _)] at hes
  subst hes
  rw [readFrame_of_data_fault short h]
  exact ⟨rfl, noteAll_history _ _, noteAll_responses _ _, ⟨rfl, rfl, rfl⟩, rfl⟩

/-- A `READ` whose read sequence met a pin fault answers so, without a payload. -/
theorem exec_read_of_aborted {s : State} (free : s.Free) {d : Device} {a n : Word}
    (ha : a.toNat < 2 ^ (8 * (s.cfg.desc d).addrBytes)) (hn : n.toNat ≤ s.cfg.maxLen) {es : List Event}
    {deselected : Bool} (h : Aborted s es deselected (readFrame d a.toNat n.toNat s)) :
    ∃ t, exec (.read d a n) s = .next t ∧ t.history = s.history ++ es ++ [.resp .transferAborted] ∧
      t.responses = s.responses ++ [{ status := statusWord .transferAborted t, payload := none }] ∧
      t.bus = .idle ∧ t.seldev = none ∧ t.session = false ∧ t.halted = !deselected := by
  refine ⟨(readFrame d a.toNat n.toNat s).after.respond .transferAborted none, ?_, ?_, ?_, h.closed.bus_idle,
    h.closed.no_device, h.closed.no_session, ?_⟩
  · rw [exec_read_of_free free ha hn rfl, h.code]
    rfl
  · rw [respond_history, h.history]
  · rw [respond_responses, h.responses]
    rfl
  · rw [respond_halted, h.halted, free.running, Bool.false_or]

/-- Settles O35: a fault in the frame and a fault in the data both abort the read sequence. -/
theorem faultyReadCleansUp : Obligations.FaultyReadCleansUp := by
  refine fun d a n s deselected free ha hn => ⟨fun pre b post es hf hes h => ?_, fun pre b es short hes h => ?_⟩
  · exact exec_read_of_aborted free ha hn (readFrame_aborts_in_frame hf hes h)
  · exact exec_read_of_aborted free ha hn (readFrame_aborts_in_data short hes h)

/-! ### Dumps -/

/-- Settles O41: the dump loop ends in one of the ways of `DumpTrace`, whatever the outside answers. -/
theorem dumpPresentsExactlyTheCompleteChunks : Obligations.DumpPresentsExactlyTheCompleteChunks := by
  rintro d a len s _ free ha hlen rfl
  obtain ⟨es, code, u, run, he⟩ := exec_dump_run free ha hlen
  refine ⟨_, es, code, he, ?_, run.trace⟩
  rw [respond_history, run.ran.history]

@[simp] theorem dumpEvents_cons (c : Config) (d : Device) (k : Chunk) (ks : List Chunk) (rx : List Byte)
    (data : List (List Byte)) :
    dumpEvents c d (k :: ks) (rx :: data) = readEvents c d k.pos rx ++ [.present rx] ++ dumpEvents c d ks data := by
  simp [dumpEvents]

/-- `s` after the chunks of a dump up to `last`, each read whole and handed over (R200, R203). -/
def State.dumpedTo (s : State) (es : List Event) (sr : Byte) (last : Chunk) : State :=
  { s.readThrough es sr (last.pos.testBit 0) with dumpPos := some { pos := last.pos, rem := last.rem } }

@[simp] theorem dumpedTo_cfg (s : State) (es : List Event) (sr : Byte) (k : Chunk) :
    (s.dumpedTo es sr k).cfg = s.cfg := noteAll_cfg s es

theorem dumpedTo_outside (s : State) (es : List Event) (sr : Byte) (k : Chunk) :
    (s.dumpedTo es sr k).outside = (s.noteAll es).outside := rfl

theorem dumpedTo_dumpedTo (s : State) (es fs : List Event) (sr sr' : Byte) (k k' : Chunk) :
    (s.dumpedTo es sr k).dumpedTo fs sr' k' = s.dumpedTo (es ++ fs) sr' k' := by
  simp [State.dumpedTo, noteAll_eq]

/-- One pass of the dump loop, when its chunk is read whole. -/
theorem dumpLoop_cons_of_read {d : Device} {k : Chunk} {rx : List Byte} {s : State} (full : rx.length = k.len)
    (h : s.answers (readEvents s.cfg.toConfig d k.pos rx) = true) (ks : List Chunk) :
    dumpLoop d (k :: ks) s =
      dumpLoop d ks
        (s.dumpedTo (readEvents s.cfg.toConfig d k.pos rx ++ [.present rx]) (rx.getLast?.getD 0x00#8) k) := by
  have read := readFrame_completes (s := { s with dumpPos := some { pos := k.pos, rem := k.rem } }) full
    (answers_of_outside h rfl)
  rw [dumpLoop, read]
  simp [State.dumpedTo, State.present, State.note, noteAll_eq, isSample, isExpW, isExpR, isPinCheck]

/-- The last byte of a dump is in its last chunk. -/
theorem getLast?_flatten_cons (rx : List Byte) {data : List (List Byte)} (h : data.flatten ≠ []) :
    (rx :: data).flatten.getLast? = data.flatten.getLast? := by
  rw [List.flatten_cons, List.getLast?_append_of_ne_nil _ h]

/-- The dump loop when every chunk, none of them empty, is read whole. -/
theorem dumpLoop_completes {d : Device} {k last : Chunk} {ks : List Chunk} {data : List (List Byte)} {s : State}
    (full : data.map List.length = (k :: ks).map Chunk.len) (nonempty : ∀ c ∈ k :: ks, 0 < c.len)
    (hlast : (k :: ks).getLast? = some last)
    (h : s.answers (dumpEvents s.cfg.toConfig d (k :: ks) data) = true) :
    dumpLoop d (k :: ks) s =
      (.ok, s.dumpedTo (dumpEvents s.cfg.toConfig d (k :: ks) data) (data.flatten.getLast?.getD 0x00#8) last) := by
  induction ks generalizing k data s with
  | nil =>
    obtain ⟨rx, rfl, hrx⟩ : ∃ rx, data = [rx] ∧ rx.length = k.len := by
      simpa [List.map_eq_cons_iff] using full
    obtain rfl : k = last := by simpa using hlast
    rw [dumpEvents_cons] at h ⊢
    rw [dumpLoop_cons_of_read hrx (answers_before (answers_before h))]
    simp [dumpLoop, dumpEvents]
  | cons k' ks ih =>
    obtain ⟨rx, data, rfl, hrx, rest⟩ := List.map_eq_cons_iff.1 full
    have hdata : data.flatten ≠ [] := by
      obtain ⟨rx', data, rfl, hrx', -⟩ := List.map_eq_cons_iff.1 rest
      have := nonempty k' (by simp)
      have : rx' ≠ [] := List.length_pos_iff.1 (by omega)
      simp [this]
    rw [dumpEvents_cons] at h ⊢
    rw [dumpLoop_cons_of_read hrx (answers_before (answers_before h)), getLast?_flatten_cons rx hdata]
    have rest_answers := answers_after h (dumpedTo_outside s _ (rx.getLast?.getD 0x00#8) k)
    rw [ih rest (fun c hc => nonempty c (.tail _ hc)) (by simpa using hlast)
      (by rwa [dumpedTo_cfg]), dumpedTo_cfg, dumpedTo_dumpedTo]

/-- Settles O39: the dump loop goes through, and the dump position goes with it (R45). -/
theorem dumpCompletes : Obligations.DumpCompletes := by
  rintro d a len data s _ last free hpos hlen rfl hlast full h
  obtain ⟨k, ks, hks⟩ := List.exists_cons_of_ne_nil (dumpChunks_ne_nil s.cfg.toConfig a.toNat hpos)
  have nonempty : ∀ c ∈ k :: ks, 0 < c.len := fun c hc => dumpChunks_len_pos (hks ▸ hc)
  have done := dumpLoop_completes (hks ▸ full) nonempty (hks ▸ hlast) (hks ▸ h)
  rw [← hks] at done
  rw [exec_dump_of_free free (by omega) hlen done]
  rfl

end Sys2Proof.Machine
end

section
/-!
The lifecycle (spec/44_lifecycle.md R220 to R225): what `INIT` and `RELEASE` do when the gate lets them pass, for the
answers they get, and the transitions of the handle.
-/

namespace Sys2Proof.Machine

/-! ### The gate of the lifecycle commands -/

section Gate

variable {s : State} (running : s.halted = false)
include running

theorem gate_init_of_closed (closed : s.handle = .none ∨ s.handle = .released) : gate .init s = none := by
  unfold gate
  rcases closed with h | h <;> simp [running, h]

theorem gate_release_of_held (held : s.handle = .valid ∨ s.handle = .notPresent) : gate .release s = none := by
  unfold gate
  rcases held with h | h <;> simp [running, h]

end Gate

theorem next_gated_of_pass {g : GateCase} {s u : State} {body : State → State} (pass : gate g s = none)
    (h : body s = u) : (.next (gated g s body) : Host.Outcome State Fault Refusal) = .next u :=
  congrArg Host.Outcome.next ((gated_of_pass pass).trans h)

/-! ### Runs with the pins idle -/

/-- The two drives that idle the pins (R220, R225). -/
def idleEvents (c : Config) : List Event := [.pin .sck c.cpol, .pin .dout false]

/-- `s` after a trace that idled the pins. -/
def State.idled (s : State) (es : List Event) : State := { s.noteAll es with sck := s.cfg.cpol, dout := false }

theorem idlePins_idles (s : State) : idlePins s = s.idled (idleEvents s.cfg.toConfig) := idlePins_eq s

@[simp] theorem idled_noteAll (s : State) (es fs : List Event) : (s.idled es).noteAll fs = s.idled (es ++ fs) := by
  simp [State.idled, noteAll_eq]

@[simp] theorem idled_cfg (s : State) (es : List Event) : (s.idled es).cfg = s.cfg := noteAll_cfg s es

@[simp] theorem idled_halted (s : State) (es : List Event) : (s.idled es).halted = s.halted := noteAll_halted s es

theorem idled_outside (s : State) (es : List Event) : (s.idled es).outside = (s.noteAll es).outside := rfl

/-! ### `INIT` -/

/-- The events of an `INIT` up to its deselect write (R220, R221). -/
def setupTrace (c : Config) : List Event := idleEvents c ++ setupEvents c.initWrites

section Init

variable {s : State}

theorem setupWrites_idled (h : s.answers (setupTrace s.cfg.toConfig) = true) :
    setupWrites s.cfg.initWrites (idlePins s) = (true, s.idled (setupTrace s.cfg.toConfig)) := by
  rw [idlePins_idles, setupWrites_of_answers (answers_after h (idled_outside s _)), idled_noteAll]
  rfl

theorem setupWrites_idled_of_fault {pre post : List (RegAddr × RegValue)} {w : RegAddr × RegValue}
    (split : s.cfg.initWrites = pre ++ w :: post)
    (h : s.answers (idleEvents s.cfg.toConfig ++ (setupEvents pre ++ [.expW w.1 w.2 false])) = true) :
    setupWrites s.cfg.initWrites (idlePins s) =
      (false, s.idled (idleEvents s.cfg.toConfig ++ (setupEvents pre ++ [.expW w.1 w.2 false]))) := by
  rw [split, idlePins_idles, setupWrites_of_fault (answers_after h (idled_outside s _)), idled_noteAll]

/-- `s` after a trace that idled the pins and then deselected, with the deselect write answered `ok` (R145). -/
def State.shut (s : State) (es : List Event) (ok : Bool) : State :=
  { s.idled es with
    bus := .idle, seldev := none, halted := s.halted || !ok
    outShadow := if ok = true then some (selValue s.cfg.toConfig none) else none }

@[simp] theorem shut_noteAll (s : State) (es fs : List Event) (ok : Bool) :
    (s.shut es ok).noteAll fs = s.shut (es ++ fs) ok := by
  simp [State.shut, State.idled, noteAll_eq]

@[simp] theorem shut_cfg (s : State) (es : List Event) (ok : Bool) : (s.shut es ok).cfg = s.cfg := noteAll_cfg s es

theorem shut_outside (s : State) (es : List Event) (ok : Bool) : (s.shut es ok).outside = (s.noteAll es).outside := rfl

theorem doDeselect_idled {es : List Event} {ok : Bool}
    (h : s.answers (es ++ [deselectWrite s.cfg.toConfig ok]) = true) :
    doDeselect (s.idled es) = (ok, s.shut (es ++ [deselectWrite s.cfg.toConfig ok]) ok) := by
  rw [doDeselect_of_answers (by simpa using answers_after h (idled_outside s es)), idled_noteAll, idled_cfg,
    idled_halted]
  rfl

variable (running : s.halted = false) (closed : s.handle = .none ∨ s.handle = .released)
include running closed

theorem exec_init_of_setup_failed {u : State} (setUp : setupWrites s.cfg.initWrites (idlePins s) = (false, u)) :
    exec .init s = .next (failHandle .expanderNotPresent u) := by
  refine next_gated_of_pass (gate_init_of_closed running closed) ?_
  simp [setUp]

theorem exec_init_of_deselect_failed {u v : State} (setUp : setupWrites s.cfg.initWrites (idlePins s) = (true, u))
    (off : doDeselect u = (false, v)) : exec .init s = .next (failHandle .selectFailure v) := by
  refine next_gated_of_pass (gate_init_of_closed running closed) ?_
  simp [setUp, off]

theorem exec_init_of_checked {u v w : State} {good : Bool}
    (setUp : setupWrites s.cfg.initWrites (idlePins s) = (true, u)) (off : doDeselect u = (true, v))
    (checked : validate v = (good, w)) :
    exec .init s = .next
      (if good then State.respond { w with handle := .valid } .ok none else failHandle .expanderNotPresent w) := by
  refine next_gated_of_pass (gate_init_of_closed running closed) ?_
  cases good <;> simp [setUp, off, checked]

/-- An `INIT` whose set-up and deselect writes succeed ends as its validation says. -/
theorem exec_init_of_validate {tail : List Event} {good : Bool}
    (h : s.answers (setupTrace s.cfg.toConfig ++ deselectWrite s.cfg.toConfig true :: tail) = true)
    (checked : ∀ v : State, v.cfg = s.cfg → v.answers tail = true → validate v = (good, v.noteAll tail)) :
    exec .init s = .next (State.respond
      { s.noteAll (setupTrace s.cfg.toConfig ++ deselectWrite s.cfg.toConfig true :: tail) with
        sck := s.cfg.cpol, dout := false, bus := .idle, seldev := none
        outShadow := some (selValue s.cfg.toConfig none), handle := if good then .valid else .notPresent }
      (if good then .ok else .expanderNotPresent) none) := by
  rw [List.append_cons] at h ⊢
  have off := answers_before h
  rw [exec_init_of_checked running closed (setupWrites_idled (answers_before off)) (doDeselect_idled off)
    (checked _ (shut_cfg _ _ _) (answers_after h (shut_outside s _ true))), shut_noteAll]
  cases good <;> simp [State.shut, State.idled, failHandle]

end Init

/-- Settles O43: the check reads the pattern back. -/
theorem initCompletes : Obligations.InitCompletes := by
  rintro s _ running closed rfl h
  refine exec_init_of_validate (good := true) running closed h fun v cfg answered => ?_
  rw [← cfg] at answered ⊢
  rw [validate_of_read answered, beq_self_eq_true]

/-- Settles O44: the set-up writes stop at the first that fails, the deselect write fails, or the check does, in either
of its two ways. -/
theorem initFailures : Obligations.InitFailures := by
  rintro s _ running closed rfl
  refine ⟨?_, ?_, ?_⟩
  · rintro pre w post _ split rfl h
    rw [List.append_assoc] at h ⊢
    exact exec_init_of_setup_failed running closed (setupWrites_idled_of_fault split h)
  · rintro _ rfl h
    rw [exec_init_of_deselect_failed running closed (setupWrites_idled (answers_before h)) (doDeselect_idled h)]
    rw [State.shut, running]
    rfl
  · rintro tail _ failed rfl h
    refine exec_init_of_validate (good := false) running closed h fun v cfg answered => ?_
    rw [← cfg] at failed
    rcases failed with rfl | ⟨r, other, rfl⟩
    · exact validate_of_failed answered
    · rw [validate_of_read answered, beq_eq_false_iff_ne.2 other]

/-! ### `RELEASE` -/

/-- A `RELEASE` that passes the gate and its session check (R225). -/
theorem exec_release_of_held {s u : State} {ok : Bool} (running : s.halted = false)
    (held : s.handle = .valid ∨ s.handle = .notPresent) (outside : s.session = false)
    (off : (if s.handle = .valid then doDeselect s else (true, s)) = (ok, u)) :
    exec .release s = .next
      (State.respond { idlePins u with handle := .released } (if ok then .ok else .selectFailure) none) := by
  refine next_gated_of_pass (gate_release_of_held running held) ?_
  simp [outside, off]

/-- Settles O46: only a valid handle has the lines deselected. -/
theorem releaseCompletes : Obligations.ReleaseCompletes := by
  rintro s _ running outside rfl
  refine ⟨?_, fun absent => ?_⟩
  · rintro valid ok _ rfl h
    have off := doDeselect_of_answers (answers_before (fs := idleEvents s.cfg.toConfig) h)
    rw [running, Bool.false_or] at off
    exact exec_release_of_held running (.inl valid) outside ((if_pos valid).trans off)
  · have off : (if s.handle = .valid then doDeselect s else (true, s)) = (true, s) := if_neg (by simp [absent])
    rw [exec_release_of_held running (.inr absent) outside off, idlePins_eq, if_pos rfl]

/-! ### The transitions of the handle (R222) -/

section Handle

variable {s u : State} {c : Code} {p : Option Payload}

/-- R220. -/
theorem CommandRun.handle_of_init (h : CommandRun s .init c p u) :
    (u.handle = s.handle ∧ c ≠ .ok) ∨ (u.handle = .valid ∧ c = .ok) ∨ (u.handle = .notPresent ∧ c ≠ .ok) := by
  cases h with
  | rejected failed => exact .inl ⟨rfl, failed⟩
  | setupFailed => simp
  | setUp => by_cases ok : c = .ok <;> simp [ok]
  | byteAborted _ _ byte => simp at byte
  | sessionAborted _ _ byte => simp at byte
  | selectFailed _ opens => simp at opens

/-- R223. -/
theorem CommandRun.handle_of_validateConfig (h : CommandRun s .validateConfig c p u) :
    u.handle = s.handle ∨ (s.handle = .valid ∧ u.handle = .notPresent ∧ c = .expanderNotPresent) := by
  cases h with
  | rejected => exact .inl rfl
  | configValid => exact .inl (noteAll_handle _ _)
  | configInvalid free => exact .inr ⟨free.valid, rfl, rfl⟩
  | byteAborted _ _ byte => simp at byte
  | sessionAborted _ _ byte => simp at byte
  | selectFailed _ opens => simp at opens

/-- R225. -/
theorem CommandRun.handle_of_release (h : CommandRun s .release c p u) :
    u.handle = s.handle ∨ ((s.handle = .valid ∨ s.handle = .notPresent) ∧ u.handle = .released) := by
  cases h with
  | rejected => exact .inl rfl
  | released ready => exact .inr ⟨.inl ready.valid, rfl⟩
  | releasedAbsent absent => exact .inr ⟨.inr absent, rfl⟩
  | byteAborted _ _ byte => simp at byte
  | sessionAborted _ _ byte => simp at byte
  | selectFailed _ opens => simp at opens

end Handle

/-- The gate keeps `INIT` from a handle that is held (R243). -/
theorem exec_init_handle {s t : State} (h : exec .init s = .next t) :
    t.handle = s.handle ∨ s.handle = .none ∨ s.handle = .released := by
  cases hg : gate .init s with
  | none => exact .inr (gate_init_pass hg)
  | some code =>
    obtain rfl := Host.Outcome.next.inj ((exec_of_reject (i := .init) hg).symm.trans h)
    exact .inl rfl

theorem exec_release_handle {s t : State} (h : exec .release s = .next t) (running : s.halted = false)
    (outside : s.session = false) (held : s.handle = .valid ∨ s.handle = .notPresent) : t.handle = .released := by
  obtain rfl := Host.Outcome.next.inj ((exec_release_of_held running held outside rfl).symm.trans h)
  rfl

/-- Settles O47: the lifecycle commands move the handle as their rules say, and no other command writes it. -/
theorem handleTransitions : Obligations.HandleTransitions := by
  intro i s
  obtain ⟨t, ht, c, p, u, run, rfl⟩ := exec_responded i s
  refine ⟨_, c, ht, lastCode_respond u c p, ?_, ?_, ?_⟩
  · cases i with
    | init =>
      rcases exec_init_handle ht with kept | closed
      · exact .inl kept
      · exact run.handle_of_init.imp And.left fun moved => .inl ⟨rfl, closed, moved⟩
    | validateConfig => exact run.handle_of_validateConfig.imp_right fun moved => .inr (.inl ⟨rfl, moved⟩)
    | release => exact run.handle_of_release.imp_right fun moved => .inr (.inr ⟨rfl, moved⟩)
    | _ => exact .inl (run.handle_kept (by simp) (by simp) (by simp))
  · rintro rfl ok
    rcases run.handle_of_init with ⟨-, failed⟩ | ⟨valid, -⟩ | ⟨-, failed⟩
    · exact absurd ok failed
    · exact valid
    · exact absurd ok failed
  · rintro rfl running outside held
    exact exec_release_handle ht running outside held

end Sys2Proof.Machine
end

section
/-!
The rejections (spec/60_exceptions.md R242, R243): the rows of the handle gate that reject, and the codes that only a
check answers, so that a response with one of them is all that its command does.
-/

namespace Sys2Proof.Machine

/-! ### The rows of the gate that reject (R243) -/

section GateRows

variable {s : State} (running : s.halted = false)
include running

theorem gate_init_of_held (held : s.handle = .valid ∨ s.handle = .notPresent) : gate .init s = some .usageError := by
  unfold gate
  rcases held with h | h <;> simp [running, h]

theorem gate_release_of_closed (closed : s.handle = .none ∨ s.handle = .released) :
    gate .release s = some .usageError := by
  unfold gate
  rcases closed with h | h <;> simp [running, h]

theorem gate_other_of_closed (closed : s.handle = .none ∨ s.handle = .released) :
    gate .other s = some .usageError := by
  unfold gate
  rcases closed with h | h <;> simp [running, h]

theorem gate_other_of_absent (absent : s.handle = .notPresent) : gate .other s = some .expanderNotPresent := by
  unfold gate
  simp [running, absent]

end GateRows

theorem gateCaseOf_eq_other {i : Instr} (notInit : i ≠ .init) (notRelease : i ≠ .release)
    (notOrder : ∀ o, i ≠ .setBitOrder o) : gateCaseOf i = .other := by
  cases i with
  | init => exact absurd rfl notInit
  | release => exact absurd rfl notRelease
  | setBitOrder o => exact absurd rfl (notOrder o)
  | _ => rfl

/-- Settles O13: each clause is a row of the gate, and a command that the gate rejects only responds. -/
theorem gateRejections : Obligations.GateRejections := by
  refine fun s => ⟨fun halted i => exec_of_reject (gate_of_halted halted _), fun running =>
    ⟨fun held => exec_of_reject (gate_init_of_held running held),
      fun closed => exec_of_reject (gate_release_of_closed running closed), fun i notInit notRelease notOrder => ?_⟩⟩
  have other := gateCaseOf_eq_other notInit notRelease notOrder
  refine ⟨fun closed => exec_of_reject ?_, fun absent => exec_of_reject ?_⟩
  · rw [other, gate_other_of_closed running closed]
  · rw [other, gate_other_of_absent running absent]

/-! ### The codes of the checks (R242) -/

/-- A command begun in `s` that answers `c` was rejected by a check. `ExpanderNotPresent` is also what a failed set-up
or a failed check of the expander answers, but never on a handle that is `NotPresent` already. -/
def IsRejection (s : State) (c : Code) : Prop :=
  c = .busConflict ∨ c = .usageError ∨ c = .engineHalted ∨ c = .expanderNotPresent ∧ s.handle = .notPresent

section Codes

variable {s : State} {c : Code}

theorem not_isRejection_of_code (h : c = .ok ∨ c = .selectFailure ∨ c = .transferAborted) : ¬ IsRejection s c := by
  rcases h with rfl | rfl | rfl <;> simp [IsRejection]

theorem not_isRejection_absent (present : s.handle ≠ .notPresent) : ¬ IsRejection s .expanderNotPresent := by
  simp [IsRejection, present]

/-- The code of a command that ends with a deselect attempt (R147, R173, R225). -/
theorem not_isRejection_of_deselect (ok : Bool) : ¬ IsRejection s (if ok then .ok else .selectFailure) :=
  not_isRejection_of_code (by cases ok <;> simp)

/-- The last code is the one that the command responded with. -/
theorem code_of_responds {i : Instr} {c' : Code} {p : Option Payload} {t u : State}
    (responds : exec i s = .next (u.respond c' p)) (h : exec i s = .next t) (hc : t.lastCode = some c) : c' = c := by
  obtain rfl := Host.Outcome.next.inj (responds.symm.trans h)
  exact Option.some.inj ((lastCode_respond u c' p).symm.trans hc)

/-- An `INIT` that passes the gate is not rejected: its only codes are those of its three I/O stages (R220). -/
theorem exec_init_not_isRejection {t : State} (pass : gate .init s = none) (h : exec .init s = .next t)
    (hc : t.lastCode = some c) : ¬ IsRejection s c := by
  have closed := gate_init_pass pass
  have running := gate_pass_running pass
  have present : s.handle ≠ .notPresent := by rcases closed with e | e <;> simp [e]
  rcases setUp : setupWrites s.cfg.initWrites (idlePins s) with ⟨_ | _, u⟩
  · obtain rfl := code_of_responds (exec_init_of_setup_failed running closed setUp) h hc
    exact not_isRejection_absent present
  rcases off : doDeselect u with ⟨_ | _, v⟩
  · obtain rfl := code_of_responds (exec_init_of_deselect_failed running closed setUp off) h hc
    exact not_isRejection_of_code (.inr (.inl rfl))
  rcases checked : validate v with ⟨_ | _, w⟩
  · obtain rfl := code_of_responds (exec_init_of_checked running closed setUp off checked) h hc
    exact not_isRejection_absent present
  · obtain rfl := code_of_responds (exec_init_of_checked running closed setUp off checked) h hc
    exact not_isRejection_of_code (.inl rfl)

/-- Of the ways a command but `INIT` can end, only the rejection has the code of one. -/
theorem CommandRun.eq_of_isRejection {i : Instr} {p : Option Payload} {u : State} (h : CommandRun s i c p u)
    (notInit : i ≠ .init) (rejects : IsRejection s c) : u = s ∧ p = none := by
  cases h with
  | rejected => exact ⟨rfl, rfl⟩
  | configInvalid free => exact absurd rejects (not_isRejection_absent (by simp [free.valid]))
  | setupFailed => exact absurd rfl notInit
  | setUp => exact absurd rfl notInit
  | deselected _ _ ok => exact absurd rejects (not_isRejection_of_deselect ok)
  | sessionClosed _ ok => exact absurd rejects (not_isRejection_of_deselect ok)
  | released _ _ ok => exact absurd rejects (not_isRejection_of_deselect ok)
  | readRun _ run => exact absurd rejects (not_isRejection_of_code run.code)
  | dumpRun _ run => exact absurd rejects (not_isRejection_of_code run.code)
  | _ => exact absurd rejects (not_isRejection_of_code (by simp))

end Codes

/-- Settles O16: the gate rejects `INIT` or lets its I/O stages answer; of every other command's runs, only the
rejection answers with the code of a check. -/
theorem rejectedCommandsDoNothing : Obligations.RejectedCommandsDoNothing := by
  intro i s t c h hc rejects
  by_cases notInit : i ≠ .init
  · obtain ⟨c', p, u, run, rfl⟩ := exec_inversion h
    obtain rfl := Option.some.inj ((lastCode_respond _ _ _).symm.trans hc)
    obtain ⟨rfl, rfl⟩ := run.eq_of_isRejection notInit rejects
    rfl
  · obtain rfl := not_not.1 notInit
    cases pass : gate .init s with
    | none => exact absurd rejects (exec_init_not_isRejection pass h hc)
    | some code =>
      have responds : exec .init s = .next (s.respond code none) := exec_of_reject pass
      obtain rfl := code_of_responds responds h hc
      exact (Host.Outcome.next.inj (responds.symm.trans h)).symm

end Sys2Proof.Machine
end

section
/-!
A reset from outside (spec/70_reset_and_hazards.md R270, R272): the words left of a command in whose middle it comes,
and what the step does for each reset input.
-/

namespace Sys2Proof.Machine

/-! ### The words of an abandoned command (R272) -/

section Abandoned

variable {ws rest : List Word}

theorem portAfterAbandoned_of_command {i : Instr} (h : decode ws = .command i rest) :
    portAfterAbandoned ws = rest := by simp [portAfterAbandoned, h]

theorem portAfterAbandoned_of_illegal {why : IllegalReason} (h : decode ws = .illegal why rest) :
    portAfterAbandoned ws = rest := by simp [portAfterAbandoned, h]

theorem portAfterAbandoned_of_waiting (h : decode ws = .waiting) : portAfterAbandoned ws = [] := by
  simp [portAfterAbandoned, h]

end Abandoned

/-! ### The step that takes a reset -/

theorem step_of_takeReset {s t : State} (h : s.takeReset = some t) : step s = .next t := by
  simp [step, h]

/-- R270: no word of the port is taken. -/
theorem step_of_resetBetweenCommands {s : State} (input : s.resetInput = .betweenCommands) :
    step s = .next s.resetRecord :=
  step_of_takeReset (by simp [State.takeReset, input])

/-- R272: the command on the port does not run, so it sends no response. -/
theorem step_of_resetMidCommand {s : State} (input : s.resetInput = .midCommand) :
    step s = .next (s.resetRecord.withPort (portAfterAbandoned s.port)) :=
  step_of_takeReset (by simp [State.takeReset, input])

/-- Settles O9: the step for each of the two resets; in the middle of a command, what the decoder reads on the port
says which words are left. -/
theorem resetFromOutside : Obligations.ResetFromOutside := by
  refine fun s => ⟨fun input => ⟨srAtReset, step_of_resetBetweenCommands input⟩, fun input rest onPort => ?_⟩
  have left : portAfterAbandoned s.port = rest := by
    rcases onPort with ⟨i, command⟩ | ⟨why, illegal⟩ | ⟨waiting, rfl⟩
    · exact portAfterAbandoned_of_command command
    · exact portAfterAbandoned_of_illegal illegal
    · exact portAfterAbandoned_of_waiting waiting
  exact ⟨srAtReset, left ▸ step_of_resetMidCommand input⟩

end Sys2Proof.Machine
end
